-- ==== Sys2Proof/Word.lean ====
section
/-! DEFINITION. The word types of SEC: 32-bit registers and command words, 16-bit character units, bytes of
local memory (spec/10_state.md R30, spec/20_memory.md R71, R78). -/

namespace Sys2Proof

/-- A register value or a command word (10_state.md R30, 30_encoding.md R100). -/
abbrev Word := BitVec 32

/-- A 16-bit character code unit or bit-accumulator value (30_encoding.md R105, 20_memory.md R78). -/
abbrev Half := BitVec 16

/-- One byte of local memory (20_memory.md R71), a codeword or a GF(256) element (00_scope.md R14). -/
abbrev Byte := BitVec 8

/-- The 32-bit word of a natural number (the rules' results are naturals, 00_scope.md R16). -/
abbrev word (n : Nat) : Word := BitVec.ofNat 32 n

/-- The byte of a natural number. -/
abbrev byte (n : Nat) : Byte := BitVec.ofNat 8 n

end Sys2Proof
end

