-- ==== Sys2Proof/Syntax.lean ====
section
/-! DEFINITION. The syntax of SEC's command set: one constructor per row of spec/opcode_table.json
(30_encoding.md R110). A version, a length, a degree, a table index, a mask id and a coordinate are numbers (00_scope.md
R16) and stand as `Nat`, bounded by `Instr.WellFormed`; a field element and a code unit are bits. -/

namespace Sys2Proof

/-- The error-correction levels, in the order of their codes 0 to 3 (30_encoding.md R106). -/
inductive Ecc where
  | low
  | medium
  | quartile
  | high
  deriving DecidableEq, Repr

/-- The 2-bit ECC level code (30_encoding.md R106). -/
def Ecc.code : Ecc → Nat
  | .low => 0
  | .medium => 1
  | .quartile => 2
  | .high => 3

/-- The level of a 2-bit code (30_encoding.md R106). -/
def Ecc.ofCode : Nat → Ecc
  | 0 => .low
  | 1 => .medium
  | 2 => .quartile
  | _ => .high

/-- A command (30_encoding.md R110), its used fields as arguments in the order of the assembler syntax (R114). -/
inductive Instr where
  | nop
  | baClear
  | baAppend (len : Nat) (val : Half)
  | baPad
  | gfMul (x y : Byte)
  | gfExp (i : Nat)
  | gfLog (x : Byte)
  | rsGen (degree : Nat)
  | rsEcc (eccLen : Nat)
  | capLookup (ver : Nat) (ecc : Ecc)
  | alignPos (ver : Nat)
  | blockInfo (ver : Nat) (ecc : Ecc)
  | ccBits (ver : Nat)
  | totalBits (ver : Nat)
  | utf8Put (unit : Half)
  | segWrite (ver : Nat)
  | qrSelect (ecc : Ecc)
  | qrAssemble (ver : Nat) (ecc : Ecc)
  | qrInterleave (ver : Nat) (ecc : Ecc)
  | qrFunc (ver : Nat) (ecc : Ecc)
  | qrPlace (mask : Nat)
  | qrFormat (mask : Nat)
  | qrPenalty
  | maskEval (mask x y : Nat)
  | fmtBch (ecc : Ecc) (mask : Nat)
  | verBch (ver : Nat)
  | qrEncode (ecc : Ecc)
  | c128Map (unit : Half)
  | c128Pattern (index : Nat)
  | c128Checksum
  | c128Encode
  deriving DecidableEq, Repr

end Sys2Proof
end

