-- ==== Sys2Proof/WellFormed.lean ====
section
/-! DEFINITION. Well-formed commands: every numeric operand fits its field (30_encoding.md R103 to R105, R108). A field
that fits but lies outside a command's legal range is still well formed: it completes with RANGE (R107). -/

namespace Sys2Proof

/-- The VER field has 6 bits (30_encoding.md R103). -/
def verFits (v : Nat) : Bool := decide (v < 64)

/-- The MASK field has 3 bits (30_encoding.md R103). -/
def maskFits (m : Nat) : Bool := decide (m < 8)

/-- The fields A8, B8, C8 have 8 bits (30_encoding.md R104). -/
def byteFits (n : Nat) : Bool := decide (n < 256)

/-- The L5 field has 5 bits (30_encoding.md R105). -/
def lenFits (n : Nat) : Bool := decide (n < 32)

/-- Every operand fits its field. -/
def Instr.wellFormed : Instr → Bool
  | .nop => true
  | .baClear => true
  | .baAppend len _ => lenFits len
  | .baPad => true
  | .gfMul _ _ => true
  | .gfExp i => byteFits i
  | .gfLog _ => true
  | .rsGen d => byteFits d
  | .rsEcc e => byteFits e
  | .capLookup v _ => verFits v
  | .alignPos v => verFits v
  | .blockInfo v _ => verFits v
  | .ccBits v => verFits v
  | .totalBits v => verFits v
  | .utf8Put _ => true
  | .segWrite v => verFits v
  | .qrSelect _ => true
  | .qrAssemble v _ => verFits v
  | .qrInterleave v _ => verFits v
  | .qrFunc v _ => verFits v
  | .qrPlace m => maskFits m
  | .qrFormat m => maskFits m
  | .qrPenalty => true
  | .maskEval m x y => byteFits m && byteFits x && byteFits y
  | .fmtBch _ m => maskFits m
  | .verBch v => verFits v
  | .qrEncode _ => true
  | .c128Map _ => true
  | .c128Pattern i => byteFits i
  | .c128Checksum => true
  | .c128Encode => true

end Sys2Proof
end

