-- ==== Sys2Proof/Decode.lean ====
section
/-! DEFINITION. The command decoder and encoder, and the opcode table itself (spec/30_encoding.md R100 to R112). The
decoder is total on words and rejects by name; every rejected word completes with ILLEGAL (60_exceptions.md R412). -/

namespace Sys2Proof

/-- `w[hi:lo]`, zero-extended (00_scope.md R15, 30_encoding.md R108). -/
def field (w : Word) (hi lo : Nat) : Nat := w.toNat / 2 ^ lo % 2 ^ (hi + 1 - lo)

/-- `OPC = w[7:0]` (30_encoding.md R101). -/
def opcField (w : Word) : Nat := field w 7 0
/-- `VER = w[13:8]` (30_encoding.md R108). -/
def verField (w : Word) : Nat := field w 13 8
/-- `ECC = w[15:14]` (30_encoding.md R108), as a level by R106. -/
def eccField (w : Word) : Ecc := Ecc.ofCode (field w 15 14)
/-- `MASK = w[18:16]` (30_encoding.md R108). -/
def maskField (w : Word) : Nat := field w 18 16
/-- `A8 = w[15:8]` (30_encoding.md R108). -/
def a8Field (w : Word) : Nat := field w 15 8
/-- `B8 = w[23:16]` (30_encoding.md R108). -/
def b8Field (w : Word) : Nat := field w 23 16
/-- `C8 = w[31:24]` (30_encoding.md R108). -/
def c8Field (w : Word) : Nat := field w 31 24
/-- `L5 = w[12:8]` (30_encoding.md R108). -/
def l5Field (w : Word) : Nat := field w 12 8
/-- `U16 = w[31:16]` (30_encoding.md R108). -/
def u16Field (w : Word) : Half := BitVec.ofNat 16 (field w 31 16)

/-- Why the decoder rejects a word; either way the word completes with ILLEGAL (60_exceptions.md R412). -/
inductive DecodeError where
  /-- The opcode is in no row of the opcode map (30_encoding.md R111). -/
  | reservedOpcode
  /-- A must-be-zero bit or an unused field is not zero (30_encoding.md R107). -/
  | mustBeZero
  deriving DecidableEq, Repr

/-- Format N: bits [31:8] are zero (30_encoding.md R102). -/
def formatN (w : Word) (i : Instr) : Except DecodeError Instr :=
  if field w 31 8 = 0 then .ok i else .error .mustBeZero

/-- Format Q: bits [31:19] are zero, and so is each of MASK, ECC, VER that the row does not use (R102, R107). -/
def formatQ (w : Word) (useVer useEcc useMask : Bool) (i : Instr) : Except DecodeError Instr :=
  if field w 31 19 = 0 ∧ (useMask = true ∨ field w 18 16 = 0) ∧ (useEcc = true ∨ field w 15 14 = 0) ∧
      (useVer = true ∨ field w 13 8 = 0) then .ok i
  else .error .mustBeZero

/-- Format B: each of C8, B8 that the row does not use is zero; every format B row uses A8 (R102, R107, R110). -/
def formatB (w : Word) (useB useC : Bool) (i : Instr) : Except DecodeError Instr :=
  if (useC = true ∨ field w 31 24 = 0) ∧ (useB = true ∨ field w 23 16 = 0) then .ok i
  else .error .mustBeZero

/-- Format H: bits [15:13] are zero, and so is L5 where the row does not use it; every format H row uses U16
(R102, R107, R110). -/
def formatH (w : Word) (useLen : Bool) (i : Instr) : Except DecodeError Instr :=
  if field w 15 13 = 0 ∧ (useLen = true ∨ field w 12 8 = 0) then .ok i else .error .mustBeZero

/-- The command of a word, by the opcode map (30_encoding.md R110), or the reason there is none. -/
def decode (w : Word) : Except DecodeError Instr :=
  match opcField w with
  | 0x00 => formatN w .nop
  | 0x01 => formatN w .baClear
  | 0x02 => formatH w true (.baAppend (l5Field w) (u16Field w))
  | 0x03 => formatN w .baPad
  | 0x10 => formatB w true false (.gfMul (byte (a8Field w)) (byte (b8Field w)))
  | 0x11 => formatB w false false (.gfExp (a8Field w))
  | 0x12 => formatB w false false (.gfLog (byte (a8Field w)))
  | 0x13 => formatB w false false (.rsGen (a8Field w))
  | 0x14 => formatB w false false (.rsEcc (a8Field w))
  | 0x20 => formatQ w true true false (.capLookup (verField w) (eccField w))
  | 0x21 => formatQ w true false false (.alignPos (verField w))
  | 0x22 => formatQ w true false false (.ccBits (verField w))
  | 0x23 => formatQ w true false false (.totalBits (verField w))
  | 0x24 => formatQ w true true false (.blockInfo (verField w) (eccField w))
  | 0x30 => formatH w false (.utf8Put (u16Field w))
  | 0x31 => formatQ w true false false (.segWrite (verField w))
  | 0x40 => formatQ w false true false (.qrSelect (eccField w))
  | 0x41 => formatQ w true true false (.qrAssemble (verField w) (eccField w))
  | 0x42 => formatQ w true true false (.qrInterleave (verField w) (eccField w))
  | 0x50 => formatQ w true true false (.qrFunc (verField w) (eccField w))
  | 0x51 => formatQ w false false true (.qrPlace (maskField w))
  | 0x52 => formatQ w false false true (.qrFormat (maskField w))
  | 0x53 => formatN w .qrPenalty
  | 0x54 => formatB w true true (.maskEval (a8Field w) (b8Field w) (c8Field w))
  | 0x55 => formatQ w false true true (.fmtBch (eccField w) (maskField w))
  | 0x56 => formatQ w true false false (.verBch (verField w))
  | 0x5F => formatQ w false true false (.qrEncode (eccField w))
  | 0x60 => formatH w false (.c128Map (u16Field w))
  | 0x61 => formatB w false false (.c128Pattern (a8Field w))
  | 0x62 => formatN w .c128Checksum
  | 0x6F => formatN w .c128Encode
  | _ => .error .reservedOpcode

/-- What the decoder reads from a table row's bits; a command is one 32-bit word, so the bits above `nbits` are zero
(30_encoding.md R100). -/
def decodeTableWord (nbits w : Nat) : Option Instr :=
  match decode (word (w % 2 ^ nbits)) with
  | .ok i => some i
  | .error _ => none

/-! ## The encoder -/

/-- A format N word (30_encoding.md R102). -/
def encodeN (opc : Nat) : Word := word opc

/-- A format Q word (30_encoding.md R102). -/
def encodeQ (opc ver ecc mask : Nat) : Word := word (opc + 2 ^ 8 * ver + 2 ^ 14 * ecc + 2 ^ 16 * mask)

/-- A format B word (30_encoding.md R102). -/
def encodeB (opc a b c : Nat) : Word := word (opc + 2 ^ 8 * a + 2 ^ 16 * b + 2 ^ 24 * c)

/-- A format H word (30_encoding.md R102). -/
def encodeH (opc len val : Nat) : Word := word (opc + 2 ^ 8 * len + 2 ^ 16 * val)

/-- The opcode of a command (30_encoding.md R110). -/
def Instr.opcode : Instr → Nat
  | .nop => 0x00
  | .baClear => 0x01
  | .baAppend _ _ => 0x02
  | .baPad => 0x03
  | .gfMul _ _ => 0x10
  | .gfExp _ => 0x11
  | .gfLog _ => 0x12
  | .rsGen _ => 0x13
  | .rsEcc _ => 0x14
  | .capLookup _ _ => 0x20
  | .alignPos _ => 0x21
  | .ccBits _ => 0x22
  | .totalBits _ => 0x23
  | .blockInfo _ _ => 0x24
  | .utf8Put _ => 0x30
  | .segWrite _ => 0x31
  | .qrSelect _ => 0x40
  | .qrAssemble _ _ => 0x41
  | .qrInterleave _ _ => 0x42
  | .qrFunc _ _ => 0x50
  | .qrPlace _ => 0x51
  | .qrFormat _ => 0x52
  | .qrPenalty => 0x53
  | .maskEval _ _ _ => 0x54
  | .fmtBch _ _ => 0x55
  | .verBch _ => 0x56
  | .qrEncode _ => 0x5F
  | .c128Map _ => 0x60
  | .c128Pattern _ => 0x61
  | .c128Checksum => 0x62
  | .c128Encode => 0x6F

/-- The word of a command (30_encoding.md R102, R108, R110); unused fields and zero bits are 0 (R107). -/
def encode (i : Instr) : Word :=
  match i with
  | .nop => encodeN i.opcode
  | .baClear => encodeN i.opcode
  | .baAppend len val => encodeH i.opcode len val.toNat
  | .baPad => encodeN i.opcode
  | .gfMul x y => encodeB i.opcode x.toNat y.toNat 0
  | .gfExp n => encodeB i.opcode n 0 0
  | .gfLog x => encodeB i.opcode x.toNat 0 0
  | .rsGen d => encodeB i.opcode d 0 0
  | .rsEcc e => encodeB i.opcode e 0 0
  | .capLookup v e => encodeQ i.opcode v e.code 0
  | .alignPos v => encodeQ i.opcode v 0 0
  | .ccBits v => encodeQ i.opcode v 0 0
  | .totalBits v => encodeQ i.opcode v 0 0
  | .blockInfo v e => encodeQ i.opcode v e.code 0
  | .utf8Put u => encodeH i.opcode 0 u.toNat
  | .segWrite v => encodeQ i.opcode v 0 0
  | .qrSelect e => encodeQ i.opcode 0 e.code 0
  | .qrAssemble v e => encodeQ i.opcode v e.code 0
  | .qrInterleave v e => encodeQ i.opcode v e.code 0
  | .qrFunc v e => encodeQ i.opcode v e.code 0
  | .qrPlace m => encodeQ i.opcode 0 0 m
  | .qrFormat m => encodeQ i.opcode 0 0 m
  | .qrPenalty => encodeN i.opcode
  | .maskEval m x y => encodeB i.opcode m x y
  | .fmtBch e m => encodeQ i.opcode 0 e.code m
  | .verBch v => encodeQ i.opcode v 0 0
  | .qrEncode e => encodeQ i.opcode 0 e.code 0
  | .c128Map u => encodeH i.opcode 0 u.toNat
  | .c128Pattern n => encodeB i.opcode n 0 0
  | .c128Checksum => encodeN i.opcode
  | .c128Encode => encodeN i.opcode

/-! ## The opcode table -/

/-- The mnemonic of a command (30_encoding.md R110). -/
def Instr.mnemonic : Instr → String
  | .nop => "NOP"
  | .baClear => "BA_CLEAR"
  | .baAppend _ _ => "BA_APPEND"
  | .baPad => "BA_PAD"
  | .gfMul _ _ => "GF_MUL"
  | .gfExp _ => "GF_EXP"
  | .gfLog _ => "GF_LOG"
  | .rsGen _ => "RS_GEN"
  | .rsEcc _ => "RS_ECC"
  | .capLookup _ _ => "CAP_LOOKUP"
  | .alignPos _ => "ALIGN_POS"
  | .ccBits _ => "CC_BITS"
  | .totalBits _ => "TOTAL_BITS"
  | .blockInfo _ _ => "BLOCK_INFO"
  | .utf8Put _ => "UTF8_PUT"
  | .segWrite _ => "SEG_WRITE"
  | .qrSelect _ => "QR_SELECT"
  | .qrAssemble _ _ => "QR_ASSEMBLE"
  | .qrInterleave _ _ => "QR_INTERLEAVE"
  | .qrFunc _ _ => "QR_FUNC"
  | .qrPlace _ => "QR_PLACE"
  | .qrFormat _ => "QR_FORMAT"
  | .qrPenalty => "QR_PENALTY"
  | .maskEval _ _ _ => "MASK_EVAL"
  | .fmtBch _ _ => "FMT_BCH"
  | .verBch _ => "VER_BCH"
  | .qrEncode _ => "QR_ENCODE"
  | .c128Map _ => "C128_MAP"
  | .c128Pattern _ => "C128_PATTERN"
  | .c128Checksum => "C128_CHECKSUM"
  | .c128Encode => "C128_ENCODE"

/-- One row of the opcode table: the words `w` with `w & mask = match` (30_encoding.md R112). -/
structure OpRow where
  mnemonic : String
  pattern  : Word
  mask     : Word
  deriving DecidableEq, Repr

/-- A word matches a row (30_encoding.md R112). -/
def OpRow.matches (r : OpRow) (w : Word) : Bool := (w &&& r.mask) == r.pattern

/-- The rows of spec/opcode_table.json with opcodes below 0x40. -/
def opcodeTableLow : List OpRow :=
  [⟨"NOP", 0x00000000, 0xFFFFFFFF⟩, ⟨"BA_CLEAR", 0x00000001, 0xFFFFFFFF⟩,
   ⟨"BA_APPEND", 0x00000002, 0x0000E0FF⟩, ⟨"BA_PAD", 0x00000003, 0xFFFFFFFF⟩,
   ⟨"GF_MUL", 0x00000010, 0xFF0000FF⟩, ⟨"GF_EXP", 0x00000011, 0xFFFF00FF⟩,
   ⟨"GF_LOG", 0x00000012, 0xFFFF00FF⟩, ⟨"RS_GEN", 0x00000013, 0xFFFF00FF⟩,
   ⟨"RS_ECC", 0x00000014, 0xFFFF00FF⟩, ⟨"CAP_LOOKUP", 0x00000020, 0xFFFF00FF⟩,
   ⟨"ALIGN_POS", 0x00000021, 0xFFFFC0FF⟩, ⟨"BLOCK_INFO", 0x00000024, 0xFFFF00FF⟩,
   ⟨"CC_BITS", 0x00000022, 0xFFFFC0FF⟩, ⟨"TOTAL_BITS", 0x00000023, 0xFFFFC0FF⟩,
   ⟨"UTF8_PUT", 0x00000030, 0x0000FFFF⟩, ⟨"SEG_WRITE", 0x00000031, 0xFFFFC0FF⟩]

/-- The rows of spec/opcode_table.json with opcodes from 0x40. -/
def opcodeTableHigh : List OpRow :=
  [⟨"QR_SELECT", 0x00000040, 0xFFFF3FFF⟩, ⟨"QR_ASSEMBLE", 0x00000041, 0xFFFF00FF⟩,
   ⟨"QR_INTERLEAVE", 0x00000042, 0xFFFF00FF⟩, ⟨"QR_FUNC", 0x00000050, 0xFFFF00FF⟩,
   ⟨"QR_PLACE", 0x00000051, 0xFFF8FFFF⟩, ⟨"QR_FORMAT", 0x00000052, 0xFFF8FFFF⟩,
   ⟨"QR_PENALTY", 0x00000053, 0xFFFFFFFF⟩, ⟨"MASK_EVAL", 0x00000054, 0x000000FF⟩,
   ⟨"FMT_BCH", 0x00000055, 0xFFF83FFF⟩, ⟨"VER_BCH", 0x00000056, 0xFFFFC0FF⟩,
   ⟨"QR_ENCODE", 0x0000005F, 0xFFFF3FFF⟩, ⟨"C128_MAP", 0x00000060, 0x0000FFFF⟩,
   ⟨"C128_PATTERN", 0x00000061, 0xFFFF00FF⟩, ⟨"C128_CHECKSUM", 0x00000062, 0xFFFFFFFF⟩,
   ⟨"C128_ENCODE", 0x0000006F, 0xFFFFFFFF⟩]

/-- The opcode table (spec/opcode_table.json, 30_encoding.md R110). -/
def opcodeTable : List OpRow := opcodeTableLow ++ opcodeTableHigh

end Sys2Proof
end

