-- ==== Sys2Proof/Config.lean ====
section
/-! DEFINITION. What an implementation fixes (00_scope.md R10 to R12), and the free values: what the spec leaves
unspecified by name (00_scope.md R25, 93_implementation_defined.md part 1). -/

namespace Sys2Proof

/-- The implementation parameters, which "a model takes as arguments": State holds them and no step changes them,
so that a statement over every state holds for every parameter value. -/
structure Params where
  /-- `P_REG_BASE`, the host address of the register window (00_scope.md R12, OPEN). -/
  regBase    : Nat
  /-- `P_LM_BASE`, the host address of the LM window (00_scope.md R12, OPEN). -/
  lmBase     : Nat
  /-- `P_MAX_VERSION`, 1 to 10 (00_scope.md R10). -/
  maxVersion : Nat
  /-- `P_C128_STOP_TERM` (00_scope.md R11). -/
  stopTerm   : Bool
  deriving DecidableEq, Repr

/-- The size in bytes of the register window (20_memory.md R70 (a)). -/
abbrev regWindowSize : Nat := 4096

/-- The size in bytes of the LM window (20_memory.md R70 (b)). -/
abbrev lmWindowSize : Nat := 16384

/-- Parameter values of a real implementation: the cap within its range (R10), the two windows apart, and every
address within 32 bits. PRESUMED (log entry 4): the spec leaves the bases to the platform and does not say that the
windows are disjoint. -/
def Params.legal (p : Params) : Bool :=
  decide (1 ≤ p.maxVersion) && decide (p.maxVersion ≤ 10) &&
  (decide (p.regBase + regWindowSize ≤ p.lmBase) || decide (p.lmBase + lmWindowSize ≤ p.regBase))

/-- The parameters of `State.reset`: the spec's defaults for the version cap (R10) and the stop pattern (R11).
DESIGN CHOICE (log entry 4): the two base addresses, which the spec leaves to the platform. -/
def Params.default : Params where
  regBase    := 0x40000000
  lmBase     := 0x40004000
  maxVersion := 10
  stopTerm   := false

/-- Free values: `freeByte d a` is the byte that draw number `d` gives LM offset `a`. LM after a hardware reset and
the regions of an aborted command are "an arbitrary draw, fixed until written" (20_memory.md R76,
70_reset_and_hazards.md R452; log entry 3). -/
opaque Config.freeByte : Nat → Nat → Byte

/-- Free values: `latency d` is the number of host steps that draw number `d` gives between a command's acceptance
and its completion; "not specified", finite (70_reset_and_hazards.md R466; log entry 2). -/
opaque Config.latency : Nat → Nat

end Sys2Proof
end

