-- ==== Sys2Proof/Machine/State.lean ====
section
/-! DEFINITION. The state of SEC: every register of spec/10_state.md, the local memory of spec/20_memory.md, the
parameters, and the model's own fields for the host's pending accesses and the free values; its value after a hardware
reset; the reasons a step can stop. -/

namespace Sys2Proof.Machine

/-- The error codes a command can report (60_exceptions.md R411); the codes 10 to 15 are never reported. -/
inductive ErrCode where
  | noError
  | illegal
  | range
  | payloadTooLarge
  | ccOverflow
  | baFull
  | inFull
  | domain
  | seq
  | length
  deriving DecidableEq, Repr

/-- STATUS (10_state.md R34), by field; `Status.word` in Flags.lean is the register's 32-bit view. -/
structure Status where
  busy    : Bool
  done    : Bool
  err     : Bool
  drop    : Bool
  errCode : ErrCode
  deriving DecidableEq, Repr

/-- The operand registers ARG0 to ARG2 (10_state.md R37). -/
structure ArgRegs where
  a0 : Word
  a1 : Word
  a2 : Word
  deriving DecidableEq, Repr

/-- The result registers RES0 to RES4 (10_state.md R38). -/
structure ResRegs where
  r0 : Word
  r1 : Word
  r2 : Word
  r3 : Word
  r4 : Word
  deriving DecidableEq, Repr

/-- The penalty registers PEN0 to PEN7 (10_state.md R47). -/
structure PenRegs where
  p0 : Word
  p1 : Word
  p2 : Word
  p3 : Word
  p4 : Word
  p5 : Word
  p6 : Word
  p7 : Word
  deriving DecidableEq, Repr

/-- QR_INFO (10_state.md R43), by field. -/
structure QrInfo where
  version   : BitVec 6
  size      : BitVec 6
  ecc       : Ecc
  mask      : BitVec 3
  funcValid : Bool
  maskValid : Bool
  deriving DecidableEq, Repr

/-- The width of a host access: 8, 16 or 32 bits (20_memory.md R86). -/
inductive Width where
  | w8
  | w16
  | w32
  deriving DecidableEq, Repr

/-- What reaches SEC from outside: the host's bus accesses at host addresses (00_scope.md R24, 20_memory.md R70), the
host's WAIT loop (30_encoding.md R116) and the hardware reset input (70_reset_and_hazards.md R450). -/
inductive HostInput where
  /-- A bus write of the low bytes of a value. -/
  | write (addr : Nat) (width : Width) (value : Word)
  /-- A bus read. -/
  | read (addr : Nat) (width : Width)
  /-- WAIT: reads of STATUS repeated until BUSY is 0; each step performs one read. -/
  | wait
  /-- The hardware reset input. -/
  | hardwareReset
  deriving DecidableEq, Repr

/-- Why the machine stops with a fault. Both are faults of a host step: no command of SEC faults
(60_exceptions.md R410). -/
inductive Fault where
  /-- Raised by a host access of the wrong width or alignment (20_memory.md R87, R88; 60_exceptions.md R417 (a): "A model
  treats (a) as a fault of the host step"). Safe: the hardware answers a bus error without effect and goes on
  (log entry 5). -/
  | busError (access : HostInput)
  /-- Raised by a host access outside both windows (20_memory.md R70). Safe: SEC has nothing at such an address
  (log entry 6). -/
  | outsideWindows (access : HostInput)
  deriving DecidableEq, Repr

/-- Why a step gives no meaning. -/
inductive Refusal where
  /-- An arm of `exec` without a meaning. Safe; no arm raises it: every command has its meaning. -/
  | notModelled (mnemonic : String)
  deriving DecidableEq, Repr

/-- The state of SEC. ID is a constant (10_state.md R31), CFG is a view of `params` (R32), CMD holds nothing (R35), the
interrupt line is derived (R53). -/
structure State where
  /-- The implementation parameters (00_scope.md R10 to R12); no step changes them. -/
  params    : Params
  /-- CTRL.IRQ_EN (10_state.md R33). -/
  irqEn     : Bool
  /-- STATUS (10_state.md R34). -/
  status    : Status
  /-- LASTCMD, which is also the latched word of the command in flight (10_state.md R36, R50). -/
  lastCmd   : Word
  /-- ARG0 to ARG2 (10_state.md R37). -/
  arg       : ArgRegs
  /-- RES0 to RES4 (10_state.md R38). -/
  res       : ResRegs
  /-- IN_LEN (10_state.md R39). -/
  inLen     : BitVec 10
  /-- CHR_LEN (10_state.md R40). -/
  chrLen    : BitVec 9
  /-- BA_LEN (10_state.md R41). -/
  baLen     : BitVec 13
  /-- CW_LEN (10_state.md R42). -/
  cwLen     : BitVec 10
  /-- QR_INFO (10_state.md R43). -/
  qrInfo    : QrInfo
  /-- BAR_COUNT (10_state.md R44). -/
  barCount  : BitVec 9
  /-- BAR_WIDTH (10_state.md R45). -/
  barWidth  : BitVec 16
  /-- C128_CW_LEN (10_state.md R46). -/
  c128CwLen : BitVec 9
  /-- PEN0 to PEN7 (10_state.md R47). -/
  pen       : PenRegs
  /-- The LM bytes that have a definite value, in rising order of offset (20_memory.md R71); an unlisted byte of a
  region holds no value here and reads as its free draw (R76, log entry 3). -/
  lm        : List Host.Cell
  /-- The model's own: the draw that gives the unlisted LM bytes their values (log entry 3). -/
  lmEpoch   : Nat
  /-- The model's own: the number of the next free draw (log entries 2 and 3). -/
  draw      : Nat
  /-- The model's own: host steps left before the running command completes (log entry 2). -/
  wait      : Nat
  /-- The model's own: what is still to reach SEC from outside, oldest first (log entry 1). -/
  inputs    : List HostInput
  /-- The model's own: the data the last host read returned (log entry 1). -/
  rdata     : Option Word
  deriving DecidableEq, Repr

/-- STATUS after a reset (10_state.md R34). -/
def Status.reset : Status where
  busy := false
  done := false
  err := false
  drop := false
  errCode := .noError

/-- QR_INFO after a reset: all fields 0 (10_state.md R43). -/
def QrInfo.reset : QrInfo where
  version := 0
  size := 0
  ecc := .low
  mask := 0
  funcValid := false
  maskValid := false

/-- The machine right after a hardware reset, for given parameters (10_state.md R55, 70_reset_and_hazards.md R451):
every register 0, the core idle, no LM byte with a definite value. -/
def State.resetWith (p : Params) : State where
  params := p
  irqEn := false
  status := Status.reset
  lastCmd := 0
  arg := ⟨0, 0, 0⟩
  res := ⟨0, 0, 0, 0, 0⟩
  inLen := 0
  chrLen := 0
  baLen := 0
  cwLen := 0
  qrInfo := QrInfo.reset
  barCount := 0
  barWidth := 0
  c128CwLen := 0
  pen := ⟨0, 0, 0, 0, 0, 0, 0, 0⟩
  lm := []
  lmEpoch := 0
  draw := 1
  wait := 0
  inputs := []
  rdata := none

/-- The machine right after a hardware reset with the default parameters (00_scope.md R10, R11; log entry 4). -/
def State.reset : State := State.resetWith Params.default

end Sys2Proof.Machine
end

