-- ==== Sys2Proof/Machine/Flags.lean ====
section
/-! DEFINITION. SEC's only flags are the STATUS bits and the QR_INFO valid bits (10_state.md R51): the STATUS word, the
acceptance and completion of a command, write-1-to-clear, the interrupt line, the QR_INFO word. -/

namespace Sys2Proof.Machine

/-- The value of STATUS.ERRCODE (60_exceptions.md R411). -/
def ErrCode.code : ErrCode → Nat
  | .noError => 0
  | .illegal => 1
  | .range => 2
  | .payloadTooLarge => 3
  | .ccOverflow => 4
  | .baFull => 5
  | .inFull => 6
  | .domain => 7
  | .seq => 8
  | .length => 9

/-- STATUS as software reads it (10_state.md R34); reserved bits read 0. -/
def Status.word (s : Status) : Word :=
  Sys2Proof.word (s.busy.toNat + 2 * s.done.toNat + 4 * s.err.toNat + 8 * s.drop.toNat + 2 ^ 8 * s.errCode.code)

/-- STATUS when a command is accepted: DONE, ERR and ERRCODE cleared, BUSY set, DROP kept (10_state.md R34, R35). -/
def Status.accepted (s : Status) : Status :=
  { s with busy := true, done := false, err := false, errCode := .noError }

/-- STATUS when a command completes without error: BUSY cleared, DONE set, ERR and ERRCODE 0, DROP kept
(60_exceptions.md R414). -/
def Status.completed (s : Status) : Status :=
  { s with busy := false, done := true, err := false, errCode := .noError }

/-- STATUS when a command completes with error `c` (60_exceptions.md R414). -/
def Status.failed (s : Status) (c : ErrCode) : Status :=
  { s with busy := false, done := true, err := true, errCode := c }

/-- STATUS when a host write is dropped (10_state.md R35, 70_reset_and_hazards.md R462). -/
def Status.dropped (s : Status) : Status := { s with drop := true }

/-- STATUS after a host write of `v` to it: a 1 clears DONE, ERR (and with it ERRCODE), DROP; BUSY and the reserved
bits ignore the write (10_state.md R34). -/
def Status.writeOneToClear (s : Status) (v : Word) : Status :=
  { s with
    done := s.done && !v.getLsbD 1
    err := s.err && !v.getLsbD 2
    errCode := if v.getLsbD 2 then .noError else s.errCode
    drop := s.drop && !v.getLsbD 3 }

/-- The interrupt line `irq = CTRL.IRQ_EN & STATUS.DONE` (10_state.md R53, 60_exceptions.md R418). -/
def State.irq (s : State) : Bool := s.irqEn && s.status.done

/-- QR_INFO as software reads it (10_state.md R43); reserved bits read 0. -/
def QrInfo.word (q : QrInfo) : Word :=
  Sys2Proof.word (q.version.toNat + 2 ^ 8 * q.size.toNat + 2 ^ 14 * q.ecc.code + 2 ^ 16 * q.mask.toNat +
    2 ^ 24 * q.funcValid.toNat + 2 ^ 25 * q.maskValid.toNat)

/-- QR_INFO once the function patterns of version `v` are drawn (46_qr_matrix.md R309). -/
def QrInfo.drawn (v size : Nat) (e : Ecc) : QrInfo where
  version := BitVec.ofNat 6 v
  size := BitVec.ofNat 6 size
  ecc := e
  mask := 0
  funcValid := true
  maskValid := false

/-- QR_INFO once data is placed with mask `m` (46_qr_matrix.md R314). -/
def QrInfo.placed (q : QrInfo) (m : Nat) : QrInfo :=
  { q with mask := BitVec.ofNat 3 m, maskValid := true }

end Sys2Proof.Machine
end

