-- ==== Sys2Proof/Machine/Ops.lean ====
section
/-! DEFINITION. The shared operations: the local memory (20_memory.md), the completion of a command with and without an
error (60_exceptions.md R414, R415: SEC's whole exception mechanism, it has no trap and no return, R420), and the bit
accumulator's append (41_bit_accumulator.md R151). -/

namespace Sys2Proof.Machine

/-! ## The list of definite bytes -/

/-- The byte an offset is listed with. -/
def Memory.get? (m : List Host.Cell) (a : Nat) : Option Byte := m.lookup a

/-- The cells of consecutive bytes from an offset on. -/
def Memory.cells (a : Nat) (bs : List Byte) : List Host.Cell :=
  match bs with
  | [] => []
  | b :: bs => (a, b) :: Memory.cells (a + 1) bs

/-- The list with the bytes `bs` stored at the offsets from `a` on. -/
def Memory.store (m : List Host.Cell) (a : Nat) (bs : List Byte) : List Host.Cell :=
  m.filter (fun c => decide (c.1 < a)) ++ Memory.cells a bs ++ m.filter (fun c => decide (a + bs.length ≤ c.1))

/-- The offset where LM's storage ends: 0x2100 to 0x3FFF is not implemented (20_memory.md R75). -/
abbrev lmEnd : Nat := 0x2100

/-- The canonical form: offsets strictly rising, all of them inside LM's storage. An unlisted offset holds no value,
so no entry can equal what an unlisted offset holds (log entry 3). -/
abbrev Memory.wf (m : List Host.Cell) : Prop :=
  m.Pairwise (fun c d => c.1 < d.1) ∧ ∀ c ∈ m, c.1 < lmEnd

/-! ## Regions (20_memory.md R74) -/

/-- The base of IN. -/
abbrev inBase : Nat := 0x0000
/-- The base of CHR. -/
abbrev chrBase : Nat := 0x0200
/-- The base of BITS. -/
abbrev bitsBase : Nat := 0x0400
/-- The base of CW. -/
abbrev cwBase : Nat := 0x0600
/-- The base of WORK. -/
abbrev workBase : Nat := 0x0800
/-- The base of BARS. -/
abbrev barsBase : Nat := 0x0C00
/-- The base of GRID. -/
abbrev gridBase : Nat := 0x1000
/-- The base of C128CW. -/
abbrev c128CwBase : Nat := 0x2000

/-- The regions a command can write (20_memory.md R74, 10_state.md R56). -/
inductive Region where
  | inp
  | bits
  | cw
  | work
  | bars
  | grid
  | c128Cw
  deriving DecidableEq, Repr

/-- A region's base offset (20_memory.md R74). -/
def Region.base : Region → Nat
  | .inp => inBase
  | .bits => bitsBase
  | .cw => cwBase
  | .work => workBase
  | .bars => barsBase
  | .grid => gridBase
  | .c128Cw => c128CwBase

/-- A region's size in bytes (20_memory.md R74). -/
def Region.size : Region → Nat
  | .inp => 512
  | .bits => 512
  | .cw => 512
  | .work => 1024
  | .bars => 1024
  | .grid => 4096
  | .c128Cw => 256

/-- An offset lies in a region. -/
def Region.holds (r : Region) (a : Nat) : Bool := decide (r.base ≤ a) && decide (a < r.base + r.size)

/-! ## LM accesses -/

/-- `LM[a]` (00_scope.md R19): a listed byte, or the free draw of an unlisted byte (20_memory.md R76), or 0 in the
reserved range (R75). -/
def State.lmByte (s : State) (a : Nat) : Byte :=
  if a < lmEnd then (Memory.get? s.lm a).getD (Config.freeByte s.lmEpoch a) else 0

/-- The bytes at `n` offsets from `a` on. -/
def State.lmBytes (s : State) (a n : Nat) : List Byte := (List.range n).map (fun k => s.lmByte (a + k))

/-- Bytes stored at the offsets from `a` on; what falls in the reserved range is ignored (20_memory.md R75). -/
def State.lmStore (s : State) (a : Nat) (bs : List Byte) : State :=
  { s with lm := Memory.store s.lm a (bs.take (lmEnd - a)) }

/-- A little-endian number (20_memory.md R85). -/
def leNat : List Byte → Nat
  | [] => 0
  | b :: bs => b.toNat + 256 * leNat bs

/-- The `n` low bytes of a number, least significant first (20_memory.md R85). -/
def leBytes (n v : Nat) : List Byte := (List.range n).map (fun k => byte (v / 256 ^ k))

/-- `MemRead(a, n)` (00_scope.md R19). -/
def State.memRead (s : State) (a n : Nat) : Nat := leNat (s.lmBytes a n)

/-- `MemWrite(a, n, v)` (00_scope.md R19). -/
def State.memWrite (s : State) (a n v : Nat) : State := s.lmStore a (leBytes n v)

/-! ## Completion -/

/-- The running command completes without error (60_exceptions.md R414, 70_reset_and_hazards.md R461). -/
def State.succeed (s : State) : Host.Outcome State Fault Refusal :=
  .next { s with status := s.status.completed }

/-- `raise CmdError(c)`: the running command completes with error `c` and writes nothing but STATUS
(00_scope.md R21, 60_exceptions.md R414, R415). -/
def State.raise (s : State) (c : ErrCode) : Host.Outcome State Fault Refusal :=
  .next { s with status := s.status.failed c }

/-! ## The bit accumulator -/

/-- The bit-accumulator capacity (41_bit_accumulator.md R150). -/
abbrev baCapacity : Nat := 4096

/-- `bits_n(v)`: the `n` low bits, most significant first (00_scope.md R17). -/
def bitsOf (n v : Nat) : List Bool :=
  match n with
  | 0 => []
  | n + 1 => v.testBit n :: bitsOf n v

/-- One byte with bit `7 − p` set to `b` (20_memory.md R79). -/
def setStreamBit (old : Byte) (p : Nat) (b : Bool) : Byte :=
  (old &&& ~~~(1#8 <<< (7 - p))) ||| (byte b.toNat <<< (7 - p))

/-- Appends one bit at position BA_LEN (41_bit_accumulator.md R151). -/
def State.appendBit (s : State) (b : Bool) : State :=
  let k := s.baLen.toNat
  let a := bitsBase + k / 8
  { s.lmStore a [setStreamBit (s.lmByte a) (k % 8) b] with baLen := BitVec.ofNat 13 (k + 1) }

/-- Appends a bit sequence, first bit first (41_bit_accumulator.md R151). -/
def State.appendBits (s : State) (bs : List Bool) : State := bs.foldl State.appendBit s

/-- `append(value, n)` (41_bit_accumulator.md R151); the bits of `value` at positions ≥ n are ignored. -/
def State.append (s : State) (value n : Nat) : State := s.appendBits (bitsOf n value)

/-- The accumulator cleared: the 512 bytes of BITS and BA_LEN are 0 (41_bit_accumulator.md R152). -/
def State.clearBits (s : State) : State :=
  { s.lmStore bitsBase (List.replicate 512 0) with baLen := 0 }

end Sys2Proof.Machine
end

