-- ==== Sys2Proof/Machine/Operands.lean ====
section
/-! DEFINITION. The implicit operands of commands (30_encoding.md R109): the input bytes, the character units, the WORK
ranges, the data codewords and the codeword stream, the cells of GRID. -/

namespace Sys2Proof.Machine

/-- The largest IN_LEN the commands accept, the size of IN (10_state.md R39, 00_scope.md R13). -/
abbrev inCapacity : Nat := 512

/-- `C128_MAX_CHARS` (00_scope.md R13, 10_state.md R40). -/
abbrev c128MaxChars : Nat := 80

/-- The size of WORK (20_memory.md R74). -/
abbrev workSize : Nat := 1024

/-- `IN[0 .. IN_LEN − 1]` (20_memory.md R77). -/
def State.inBytes (s : State) : List Byte := s.lmBytes inBase s.inLen.toNat

/-- The character units `u[k] = MemRead(CHR + 2*k, 2)`, k < CHR_LEN (20_memory.md R78, 48_code128.md R370). -/
def State.chrUnits (s : State) : List Nat :=
  (List.range s.chrLen.toNat).map (fun k => s.memRead (chrBase + 2 * k) 2)

/-- `WORK[o .. o + n − 1]` (20_memory.md R84). -/
def State.workBytes (s : State) (o n : Nat) : List Byte := s.lmBytes (workBase + o) n

/-- The first `n` bytes of BITS, the data codewords (45_qr_codewords.md R264). -/
def State.bitsBytes (s : State) (n : Nat) : List Byte := s.lmBytes bitsBase n

/-- The placed stream: the bits of `CW[0 .. CW_LEN − 1]`, each codeword most significant bit first
(46_qr_matrix.md R311). -/
def State.streamBits (s : State) : List Bool :=
  (s.lmBytes cwBase s.cwLen.toNat).flatMap (fun c => bitsOf 8 c.toNat)

/-- The LM offset of the cell at column `x` and row `y` (20_memory.md R81). -/
def cellOffset (x y : Nat) : Nat := gridBase + 64 * y + x

/-- `DARK(x, y)` (00_scope.md R20). -/
def State.dark (s : State) (x y : Nat) : Bool := (s.lmByte (cellOffset x y)).getLsbD 0

/-- `FUNC(x, y)` (00_scope.md R20). -/
def State.func (s : State) (x y : Nat) : Bool := (s.lmByte (cellOffset x y)).getLsbD 1

/-- The byte of a function module of colour `d` (00_scope.md R20). -/
def funcCell (d : Bool) : Byte := byte (2 + d.toNat)

/-- The byte of a data module of colour `d` (00_scope.md R20, 20_memory.md R81). -/
def dataCell (d : Bool) : Byte := byte d.toNat

/-- `setFunc(x, y, d)` (00_scope.md R20). -/
def State.setFunc (s : State) (x y : Nat) (d : Bool) : State := s.lmStore (cellOffset x y) [funcCell d]

/-- `setData(x, y, d)` (00_scope.md R20). -/
def State.setData (s : State) (x y : Nat) (d : Bool) : State := s.lmStore (cellOffset x y) [dataCell d]

end Sys2Proof.Machine
end

