-- ==== Sys2Proof/Machine/BitAccumulator.lean ====
section
/-! DEFINITION. The bit-accumulator commands (spec/41_bit_accumulator.md). -/

namespace Sys2Proof.Machine

/-- BA_CLEAR (41_bit_accumulator.md R152). -/
def execBaClear (s : State) : Host.Outcome State Fault Refusal := s.clearBits.succeed

/-- BA_APPEND (41_bit_accumulator.md R153). -/
def execBaAppend (len : Nat) (val : Half) (s : State) : Host.Outcome State Fault Refusal :=
  if 16 < len then s.raise .range
  else if baCapacity < s.baLen.toNat + len then s.raise .baFull
  else (s.append val.toNat len).succeed

/-- The zero bits to the next byte boundary after `k` bits (41_bit_accumulator.md R154). -/
def padLength (k : Nat) : Nat := (8 - k % 8) % 8

/-- BA_PAD (41_bit_accumulator.md R154). -/
def execBaPad (s : State) : Host.Outcome State Fault Refusal :=
  (s.append 0 (padLength s.baLen.toNat)).succeed

end Sys2Proof.Machine
end

