-- ==== Sys2Proof/Machine/Capacity.lean ====
section
/-! DEFINITION. The capacity tables and their lookup commands (spec/43_capacity.md). -/

namespace Sys2Proof.Machine

/-- One table entry per level, in the order L / M / Q / H. -/
def perLevel (l m q h : Nat) : Ecc → Nat
  | .low => l
  | .medium => m
  | .quartile => q
  | .high => h

/-- `dataCodewords(v, e)` (43_capacity.md R200); 0 outside versions 1 to 10, where no rule reads it. -/
def dataCodewords (v : Nat) : Ecc → Nat :=
  match v with
  | 1 => perLevel 19 16 13 9
  | 2 => perLevel 34 28 22 16
  | 3 => perLevel 55 44 34 26
  | 4 => perLevel 80 64 48 36
  | 5 => perLevel 108 86 62 46
  | 6 => perLevel 136 108 76 60
  | 7 => perLevel 156 124 88 66
  | 8 => perLevel 194 154 110 86
  | 9 => perLevel 232 182 132 100
  | 10 => perLevel 274 216 154 122
  | _ => perLevel 0 0 0 0

/-- `numBlocks(v, e)` (43_capacity.md R200). -/
def numBlocks (v : Nat) : Ecc → Nat :=
  match v with
  | 1 => perLevel 1 1 1 1
  | 2 => perLevel 1 1 1 1
  | 3 => perLevel 1 1 2 2
  | 4 => perLevel 1 2 2 4
  | 5 => perLevel 1 2 4 4
  | 6 => perLevel 2 4 4 4
  | 7 => perLevel 2 4 6 5
  | 8 => perLevel 2 4 6 6
  | 9 => perLevel 2 5 8 8
  | 10 => perLevel 4 5 8 8
  | _ => perLevel 0 0 0 0

/-- `eccPerBlock(v, e)` (43_capacity.md R200). -/
def eccPerBlock (v : Nat) : Ecc → Nat :=
  match v with
  | 1 => perLevel 7 10 13 17
  | 2 => perLevel 10 16 22 28
  | 3 => perLevel 15 26 18 22
  | 4 => perLevel 20 18 26 16
  | 5 => perLevel 26 24 18 22
  | 6 => perLevel 18 16 24 28
  | 7 => perLevel 20 18 18 26
  | 8 => perLevel 24 22 22 26
  | 9 => perLevel 30 22 20 24
  | 10 => perLevel 18 26 24 28
  | _ => perLevel 0 0 0 0

/-- `cap(v, e)`, the data capacity in bits (43_capacity.md R201, 45_qr_codewords.md R260). -/
def dataCapacityBits (v : Nat) (e : Ecc) : Nat := 8 * dataCodewords v e

/-- `totalRawDataModules(v)` (43_capacity.md R202). -/
def totalRawDataModules (v : Nat) : Nat :=
  let r := (16 * v + 128) * v + 64
  if 2 ≤ v then
    let k := v / 7 + 2
    let r := r - ((25 * k - 10) * k - 55)
    if 7 ≤ v then r - 36 else r
  else r

/-- `rawCodewords(v)` (43_capacity.md R202). -/
def rawCodewords (v : Nat) : Nat := totalRawDataModules v / 8

/-- `alignmentPositions(v)` (43_capacity.md R203). -/
def alignmentPositions (v : Nat) : List Nat :=
  match v with
  | 2 => [6, 18]
  | 3 => [6, 22]
  | 4 => [6, 26]
  | 5 => [6, 30]
  | 6 => [6, 34]
  | 7 => [6, 22, 38]
  | 8 => [6, 24, 42]
  | 9 => [6, 26, 46]
  | 10 => [6, 28, 50]
  | _ => []

/-- `size(v)` (43_capacity.md R205). -/
def gridSize (v : Nat) : Nat := 4 * v + 17

/-- The result of the block split (43_capacity.md R209). -/
structure BlockSplit where
  raw       : Nat
  shortLen  : Nat
  nShort    : Nat
  shortData : Nat
  nLong     : Nat
  deriving DecidableEq, Repr

/-- `blockSplit(v, e)` (43_capacity.md R209). -/
def blockSplit (v : Nat) (e : Ecc) : BlockSplit :=
  let nb := numBlocks v e
  let raw := rawCodewords v
  let shortLen := raw / nb
  let nShort := nb - raw % nb
  { raw := raw, shortLen := shortLen, nShort := nShort, shortData := shortLen - eccPerBlock v e, nLong := nb - nShort }

/-- `dataLen(b)`, the data codewords of block `b` (43_capacity.md R209). -/
def BlockSplit.dataLen (b : BlockSplit) (k : Nat) : Nat := b.shortData + (if k < b.nShort then 0 else 1)

/-- The versions the table commands accept (43_capacity.md R206). -/
def tableVersion (v : Nat) : Bool := decide (1 ≤ v) && decide (v ≤ 10)

/-- CAP_LOOKUP (43_capacity.md R206). -/
def execCapLookup (v : Nat) (e : Ecc) (s : State) : Host.Outcome State Fault Refusal :=
  if tableVersion v = false then s.raise .range
  else
    { s with res :=
        { r0 := word (dataCodewords v e), r1 := word (numBlocks v e), r2 := word (eccPerBlock v e),
          r3 := word (totalRawDataModules v), r4 := word (gridSize v) } }.succeed

/-- Up to three positions packed into bytes, the first in bits [7:0] (43_capacity.md R207). -/
def packPositions (p : List Nat) : Nat := p.getD 0 0 ||| p.getD 1 0 <<< 8 ||| p.getD 2 0 <<< 16

/-- ALIGN_POS (43_capacity.md R207). -/
def execAlignPos (v : Nat) (s : State) : Host.Outcome State Fault Refusal :=
  if tableVersion v = false then s.raise .range
  else
    let p := alignmentPositions v
    { s with res := { s.res with r0 := word p.length, r1 := word (packPositions p) } }.succeed

/-- BLOCK_INFO (43_capacity.md R208). -/
def execBlockInfo (v : Nat) (e : Ecc) (s : State) : Host.Outcome State Fault Refusal :=
  if tableVersion v = false then s.raise .range
  else
    let b := blockSplit v e
    { s with res :=
        { r0 := word b.raw, r1 := word b.shortLen, r2 := word b.nShort, r3 := word b.shortData,
          r4 := word b.nLong } }.succeed

end Sys2Proof.Machine
end

