-- ==== Sys2Proof/Machine/GfRs.lean ====
section
/-! DEFINITION. The GF(256) unit and the Reed–Solomon encoder (spec/42_gf_rs.md). -/

namespace Sys2Proof.Machine

/-- One doubling with reduction by 0x11D (42_gf_rs.md R170). -/
def gfDouble (x : Byte) : Byte :=
  let t := 2 * x.toNat
  if 0x100 ≤ t then byte (t ^^^ 0x11D) else byte t

/-- `EXP[i] = α^i` by repeated doubling (42_gf_rs.md R170); the table proper is indices 0 to 254. -/
def gfExp (i : Nat) : Byte :=
  match i with
  | 0 => 0x01
  | i + 1 => gfDouble (gfExp i)

/-- The first index from `i` on whose power is `x`, where `p = EXP[i]`, among the next `fuel` indices. -/
def gfLogFrom (x p : Byte) (i fuel : Nat) : Nat :=
  match fuel with
  | 0 => 0
  | fuel + 1 => if p = x then i else gfLogFrom x (gfDouble p) (i + 1) fuel

/-- `LOG[x]`, the inverse of EXP on the nonzero elements (42_gf_rs.md R171); no rule reads `LOG[0]`. -/
def gfLog (x : Byte) : Nat := gfLogFrom x 0x01 0 255

/-- `gfMul(x, y)` (42_gf_rs.md R172). -/
def gfMul (x y : Byte) : Byte :=
  if x = 0 ∨ y = 0 then 0 else gfExp ((gfLog x + gfLog y) % 255)

/-- GF_MUL (42_gf_rs.md R173). -/
def execGfMul (x y : Byte) (s : State) : Host.Outcome State Fault Refusal :=
  { s with res := { s.res with r0 := word (gfMul x y).toNat } }.succeed

/-- GF_EXP (42_gf_rs.md R174). -/
def execGfExp (i : Nat) (s : State) : Host.Outcome State Fault Refusal :=
  { s with res := { s.res with r0 := word (gfExp (i % 255)).toNat } }.succeed

/-- GF_LOG (42_gf_rs.md R175). -/
def execGfLog (x : Byte) (s : State) : Host.Outcome State Fault Refusal :=
  if x = 0 then s.raise .domain
  else { s with res := { s.res with r0 := word (gfLog x) } }.succeed

/-- Coefficientwise addition. -/
def gfAddAll (p q : List Byte) : List Byte := List.zipWith (· ^^^ ·) p q

/-- A polynomial times `(x − r)`: `g * x + g * r` (42_gf_rs.md R176). -/
def mulRoot (g : List Byte) (r : Byte) : List Byte :=
  gfAddAll (g ++ [0]) (0 :: g.map (fun c => gfMul c r))

/-- `rsGen(d)`, highest coefficient first (42_gf_rs.md R176). -/
def rsGen (d : Nat) : List Byte := (List.range d).foldl (fun g i => mulRoot g (gfExp i)) [0x01]

/-- One step of the division: the running remainder shifted, plus the factor times the generator without its leading
coefficient (42_gf_rs.md R178). -/
def rsStep (g : List Byte) (rem : List Byte) (d : Byte) : List Byte :=
  let factor := d ^^^ rem.headD 0
  gfAddAll (rem.tail ++ [0]) (g.tail.map (fun c => gfMul c factor))

/-- `rsEcc(data, e)` (42_gf_rs.md R178). -/
def rsEcc (data : List Byte) (e : Nat) : List Byte :=
  let g := rsGen e
  data.foldl (rsStep g) (List.replicate e 0)

/-- RS_GEN (42_gf_rs.md R177). -/
def execRsGen (d : Nat) (s : State) : Host.Outcome State Fault Refusal :=
  let o := s.arg.a2.toNat
  if workSize < o ∨ workSize < o + d + 1 then s.raise .range
  else
    let t := s.lmStore (workBase + o) (rsGen d)
    { t with res := { t.res with r0 := word (d + 1) } }.succeed

/-- RS_ECC (42_gf_rs.md R179): all data bytes are read before any ECC byte is written. -/
def execRsEcc (e : Nat) (s : State) : Host.Outcome State Fault Refusal :=
  let src := s.arg.a0.toNat
  let n := s.arg.a1.toNat
  let o := s.arg.a2.toNat
  if workSize < src ∨ workSize < n ∨ workSize < src + n then s.raise .range
  else if workSize < o ∨ workSize < o + e then s.raise .range
  else
    let t := s.lmStore (workBase + o) (rsEcc (s.workBytes src n) e)
    { t with res := { t.res with r0 := word e } }.succeed

end Sys2Proof.Machine
end

