-- ==== Sys2Proof/Machine/Segment.lean ====
section
/-! DEFINITION. The byte-segment builder (spec/44_segment.md). -/

namespace Sys2Proof.Machine

/-- `ccBits(v)`, the width of the character-count field (44_segment.md R231). -/
def ccBits (v : Nat) : Nat := if v ≤ 9 then 8 else 16

/-- `totalBits(n, v)`; none is the source's null (44_segment.md R233). -/
def totalBits (n v : Nat) : Option Nat :=
  let c := ccBits v
  if 2 ^ c - 1 < n then none else some (4 + c + 8 * n)

/-- The versions the segment commands accept (44_segment.md R232, R234, R237). -/
def segmentVersion (v : Nat) : Bool := decide (1 ≤ v) && decide (v ≤ 40)

/-- CC_BITS (44_segment.md R232). -/
def execCcBits (v : Nat) (s : State) : Host.Outcome State Fault Refusal :=
  if segmentVersion v = false then s.raise .range
  else { s with res := { s.res with r0 := word (ccBits v) } }.succeed

/-- TOTAL_BITS (44_segment.md R234). -/
def execTotalBits (v : Nat) (s : State) : Host.Outcome State Fault Refusal :=
  if segmentVersion v = false then s.raise .range
  else if inCapacity < s.inLen.toNat then s.raise .range
  else
    match totalBits s.inLen.toNat v with
    | none => { s with res := { s.res with r0 := 0, r1 := 1 } }.succeed
    | some t => { s with res := { s.res with r0 := word t, r1 := 0 } }.succeed

/-- `utf8(u)`, the 1, 2 or 3 bytes of a 16-bit code unit (44_segment.md R235). -/
def utf8 (u : Nat) : List Byte :=
  if u < 0x80 then [byte u]
  else if u < 0x800 then [byte (0xC0 ||| u >>> 6), byte (0x80 ||| u &&& 0x3F)]
  else [byte (0xE0 ||| u >>> 12), byte (0x80 ||| u >>> 6 &&& 0x3F), byte (0x80 ||| u &&& 0x3F)]

/-- UTF8_PUT (44_segment.md R236). -/
def execUtf8Put (u : Half) (s : State) : Host.Outcome State Fault Refusal :=
  let n := s.inLen.toNat
  let b := utf8 u.toNat
  if inCapacity < n then s.raise .range
  else if inCapacity < n + b.length then s.raise .inFull
  else
    let t := s.lmStore (inBase + n) b
    { t with inLen := BitVec.ofNat 10 (n + b.length), res := { t.res with r0 := word b.length } }.succeed

/-- The bits of the byte segment of `data` for version `v`: mode 4, character count, data (44_segment.md R230). -/
def segmentBits (v : Nat) (data : List Byte) : List Bool :=
  bitsOf 4 4 ++ bitsOf (ccBits v) data.length ++ data.flatMap (fun b => bitsOf 8 b.toNat)

/-- SEG_WRITE (44_segment.md R237). -/
def execSegWrite (v : Nat) (s : State) : Host.Outcome State Fault Refusal :=
  let n := s.inLen.toNat
  let c := ccBits v
  if segmentVersion v = false then s.raise .range
  else if inCapacity < n then s.raise .range
  else if 2 ^ c - 1 < n then s.raise .ccOverflow
  else if baCapacity < s.baLen.toNat + 4 + c + 8 * n then s.raise .baFull
  else
    let t := s.appendBits (segmentBits v s.inBytes)
    { t with res := { t.res with r0 := word (4 + c + 8 * n) } }.succeed

end Sys2Proof.Machine
end

