-- ==== Sys2Proof/Machine/Codewords.lean ====
section
/-! DEFINITION. QR version selection, codeword assembly and interleaving (spec/45_qr_codewords.md). -/

namespace Sys2Proof.Machine

/-- A payload of `n` bytes fits version `v` at level `e`; a null total never fits (45_qr_codewords.md R260). -/
def fits (n v : Nat) (e : Ecc) : Bool :=
  match totalBits n v with
  | none => false
  | some t => decide (t ≤ dataCapacityBits v e)

/-- The first of the `count` versions from `v` on that fits. -/
def selectFrom (n : Nat) (e : Ecc) (v count : Nat) : Option Nat :=
  match count with
  | 0 => none
  | count + 1 => if fits n v e then some v else selectFrom n e (v + 1) count

/-- `selectVersion(n, e)`: the first fitting version from 1 to `P_MAX_VERSION` (45_qr_codewords.md R261). -/
def selectVersion (maxVersion n : Nat) (e : Ecc) : Option Nat := selectFrom n e 1 maxVersion

/-- QR_SELECT (45_qr_codewords.md R261). -/
def execQrSelect (e : Ecc) (s : State) : Host.Outcome State Fault Refusal :=
  let n := s.inLen.toNat
  if inCapacity < n then s.raise .range
  else
    match selectVersion s.params.maxVersion n e with
    | none => s.raise .payloadTooLarge
    | some v =>
      { s with res :=
          { s.res with r0 := word v, r1 := word ((totalBits n v).getD 0), r2 := word (dataCapacityBits v e) } }.succeed

/-- The alternating pad bytes 0xEC, 0x11, ... (45_qr_codewords.md R263). -/
def padBytes (n : Nat) : List Byte := (List.range n).map (fun k => if k % 2 = 0 then 0xEC else 0x11)

/-- How many pad bytes the loop `while BA_LEN < capBits` appends from length `k` on (45_qr_codewords.md R263). -/
def padCount (capBits k : Nat) : Nat := (capBits - k + 7) / 8

/-- `assemble(v, e)` and its count of pad bytes (45_qr_codewords.md R263). -/
def State.assemble (s : State) (v : Nat) (e : Ecc) : State × Nat :=
  let capBits := dataCapacityBits v e
  let data := s.inBytes
  let s := s.clearBits.appendBits (segmentBits v data)
  let s := s.append 0 (min 4 (capBits - s.baLen.toNat))
  let s := s.append 0 (padLength s.baLen.toNat)
  let nPad := padCount capBits s.baLen.toNat
  ((padBytes nPad).foldl (fun s p => s.append p.toNat 8) s, nPad)

/-- QR_ASSEMBLE (45_qr_codewords.md R265). -/
def execQrAssemble (v : Nat) (e : Ecc) (s : State) : Host.Outcome State Fault Refusal :=
  if tableVersion v = false ∨ inCapacity < s.inLen.toNat then s.raise .range
  else
    match totalBits s.inLen.toNat v with
    | none => s.raise .ccOverflow
    | some t =>
      if dataCapacityBits v e < t then s.raise .payloadTooLarge
      else
        let r := s.assemble v e
        { r.1 with res := { r.1.res with r0 := word (dataCodewords v e), r1 := word r.2 } }.succeed

/-- The data codewords cut into blocks, in order (45_qr_codewords.md R266). -/
def splitBlocks (data : List Byte) (lens : List Nat) : List (List Byte) :=
  match lens with
  | [] => []
  | n :: lens => data.take n :: splitBlocks (data.drop n) lens

/-- The data blocks `D[0 .. nb − 1]` (45_qr_codewords.md R266). -/
def dataBlocks (v : Nat) (e : Ecc) (data : List Byte) : List (List Byte) :=
  splitBlocks data ((List.range (numBlocks v e)).map (blockSplit v e).dataLen)

/-- The columns `0 .. n − 1` of some blocks, each column in block order, exhausted blocks skipped
(45_qr_codewords.md R267). -/
def columns (n : Nat) (blocks : List (List Byte)) : List Byte :=
  (List.range n).flatMap (fun i => blocks.filterMap (fun b => b[i]?))

/-- `interleave(makeBlocks(v, e))`: the data columns, then the ECC columns (45_qr_codewords.md R266, R267). -/
def interleave (v : Nat) (e : Ecc) (data : List Byte) : List Byte :=
  let b := blockSplit v e
  let d := dataBlocks v e data
  let ec := eccPerBlock v e
  columns (b.shortData + (if 0 < b.nLong then 1 else 0)) d ++ columns ec (d.map (fun blk => rsEcc blk ec))

/-- The interleaved stream of the data codewords in BITS, stored to CW with its length (45_qr_codewords.md R268). -/
def State.interleaveToCw (s : State) (v : Nat) (e : Ecc) : State × Nat :=
  let stream := interleave v e (s.bitsBytes (dataCodewords v e))
  ({ s.lmStore cwBase stream with cwLen := BitVec.ofNat 10 stream.length }, stream.length)

/-- QR_INTERLEAVE (45_qr_codewords.md R268). -/
def execQrInterleave (v : Nat) (e : Ecc) (s : State) : Host.Outcome State Fault Refusal :=
  if tableVersion v = false then s.raise .range
  else
    let r := s.interleaveToCw v e
    { r.1 with res := { r.1.res with r0 := word r.2 } }.succeed

end Sys2Proof.Machine
end

