-- ==== Sys2Proof/Machine/Matrix.lean ====
section
/-! DEFINITION. The QR matrix constructor, the masks, and the BCH format and version information
(spec/46_qr_matrix.md). -/

namespace Sys2Proof.Machine

/-! ## Format and version words -/

/-- `fmtEcc(e)`, the two-bit indicator of the format information (46_qr_matrix.md R320). -/
def fmtEcc : Ecc → Nat
  | .low => 1
  | .medium => 0
  | .quartile => 3
  | .high => 2

/-- `fmtData(e, m)` (46_qr_matrix.md R318). -/
def fmtData (e : Ecc) (m : Nat) : Nat := (fmtEcc e <<< 3 ||| m) &&& 0x1F

/-- `n` steps of a remainder over GF(2): shift, and subtract the generator where bit `top` left
(46_qr_matrix.md R319, R326). -/
def bchSteps (n top gen r : Nat) : Nat :=
  match n with
  | 0 => r
  | n + 1 => bchSteps n top gen (r <<< 1 ^^^ (r >>> top &&& 1) * gen)

/-- `fmtRem(d)` (46_qr_matrix.md R319). -/
def fmtRem (d : Nat) : Nat := bchSteps 10 9 0x537 d &&& 0x3FF

/-- `fmtWord(e, m)` (46_qr_matrix.md R319). -/
def fmtWord (e : Ecc) (m : Nat) : Nat :=
  let d := fmtData e m
  (d <<< 10 ||| fmtRem d) ^^^ 0x5412

/-- `verRem(v)` (46_qr_matrix.md R326). -/
def verRem (v : Nat) : Nat := bchSteps 12 11 0x1F25 v &&& 0xFFF

/-- `verInfo(v)` (46_qr_matrix.md R326). -/
def verInfo (v : Nat) : Nat := v <<< 12 ||| verRem v

/-- `fmt1(i)`, the cell of format bit `i` around the top-left finder (46_qr_matrix.md R322). -/
def fmt1 (i : Nat) : Nat × Nat :=
  if i ≤ 5 then (8, i)
  else if i = 6 then (8, 7)
  else if i = 7 then (8, 8)
  else if i = 8 then (7, 8)
  else (14 - i, 8)

/-- `fmt2(i, n)`, the cell of format bit `i` beside the other finders (46_qr_matrix.md R323). -/
def fmt2 (i n : Nat) : Nat × Nat := if i ≤ 7 then (n - 1 - i, 8) else (8, n - 15 + i)

/-! ## The function plane -/

/-- The cells drawn so far, each with its colour, the latest first; every one is a function module
(46_qr_matrix.md R300). -/
abbrev Drawing := List ((Nat × Nat) × Bool)

/-- `FUNC(x, y)` of a drawing. -/
def Drawing.func (g : Drawing) (x y : Nat) : Bool := (g.lookup (x, y)).isSome

/-- `setFunc(x, y, d)` on a drawing (00_scope.md R20). -/
def Drawing.setFunc (g : Drawing) (x y : Nat) (d : Bool) : Drawing := ((x, y), d) :: g

/-- `cheb` of an offset given by two coordinates and a centre (spec/46_qr_matrix.md, introduction). -/
def cheb (x y cx cy : Nat) : Nat := max (x - cx + (cx - x)) (y - cy + (cy - y))

/-- The points at Chebyshev distance up to `r` from a centre that lie on the grid, row by row
(46_qr_matrix.md R303, R306). -/
def squareAround (cx cy r n : Nat) : List (Nat × Nat) :=
  (List.range (2 * r + 1)).flatMap (fun dy =>
    (List.range (2 * r + 1)).filterMap (fun dx =>
      let x := cx + dx
      let y := cy + dy
      if r ≤ x ∧ x - r < n ∧ r ≤ y ∧ y - r < n then some (x - r, y - r) else none))

/-- One finder with its separator (46_qr_matrix.md R303). -/
def drawFinder (n cx cy : Nat) (g : Drawing) : Drawing :=
  (squareAround cx cy 4 n).foldl
    (fun g p => g.setFunc p.1 p.2 (cheb p.1 p.2 cx cy != 2 && cheb p.1 p.2 cx cy != 4)) g

/-- `drawFinders(n)` (46_qr_matrix.md R303). -/
def drawFinders (n : Nat) (g : Drawing) : Drawing :=
  drawFinder n 3 (n - 4) (drawFinder n (n - 4) 3 (drawFinder n 3 3 g))

/-- A timing module, unless the cell is a function module already (46_qr_matrix.md R304). -/
def drawTimingCell (g : Drawing) (x y i : Nat) : Drawing :=
  if g.func x y then g else g.setFunc x y (i % 2 == 0)

/-- `drawTiming(n)` (46_qr_matrix.md R304). -/
def drawTiming (n : Nat) (g : Drawing) : Drawing :=
  (List.range n).foldl (fun g i => drawTimingCell (drawTimingCell g i 6 i) 6 i i) g

/-- The alignment-pattern centres (46_qr_matrix.md R305). -/
def alignmentCentres (v : Nat) : List (Nat × Nat) :=
  let p := alignmentPositions v
  let k := p.length
  (List.range k).flatMap (fun i =>
    ((List.range k).filter (fun j =>
      !((i == 0 && j == 0) || (i == 0 && j == k - 1) || (i == k - 1 && j == 0)))).map
        (fun j => (p.getD i 0, p.getD j 0)))

/-- One alignment pattern (46_qr_matrix.md R306). -/
def drawAlignmentAt (n : Nat) (g : Drawing) (c : Nat × Nat) : Drawing :=
  (squareAround c.1 c.2 2 n).foldl (fun g p => g.setFunc p.1 p.2 (cheb p.1 p.2 c.1 c.2 != 1)) g

/-- `drawAlignment(v)` (46_qr_matrix.md R306). -/
def drawAlignment (v : Nat) (g : Drawing) : Drawing := (alignmentCentres v).foldl (drawAlignmentAt (gridSize v)) g

/-- The 30 format cells with their bit numbers, in drawing order (46_qr_matrix.md R309, R324). -/
def formatCells (n : Nat) : List ((Nat × Nat) × Nat) :=
  (List.range 15).flatMap (fun i => [(fmt1 i, i), (fmt2 i n, i)])

/-- The reserved format cells and the dark module (46_qr_matrix.md R307, R309). -/
def drawFormatArea (n : Nat) (g : Drawing) : Drawing :=
  ((formatCells n).foldl (fun g c => g.setFunc c.1.1 c.1.2 false) g).setFunc 8 (n - 8) true

/-- `drawVersion(v, n)` (46_qr_matrix.md R308). -/
def drawVersion (v n : Nat) (g : Drawing) : Drawing :=
  if 7 ≤ v then
    (List.range 18).foldl (fun g i =>
      let b := (verInfo v).testBit i
      let a := n - 11 + i % 3
      let c := i / 3
      (g.setFunc a c b).setFunc c a b) g
  else g

/-- The function plane of a version: every pattern in the order of QR_FUNC (46_qr_matrix.md R309). -/
def functionPlane (v : Nat) : Drawing :=
  let n := gridSize v
  drawVersion v n (drawFormatArea n (drawAlignment v (drawTiming n (drawFinders n []))))

/-- The 4096 bytes of GRID with a drawing on an otherwise light, non-function grid (46_qr_matrix.md R309). -/
def Drawing.gridBytes (g : Drawing) : List Byte :=
  (List.range 4096).map (fun a =>
    match g.lookup (a % 64, a / 64) with
    | some d => funcCell d
    | none => 0)

/-- The body of QR_FUNC: GRID and QR_INFO (46_qr_matrix.md R309). -/
def State.drawFunctions (s : State) (v : Nat) (e : Ecc) : State :=
  { s.lmStore gridBase (functionPlane v).gridBytes with qrInfo := QrInfo.drawn v (gridSize v) e }

/-- The number of cells of the symbol with FUNC = 0 (46_qr_matrix.md R309). -/
def State.countDataCells (s : State) (n : Nat) : Nat :=
  ((List.range n).map (fun y => (List.range n).countP (fun x => !s.func x y))).sum

/-- QR_FUNC (46_qr_matrix.md R309). -/
def execQrFunc (v : Nat) (e : Ecc) (s : State) : Host.Outcome State Fault Refusal :=
  if tableVersion v = false then s.raise .range
  else
    let t := s.drawFunctions v e
    { t with res := { t.res with r0 := word (t.countDataCells (gridSize v)) } }.succeed

/-! ## Masks -/

/-- `maskFn(m, x, y)`: invert the data bit at column `x`, row `y` (46_qr_matrix.md R315). -/
def maskFn (m x y : Nat) : Bool :=
  match m with
  | 0 => (x + y) % 2 == 0
  | 1 => y % 2 == 0
  | 2 => x % 3 == 0
  | 3 => (x + y) % 3 == 0
  | 4 => (x / 3 + y / 2) % 2 == 0
  | 5 => x * y % 2 + x * y % 3 == 0
  | 6 => (x * y % 2 + x * y % 3) % 2 == 0
  | 7 => ((x + y) % 2 + x * y % 3) % 2 == 0
  | _ => false

/-- MASK_EVAL (46_qr_matrix.md R317). -/
def execMaskEval (m x y : Nat) (s : State) : Host.Outcome State Fault Refusal :=
  if 7 < m then s.raise .range
  else { s with res := { s.res with r0 := word (maskFn m x y).toNat } }.succeed

/-! ## Placement -/

/-- The cells of the strip whose right column is `right` (46_qr_matrix.md R310). -/
def stripCells (n right : Nat) : List (Nat × Nat) :=
  let upward := (right + 1) &&& 2 == 0
  (List.range n).flatMap (fun vert =>
    let y := if upward then n - 1 - vert else vert
    [(right, y), (right - 1, y)])

/-- The strips from column `right` leftward, column 6 skipped (46_qr_matrix.md R310); at most `fuel` strips. -/
def stripsFrom (n right fuel : Nat) : List (Nat × Nat) :=
  match fuel with
  | 0 => []
  | fuel + 1 =>
    if 1 ≤ right then
      let right := if right = 6 then 5 else right
      stripCells n right ++ stripsFrom n (right - 2) fuel
    else []

/-- `cellOrder(n)` (46_qr_matrix.md R310). -/
def cellOrder (n : Nat) : List (Nat × Nat) := stripsFrom n (n - 1) n

/-- The data cells in placement order, each with the bit it shows: the stream bit, or 0 once the stream is used up,
inverted where the mask says (46_qr_matrix.md R312). -/
def maskedCells (m : Nat) (stream : List Bool) (cells : List (Nat × Nat)) : List ((Nat × Nat) × Bool) :=
  match cells with
  | [] => []
  | (x, y) :: cells => ((x, y), stream.headD false ^^ maskFn m x y) :: maskedCells m stream.tail cells

/-- The cells of the symbol that are no function modules, in placement order (46_qr_matrix.md R312). -/
def State.dataCells (s : State) (n : Nat) : List (Nat × Nat) := (cellOrder n).filter (fun p => !s.func p.1 p.2)

/-- `place(m, n)`: GRID with the masked stream in the data cells (46_qr_matrix.md R312). -/
def State.place (s : State) (m n : Nat) : State :=
  (maskedCells m s.streamBits (s.dataCells n)).foldl (fun t c => t.setData c.1.1 c.1.2 c.2) s

/-- The stream bits `place` uses (46_qr_matrix.md R312). -/
def State.placedBits (s : State) (n : Nat) : Nat := min (s.dataCells n).length s.streamBits.length

/-- The remainder cells `place` fills: `spare` (46_qr_matrix.md R312). -/
def State.spareCells (s : State) (n : Nat) : Nat := (s.dataCells n).length - s.streamBits.length

/-- The stream bits `place` has no cell for: they are ignored (46_qr_matrix.md R312, 92_eei_decisions.md D46). -/
def State.unplacedBits (s : State) (n : Nat) : Nat := s.streamBits.length - (s.dataCells n).length

/-- What QR_PLACE counts in RES1: the remainder cells (46_qr_matrix.md R314), or, for a stream longer than the data cells,
which leaves no remainder cell, the ignored bits (92_eei_decisions.md D46, 93_implementation_defined.md part 1). One of the
two counts is always 0. DESIGN CHOICE (log entry 16): the pseudocode of R314 has the remainder cells alone. -/
def State.placeRest (s : State) (n : Nat) : Nat := s.spareCells n + s.unplacedBits n

/-- QR_PLACE (46_qr_matrix.md R314); stream bits past the last data cell are no error (60_exceptions.md R416) and are counted
in RES1 (`State.placeRest`, log entry 16). -/
def execQrPlace (m : Nat) (s : State) : Host.Outcome State Fault Refusal :=
  if s.qrInfo.funcValid = false then s.raise .seq
  else
    let n := s.qrInfo.size.toNat
    let t := s.place m n
    { t with
      qrInfo := t.qrInfo.placed m
      res := { t.res with r0 := word (s.placedBits n), r1 := word (s.placeRest n) } }.succeed

/-! ## Format and version commands -/

/-- FMT_BCH (46_qr_matrix.md R321). -/
def execFmtBch (e : Ecc) (m : Nat) (s : State) : Host.Outcome State Fault Refusal :=
  let d := fmtData e m
  { s with res := { s.res with r0 := word (fmtWord e m), r1 := word d, r2 := word (fmtRem d) } }.succeed

/-- The format cells written with the bits of `w` (46_qr_matrix.md R324). -/
def State.writeFormat (s : State) (n w : Nat) : State :=
  (formatCells n).foldl (fun t c => t.setFunc c.1.1 c.1.2 (w.testBit c.2)) s

/-- QR_FORMAT (46_qr_matrix.md R324). -/
def execQrFormat (m : Nat) (s : State) : Host.Outcome State Fault Refusal :=
  if s.qrInfo.funcValid = false then s.raise .seq
  else
    let w := fmtWord s.qrInfo.ecc m
    let t := s.writeFormat s.qrInfo.size.toNat w
    { t with res := { t.res with r0 := word w } }.succeed

/-- VER_BCH (46_qr_matrix.md R327). -/
def execVerBch (v : Nat) (s : State) : Host.Outcome State Fault Refusal :=
  { s with res := { s.res with r0 := word (verInfo v), r1 := word (verRem v) } }.succeed

end Sys2Proof.Machine
end

