-- ==== Sys2Proof/Machine/Penalty.lean ====
section
/-! DEFINITION. The mask-penalty evaluator and the full QR encode (spec/47_qr_penalty.md). -/

namespace Sys2Proof.Machine

/-! ## The four rules -/

/-- The cost of one maximal run (47_qr_penalty.md R350). -/
def runCost (len : Nat) : Nat := if 5 ≤ len then 3 + (len - 5) else 0

/-- The run costs of a line from a run of `run` modules of colour `b` on (47_qr_penalty.md R350). -/
def runCosts (b : Bool) (run : Nat) (line : List Bool) : Nat :=
  match line with
  | [] => runCost run
  | c :: line => if c = b then runCosts b (run + 1) line else runCost run + runCosts c 1 line

/-- The run costs of a line (47_qr_penalty.md R350). -/
def lineRunCost (line : List Bool) : Nat :=
  match line with
  | [] => 0
  | b :: line => runCosts b 1 line

/-- `penaltyN1`, over the lines of a symbol (47_qr_penalty.md R350). -/
def penaltyN1 (lines : List (List Bool)) : Nat := (lines.map lineRunCost).sum

/-- `penaltyN2`, over the colours of a symbol of size `n` (47_qr_penalty.md R351). -/
def penaltyN2 (dark : Nat → Nat → Bool) (n : Nat) : Nat :=
  3 * ((List.range (n - 1)).map (fun y =>
    (List.range (n - 1)).countP (fun x =>
      dark x y == dark (x + 1) y && dark x y == dark x (y + 1) && dark x y == dark (x + 1) (y + 1)))).sum

/-- The finder look-alike P1 = 1 0 1 1 1 0 1 0 0 0 0 (47_qr_penalty.md R352). -/
def lookAlike1 : List Bool := [true, false, true, true, true, false, true, false, false, false, false]

/-- The finder look-alike P2 = 0 0 0 0 1 0 1 1 1 0 1 (47_qr_penalty.md R352). -/
def lookAlike2 : List Bool := [false, false, false, false, true, false, true, true, true, false, true]

/-- The windows of a line, at every start, that equal a look-alike (47_qr_penalty.md R352). -/
def lineLookAlikes (line : List Bool) : Nat :=
  (List.range (line.length - 10)).countP (fun st =>
    (line.drop st).take 11 == lookAlike1 || (line.drop st).take 11 == lookAlike2)

/-- `penaltyN3`, over the lines of a symbol (47_qr_penalty.md R352). -/
def penaltyN3 (lines : List (List Bool)) : Nat := 40 * (lines.map lineLookAlikes).sum

/-- `penaltyN4` of `dark` dark modules among `total` (47_qr_penalty.md R353). -/
def penaltyN4 (dark total : Nat) : Nat := 10 * ((20 * dark - 10 * total + (10 * total - 20 * dark)) / total)

/-- Row `y` of a symbol of size `n` (spec/47_qr_penalty.md, introduction). -/
def State.row (s : State) (n y : Nat) : List Bool := (List.range n).map (fun x => s.dark x y)

/-- Column `x` of a symbol of size `n` (spec/47_qr_penalty.md, introduction). -/
def State.column (s : State) (n x : Nat) : List Bool := (List.range n).map (fun y => s.dark x y)

/-- The 2n lines of a symbol: its rows and its columns (spec/47_qr_penalty.md, introduction). -/
def State.lines (s : State) (n : Nat) : List (List Bool) := (List.range n).map (s.row n) ++ (List.range n).map (s.column n)

/-- The number of dark modules of a symbol (47_qr_penalty.md R353). -/
def State.darkCount (s : State) (n : Nat) : Nat :=
  ((List.range n).map (fun y => (List.range n).countP (fun x => s.dark x y))).sum

/-- The four penalties of the symbol of size `n` in GRID (47_qr_penalty.md R350 to R353). -/
structure Penalties where
  n1 : Nat
  n2 : Nat
  n3 : Nat
  n4 : Nat
  deriving DecidableEq, Repr

/-- `penalty(n)` (47_qr_penalty.md R354). -/
def Penalties.total (p : Penalties) : Nat := p.n1 + p.n2 + p.n3 + p.n4

/-- The penalties of GRID as it is (47_qr_penalty.md R356). -/
def State.penalties (s : State) (n : Nat) : Penalties where
  n1 := penaltyN1 (s.lines n)
  n2 := penaltyN2 s.dark n
  n3 := penaltyN3 (s.lines n)
  n4 := penaltyN4 (s.darkCount n) (n * n)

/-- QR_PENALTY (47_qr_penalty.md R356). -/
def execQrPenalty (s : State) : Host.Outcome State Fault Refusal :=
  if s.qrInfo.funcValid = false then s.raise .seq
  else
    let p := s.penalties s.qrInfo.size.toNat
    { s with res := { r0 := word p.n1, r1 := word p.n2, r2 := word p.n3, r3 := word p.n4, r4 := word p.total } }.succeed

/-! ## Mask selection and the full encoder -/

/-- PENm (10_state.md R47). -/
def PenRegs.get (p : PenRegs) (m : Nat) : Word :=
  match m with
  | 0 => p.p0
  | 1 => p.p1
  | 2 => p.p2
  | 3 => p.p3
  | 4 => p.p4
  | 5 => p.p5
  | 6 => p.p6
  | 7 => p.p7
  | _ => 0

/-- The eight registers of a list of penalties (10_state.md R47). -/
def PenRegs.ofList (l : List Word) : PenRegs :=
  ⟨l.getD 0 0, l.getD 1 0, l.getD 2 0, l.getD 3 0, l.getD 4 0, l.getD 5 0, l.getD 6 0, l.getD 7 0⟩

/-- The chosen mask: the first whose penalty is lowest (47_qr_penalty.md R357). -/
def chooseMask (p : PenRegs) : Nat :=
  (List.range 8).foldl (fun best m => if (p.get m).toNat < (p.get best).toNat then m else best) 0

/-- The complete symbol of candidate `m`: data placed with it and its own format bits (47_qr_penalty.md R355). -/
def State.candidate (s : State) (e : Ecc) (n m : Nat) : State := (s.place m n).writeFormat n (fmtWord e m)

/-- The candidates tried in order from a state on: the state they leave and their total penalties, in order
(47_qr_penalty.md R358, steps 7 and 8). -/
def State.tryMasks (s : State) (e : Ecc) (n : Nat) (masks : List Nat) : State × List Word :=
  match masks with
  | [] => (s, [])
  | m :: masks =>
    let t := s.candidate e n m
    let r := t.tryMasks e n masks
    (r.1, word (t.penalties n).total :: r.2)

/-- Steps 2 to 9 of QR_ENCODE for a chosen version `v` (47_qr_penalty.md R358). -/
def State.encodeVersion (s : State) (v : Nat) (e : Ecc) : State :=
  let n := gridSize v
  let drawn := ((s.assemble v e).1.interleaveToCw v e).1.drawFunctions v e
  let tried := drawn.tryMasks e n (List.range 8)
  let pen := PenRegs.ofList tried.2
  let best := chooseMask pen
  let t := tried.1.candidate e n best
  { t with
    pen := pen
    qrInfo := (QrInfo.drawn v n e).placed best
    res := { t.res with r0 := word v, r1 := word best, r2 := pen.get best, r3 := word n } }

/-- QR_ENCODE (47_qr_penalty.md R358). -/
def execQrEncode (e : Ecc) (s : State) : Host.Outcome State Fault Refusal :=
  let n := s.inLen.toNat
  if inCapacity < n then s.raise .range
  else
    match selectVersion s.params.maxVersion n e with
    | none => s.raise .payloadTooLarge
    | some v => (s.encodeVersion v e).succeed

end Sys2Proof.Machine
end

