-- ==== Sys2Proof/Machine/Registers.lean ====
section
/-! DEFINITION. The register window: the register map, host reads and writes of registers (spec/10_state.md), the acceptance
and dropping of command words, the two resets (spec/70_reset_and_hazards.md), and which command writes what
(10_state.md R56). -/

namespace Sys2Proof.Machine

/-- The registers of the register window (10_state.md R30). -/
inductive Reg where
  | id | cfg | ctrl | status | cmd | lastCmd
  | arg0 | arg1 | arg2
  | res0 | res1 | res2 | res3 | res4
  | inLen | chrLen | baLen | cwLen | qrInfo | barCount | barWidth | c128CwLen
  | pen0 | pen1 | pen2 | pen3 | pen4 | pen5 | pen6 | pen7
  deriving DecidableEq, Repr

/-- A register's offset (10_state.md R30). -/
def Reg.offset : Reg → Nat
  | .id => 0x000
  | .cfg => 0x004
  | .ctrl => 0x008
  | .status => 0x00C
  | .cmd => 0x010
  | .lastCmd => 0x014
  | .arg0 => 0x020
  | .arg1 => 0x024
  | .arg2 => 0x028
  | .res0 => 0x030
  | .res1 => 0x034
  | .res2 => 0x038
  | .res3 => 0x03C
  | .res4 => 0x040
  | .inLen => 0x050
  | .chrLen => 0x054
  | .baLen => 0x058
  | .cwLen => 0x05C
  | .qrInfo => 0x060
  | .barCount => 0x064
  | .barWidth => 0x068
  | .c128CwLen => 0x06C
  | .pen0 => 0x080
  | .pen1 => 0x084
  | .pen2 => 0x088
  | .pen3 => 0x08C
  | .pen4 => 0x090
  | .pen5 => 0x094
  | .pen6 => 0x098
  | .pen7 => 0x09C

/-- Every register, by rising offset (10_state.md R30). -/
def Reg.all : List Reg :=
  [.id, .cfg, .ctrl, .status, .cmd, .lastCmd, .arg0, .arg1, .arg2, .res0, .res1, .res2, .res3, .res4, .inLen, .chrLen,
   .baLen, .cwLen, .qrInfo, .barCount, .barWidth, .c128CwLen, .pen0, .pen1, .pen2, .pen3, .pen4, .pen5, .pen6, .pen7]

/-- The register at an offset; none at a reserved offset (10_state.md R30, R48). -/
def Reg.at? (off : Nat) : Option Reg := Reg.all.find? (fun r => r.offset == off)

/-- The value of ID (10_state.md R31). -/
def idWord : Word := 0x53454301

/-- The value of CFG (10_state.md R32). -/
def cfgWord (p : Params) : Word := word (p.maxVersion % 64 + 2 ^ 8 * p.stopTerm.toNat)

/-- What a host read of a register returns (10_state.md R31 to R47); CMD reads 0 (R35), SOFT_RESET reads 0 (R33). -/
def State.readReg (s : State) (r : Reg) : Word :=
  match r with
  | .id => idWord
  | .cfg => cfgWord s.params
  | .ctrl => word s.irqEn.toNat
  | .status => s.status.word
  | .cmd => 0
  | .lastCmd => s.lastCmd
  | .arg0 => s.arg.a0
  | .arg1 => s.arg.a1
  | .arg2 => s.arg.a2
  | .res0 => s.res.r0
  | .res1 => s.res.r1
  | .res2 => s.res.r2
  | .res3 => s.res.r3
  | .res4 => s.res.r4
  | .inLen => s.inLen.setWidth 32
  | .chrLen => s.chrLen.setWidth 32
  | .baLen => s.baLen.setWidth 32
  | .cwLen => s.cwLen.setWidth 32
  | .qrInfo => s.qrInfo.word
  | .barCount => s.barCount.setWidth 32
  | .barWidth => s.barWidth.setWidth 32
  | .c128CwLen => s.c128CwLen.setWidth 32
  | .pen0 => s.pen.p0
  | .pen1 => s.pen.p1
  | .pen2 => s.pen.p2
  | .pen3 => s.pen.p3
  | .pen4 => s.pen.p4
  | .pen5 => s.pen.p5
  | .pen6 => s.pen.p6
  | .pen7 => s.pen.p7

/-- A host read of an offset of the register window; a reserved offset reads 0 (10_state.md R48). -/
def State.regRead (s : State) (off : Nat) : Word :=
  match Reg.at? off with
  | some r => s.readReg r
  | none => 0

/-! ## What a command writes -/

/-- The LM regions a command writes (10_state.md R56). -/
def Instr.lmRegions : Instr → List Region
  | .nop => []
  | .baClear => [.bits]
  | .baAppend _ _ => [.bits]
  | .baPad => [.bits]
  | .gfMul _ _ => []
  | .gfExp _ => []
  | .gfLog _ => []
  | .rsGen _ => [.work]
  | .rsEcc _ => [.work]
  | .capLookup _ _ => []
  | .alignPos _ => []
  | .blockInfo _ _ => []
  | .ccBits _ => []
  | .totalBits _ => []
  | .utf8Put _ => [.inp]
  | .segWrite _ => [.bits]
  | .qrSelect _ => []
  | .qrAssemble _ _ => [.bits]
  | .qrInterleave _ _ => [.cw]
  | .qrFunc _ _ => [.grid]
  | .qrPlace _ => [.grid]
  | .qrFormat _ => [.grid]
  | .qrPenalty => []
  | .maskEval _ _ _ => []
  | .fmtBch _ _ => []
  | .verBch _ => []
  | .qrEncode _ => [.bits, .cw, .grid]
  | .c128Map _ => []
  | .c128Pattern _ => []
  | .c128Checksum => []
  | .c128Encode => [.bars, .c128Cw]

/-- The registers a command writes besides STATUS (10_state.md R56). -/
def Instr.regsWritten : Instr → List Reg
  | .nop => []
  | .baClear => [.baLen]
  | .baAppend _ _ => [.baLen]
  | .baPad => [.baLen]
  | .gfMul _ _ => [.res0]
  | .gfExp _ => [.res0]
  | .gfLog _ => [.res0]
  | .rsGen _ => [.res0]
  | .rsEcc _ => [.res0]
  | .capLookup _ _ => [.res0, .res1, .res2, .res3, .res4]
  | .alignPos _ => [.res0, .res1]
  | .blockInfo _ _ => [.res0, .res1, .res2, .res3, .res4]
  | .ccBits _ => [.res0]
  | .totalBits _ => [.res0, .res1]
  | .utf8Put _ => [.res0, .inLen]
  | .segWrite _ => [.res0, .baLen]
  | .qrSelect _ => [.res0, .res1, .res2]
  | .qrAssemble _ _ => [.res0, .res1, .baLen]
  | .qrInterleave _ _ => [.res0, .cwLen]
  | .qrFunc _ _ => [.res0, .qrInfo]
  | .qrPlace _ => [.res0, .res1, .qrInfo]
  | .qrFormat _ => [.res0]
  | .qrPenalty => [.res0, .res1, .res2, .res3, .res4]
  | .maskEval _ _ _ => [.res0]
  | .fmtBch _ _ => [.res0, .res1, .res2]
  | .verBch _ => [.res0, .res1]
  | .qrEncode _ =>
    [.res0, .res1, .res2, .res3, .baLen, .cwLen, .qrInfo, .pen0, .pen1, .pen2, .pen3, .pen4, .pen5, .pen6, .pen7]
  | .c128Map _ => [.res0, .res1]
  | .c128Pattern _ => [.res0, .res1, .res2]
  | .c128Checksum => [.res0, .res1]
  | .c128Encode => [.res0, .res1, .res2, .barCount, .barWidth, .c128CwLen]

/-! ## Acceptance, dropped writes, resets -/

/-- A command word is accepted: latched in LASTCMD, BUSY set (10_state.md R35), the latency drawn
(70_reset_and_hazards.md R466, log entry 2). -/
def State.accept (s : State) (w : Word) : State :=
  { s with lastCmd := w, status := s.status.accepted, wait := Config.latency s.draw, draw := s.draw + 1 }

/-- A host write is dropped (70_reset_and_hazards.md R462). -/
def State.dropWrite (s : State) : State := { s with status := s.status.dropped }

/-- The bytes that draw `d` gives a region (70_reset_and_hazards.md R452, log entry 8). -/
def Region.drawn (r : Region) (d : Nat) : List Byte := (List.range r.size).map (fun k => Config.freeByte d (r.base + k))

/-- The regions that the running command's rule could write; none for an illegal word (70_reset_and_hazards.md R452). -/
def State.runningRegions (s : State) : List Region :=
  match decode s.lastCmd with
  | .ok i => Instr.lmRegions i
  | .error _ => []

/-- LM after the running command is aborted: each region it could write is drawn anew
(70_reset_and_hazards.md R452 (c)). -/
def State.abortedLm (s : State) : List Host.Cell :=
  (s.runningRegions.foldl (fun t r => t.lmStore r.base (r.drawn s.draw)) s).lm

/-- The soft reset: a running command is aborted, every register takes its reset value, LM keeps its contents except
the regions of an aborted command (70_reset_and_hazards.md R452). -/
def State.softReset (s : State) : State :=
  { State.resetWith s.params with
    lm := if s.status.busy then s.abortedLm else s.lm
    lmEpoch := s.lmEpoch
    draw := if s.status.busy then s.draw + 1 else s.draw
    inputs := s.inputs
    rdata := s.rdata }

/-- The hardware reset: every register takes its reset value, every LM byte is drawn anew
(70_reset_and_hazards.md R451). -/
def State.hardReset (s : State) : State :=
  { State.resetWith s.params with
    lmEpoch := s.draw
    draw := s.draw + 1
    inputs := s.inputs
    rdata := s.rdata }

/-- A host write of CTRL, at once and also while busy (10_state.md R33, 70_reset_and_hazards.md R463). -/
def State.writeCtrl (s : State) (v : Word) : State :=
  if v.getLsbD 1 then s.softReset else { s with irqEn := v.getLsbD 0 }

/-- A host write of a register (10_state.md R31 to R47): while busy a write of CMD, ARG0 to ARG2, IN_LEN or CHR_LEN is
dropped (70_reset_and_hazards.md R462); a write of a read-only register is ignored. -/
def State.writeReg (s : State) (r : Reg) (v : Word) : State :=
  match r with
  | .ctrl => s.writeCtrl v
  | .status => { s with status := s.status.writeOneToClear v }
  | .cmd => if s.status.busy then s.dropWrite else s.accept v
  | .arg0 => if s.status.busy then s.dropWrite else { s with arg := { s.arg with a0 := v } }
  | .arg1 => if s.status.busy then s.dropWrite else { s with arg := { s.arg with a1 := v } }
  | .arg2 => if s.status.busy then s.dropWrite else { s with arg := { s.arg with a2 := v } }
  | .inLen => if s.status.busy then s.dropWrite else { s with inLen := v.setWidth 10 }
  | .chrLen => if s.status.busy then s.dropWrite else { s with chrLen := v.setWidth 9 }
  | .id => s
  | .cfg => s
  | .lastCmd => s
  | .res0 => s
  | .res1 => s
  | .res2 => s
  | .res3 => s
  | .res4 => s
  | .baLen => s
  | .cwLen => s
  | .qrInfo => s
  | .barCount => s
  | .barWidth => s
  | .c128CwLen => s
  | .pen0 => s
  | .pen1 => s
  | .pen2 => s
  | .pen3 => s
  | .pen4 => s
  | .pen5 => s
  | .pen6 => s
  | .pen7 => s

/-- A host write of an offset of the register window; at a reserved offset it is ignored (10_state.md R48). -/
def State.regWrite (s : State) (off : Nat) (v : Word) : State :=
  match Reg.at? off with
  | some r => s.writeReg r v
  | none => s

end Sys2Proof.Machine
end

