-- ==== Sys2Proof/Machine/Bus.lean ====
section
/-! DEFINITION. The host's side: the two windows, access widths and alignment, host reads and writes
(spec/20_memory.md), the WAIT loop and the host-program notation (30_encoding.md R115, R116). -/

namespace Sys2Proof.Machine

/-- The windows a host address can reach (20_memory.md R70). -/
inductive Window where
  | registers
  | localMemory
  deriving DecidableEq, Repr

/-- The number of bytes of an access (20_memory.md R86). -/
def Width.bytes : Width → Nat
  | .w8 => 1
  | .w16 => 2
  | .w32 => 4

/-- The window and offset of a host address (20_memory.md R70, 00_scope.md R12). -/
def busDecode (p : Params) (addr : Nat) : Option (Window × Nat) :=
  if p.regBase ≤ addr ∧ addr < p.regBase + regWindowSize then some (.registers, addr - p.regBase)
  else if p.lmBase ≤ addr ∧ addr < p.lmBase + lmWindowSize then some (.localMemory, addr - p.lmBase)
  else none

/-- The accesses that get no bus error: 32-bit and word-aligned in the register window (20_memory.md R87), naturally
aligned in the LM window (R88). -/
def accessOk (win : Window) (off : Nat) (w : Width) : Bool :=
  match win with
  | .registers => decide (w = .w32) && off % 4 == 0
  | .localMemory => off % w.bytes == 0

/-- A host write to the LM window: dropped while busy (70_reset_and_hazards.md R462, log entry 7), ignored in the
reserved range (20_memory.md R75), else the low bytes of the value stored little-endian (R86). -/
def State.lmHostWrite (s : State) (off : Nat) (w : Width) (v : Word) : State :=
  if s.status.busy then s.dropWrite
  else if lmEnd ≤ off then s
  else s.memWrite off w.bytes v.toNat

/-- An accepted host write (20_memory.md R86, R87). -/
def State.hostWrite (s : State) (win : Window) (off : Nat) (w : Width) (v : Word) : State :=
  match win with
  | .registers => s.regWrite off v
  | .localMemory => s.lmHostWrite off w v

/-- The data of an accepted host read, zero-extended (20_memory.md R86, R87); it has no side effect (R89). -/
def State.hostReadData (s : State) (win : Window) (off : Nat) (w : Width) : Word :=
  match win with
  | .registers => s.regRead off
  | .localMemory => word (s.memRead off w.bytes)

/-- The host sees the data of a read (log entry 1). -/
def State.returnData (s : State) (v : Word) : State := { s with rdata := some v }

/-- One poll of WAIT: a read of STATUS; while BUSY is 1 the host polls again (30_encoding.md R116, log entry 10). -/
def State.pollStatus (s : State) : State :=
  let t := s.returnData s.status.word
  if s.status.busy then { t with inputs := .wait :: t.inputs } else t

/-- One step of the host, or the hardware reset input (00_scope.md R24, 60_exceptions.md R417, R421). -/
def State.hostStep (s : State) (i : HostInput) : Host.Outcome State Fault Refusal :=
  match i with
  | .write addr w v =>
    match busDecode s.params addr with
    | none => .fault (.outsideWindows i)
    | some (win, off) => if accessOk win off w then .next (s.hostWrite win off w v) else .fault (.busError i)
  | .read addr w =>
    match busDecode s.params addr with
    | none => .fault (.outsideWindows i)
    | some (win, off) =>
      if accessOk win off w then .next (s.returnData (s.hostReadData win off w)) else .fault (.busError i)
  | .wait => .next s.pollStatus
  | .hardwareReset => .next s.hardReset

/-! ## The notation of host programs (30_encoding.md R115, R116) -/

/-- `WR off, v`. -/
def wr (p : Params) (off : Nat) (v : Word) : HostInput := .write (p.regBase + off) .w32 v
/-- `RD off`. -/
def rd (p : Params) (off : Nat) : HostInput := .read (p.regBase + off) .w32
/-- `WR8 lm+a, v`. -/
def wr8 (p : Params) (a : Nat) (v : Word) : HostInput := .write (p.lmBase + a) .w8 v
/-- `WR16 lm+a, v`. -/
def wr16 (p : Params) (a : Nat) (v : Word) : HostInput := .write (p.lmBase + a) .w16 v
/-- `WR32 lm+a, v`. -/
def wr32 (p : Params) (a : Nat) (v : Word) : HostInput := .write (p.lmBase + a) .w32 v
/-- `RD8 lm+a`. -/
def rd8 (p : Params) (a : Nat) : HostInput := .read (p.lmBase + a) .w8
/-- `RD16 lm+a`. -/
def rd16 (p : Params) (a : Nat) : HostInput := .read (p.lmBase + a) .w16
/-- `RD32 lm+a`. -/
def rd32 (p : Params) (a : Nat) : HostInput := .read (p.lmBase + a) .w32
/-- `CMD <command>`. -/
def cmd (p : Params) (i : Instr) : HostInput := wr p 0x010 (encode i)
/-- `EXEC <command>`: `CMD <command>` then `WAIT`. -/
def execCmd (p : Params) (i : Instr) : List HostInput := [cmd p i, .wait]
/-- `SETARG i, v`. -/
def setArg (p : Params) (i : Nat) (v : Word) : HostInput := wr p (0x020 + 4 * i) v
/-- `CLRST`. -/
def clrSt (p : Params) : HostInput := wr p 0x00C 0x0000000E

end Sys2Proof.Machine
end

