-- ==== Sys2Proof/Machine/Code128.lean ====
section
/-! DEFINITION. The Code128 codeword mapper, its checksum and its pattern expansion (spec/48_code128.md). -/

namespace Sys2Proof.Machine

/-! ## Mapping -/

/-- A unit outside `[0x20, 0x7E]` is replaced (48_code128.md R371). -/
def c128Substituted (u : Nat) : Bool := decide (u < 0x20) || decide (0x7E < u)

/-- `c128Map(u)` (48_code128.md R371). -/
def c128Map (u : Nat) : Nat := (if c128Substituted u then 0x3F else u) - 32

/-- C128_MAP (48_code128.md R374). -/
def execC128Map (u : Half) (s : State) : Host.Outcome State Fault Refusal :=
  { s with res :=
      { s.res with r0 := word (c128Map u.toNat), r1 := word (c128Substituted u.toNat).toNat } }.succeed

/-! ## The pattern table -/

/-- Rows 0 to 26 of the pattern table (48_code128.md R372). -/
def c128Widths0 : List Nat :=
  [212222, 222122, 222221, 121223, 121322, 131222, 122213, 122312, 132212,
   221213, 221312, 231212, 112232, 122132, 122231, 113222, 123122, 123221,
   223211, 221132, 221231, 213212, 223112, 312131, 311222, 321122, 321221]

/-- Rows 27 to 53 of the pattern table (48_code128.md R372). -/
def c128Widths1 : List Nat :=
  [312212, 322112, 322211, 212123, 212321, 232121, 111323, 131123, 131321,
   112313, 132113, 132311, 211313, 231113, 231311, 112133, 112331, 132131,
   113123, 113321, 133121, 313121, 211331, 231131, 213113, 213311, 213131]

/-- Rows 54 to 80 of the pattern table (48_code128.md R372). -/
def c128Widths2 : List Nat :=
  [311123, 311321, 331121, 312113, 312311, 332111, 314111, 221411, 431111,
   111224, 111422, 121124, 121421, 141122, 141221, 112214, 112412, 122114,
   122411, 142112, 142211, 241211, 221114, 413111, 241112, 134111, 111242]

/-- Rows 81 to 106 of the pattern table (48_code128.md R372). -/
def c128Widths3 : List Nat :=
  [121142, 121241, 114212, 124112, 124211, 411212, 421112, 421211, 212141,
   214121, 412121, 111143, 111341, 131141, 114113, 114311, 411113, 411311,
   113141, 114131, 311141, 411131, 211412, 211214, 211232, 233111]

/-- The 107 six-digit width strings, each written as a decimal number (48_code128.md R372). -/
def c128Widths : List Nat := c128Widths0 ++ c128Widths1 ++ c128Widths2 ++ c128Widths3

/-- The `n` decimal digits of a number, the leftmost first. -/
def decimalDigits (n v : Nat) : List Nat :=
  match n with
  | 0 => []
  | n + 1 => v / 10 ^ n % 10 :: decimalDigits n v

/-- `c128Pattern(v)`: the digits of row `v`; row 106 has a seventh when `P_C128_STOP_TERM` is 1
(48_code128.md R372, 00_scope.md R11). -/
def c128Pattern (stopTerm : Bool) (v : Nat) : List Nat :=
  if v = 106 ∧ stopTerm = true then decimalDigits 7 2331112 else decimalDigits 6 (c128Widths.getD v 0)

/-- The digits packed as nibbles, digit `k` in bits [4k+3:4k] (48_code128.md R375). -/
def packNibbles (p : List Nat) : Nat :=
  match p with
  | [] => 0
  | d :: p => d + 16 * packNibbles p

/-- C128_PATTERN (48_code128.md R375). -/
def execC128Pattern (v : Nat) (s : State) : Host.Outcome State Fault Refusal :=
  if 106 < v then s.raise .range
  else
    let p := c128Pattern s.params.stopTerm v
    { s with res := { s.res with r0 := word (packNibbles p), r1 := word p.length, r2 := word p.sum } }.succeed

/-! ## Checksum -/

/-- The weighted sum of values from position `i` on. -/
def c128SumFrom (i : Nat) (vals : List Nat) : Nat :=
  match vals with
  | [] => 0
  | v :: vals => v * (i + 1) + c128SumFrom (i + 1) vals

/-- `c128Sum(vals)` (48_code128.md R376). -/
def c128Sum (vals : List Nat) : Nat := 104 + c128SumFrom 0 vals

/-- `c128Check(vals)` (48_code128.md R376). -/
def c128Check (vals : List Nat) : Nat := c128Sum vals % 103

/-- The data values of the units in CHR (48_code128.md R377). -/
def State.c128Values (s : State) : List Nat := s.chrUnits.map c128Map

/-- C128_CHECKSUM (48_code128.md R377). -/
def execC128Checksum (s : State) : Host.Outcome State Fault Refusal :=
  if c128MaxChars < s.chrLen.toNat then s.raise .length
  else
    { s with res :=
        { s.res with r0 := word (c128Check s.c128Values), r1 := word (c128Sum s.c128Values) } }.succeed

/-! ## Expansion -/

/-- The codeword sequence `[104, value..., checksum, 106]` (48_code128.md R378). -/
def c128Sequence (vals : List Nat) : List Nat := 104 :: vals ++ [c128Check vals, 106]

/-- The bars of one pattern from abscissa `x` on, alternating from `isBar`, and the abscissa after it
(48_code128.md R373, R378). -/
def patternBars (x : Nat) (isBar : Bool) (p : List Nat) : List (Nat × Nat) × Nat :=
  match p with
  | [] => ([], x)
  | w :: p =>
    let r := patternBars (x + w) (!isBar) p
    (if isBar then (x, w) :: r.1 else r.1, r.2)

/-- The bars of a codeword sequence from abscissa `x` on, and the abscissa after it (48_code128.md R378). -/
def sequenceBars (stopTerm : Bool) (x : Nat) (cws : List Nat) : List (Nat × Nat) × Nat :=
  match cws with
  | [] => ([], x)
  | cw :: cws =>
    let p := patternBars x true (c128Pattern stopTerm cw)
    let r := sequenceBars stopTerm p.2 cws
    (p.1 ++ r.1, r.2)

/-- The four bytes of a bar entry (20_memory.md R82). -/
def barEntry (bar : Nat × Nat) : List Byte := leBytes 2 bar.1 ++ [byte bar.2, 0]

/-- C128_ENCODE (48_code128.md R379). -/
def execC128Encode (s : State) : Host.Outcome State Fault Refusal :=
  if c128MaxChars < s.chrLen.toNat then s.raise .length
  else
    let vals := s.c128Values
    let seq := c128Sequence vals
    let bars := sequenceBars s.params.stopTerm 0 seq
    let t := (s.lmStore c128CwBase (seq.map byte)).lmStore barsBase (bars.1.flatMap barEntry)
    { t with
      c128CwLen := BitVec.ofNat 9 seq.length
      barCount := BitVec.ofNat 9 bars.1.length
      barWidth := BitVec.ofNat 16 bars.2
      res := { t.res with r0 := word (c128Check vals), r1 := word bars.1.length, r2 := word bars.2 } }.succeed

end Sys2Proof.Machine
end

