-- ==== Sys2Proof/Machine/System.lean ====
section
/-! DEFINITION. The system command (spec/40_system.md). -/

namespace Sys2Proof.Machine

/-- NOP (40_system.md R140). -/
def execNop (s : State) : Host.Outcome State Fault Refusal := s.succeed

end Sys2Proof.Machine
end

