-- ==== Sys2Proof/Machine/Dispatch.lean ====
section
/-! DEFINITION. The meaning of every command: from the state in which it runs to the state at its completion
(60_exceptions.md R410, R414; 70_reset_and_hazards.md R461). -/

namespace Sys2Proof.Machine

def exec (i : Instr) (s : State) : Host.Outcome State Fault Refusal :=
  match i with
  | .nop => Sys2Proof.Machine.execNop s
  | .baClear => Sys2Proof.Machine.execBaClear s
  | .baAppend len val => Sys2Proof.Machine.execBaAppend len val s
  | .baPad => Sys2Proof.Machine.execBaPad s
  | .gfMul x y => Sys2Proof.Machine.execGfMul x y s
  | .gfExp n => Sys2Proof.Machine.execGfExp n s
  | .gfLog x => Sys2Proof.Machine.execGfLog x s
  | .rsGen d => Sys2Proof.Machine.execRsGen d s
  | .rsEcc e => Sys2Proof.Machine.execRsEcc e s
  | .capLookup v e => Sys2Proof.Machine.execCapLookup v e s
  | .alignPos v => Sys2Proof.Machine.execAlignPos v s
  | .blockInfo v e => Sys2Proof.Machine.execBlockInfo v e s
  | .ccBits v => Sys2Proof.Machine.execCcBits v s
  | .totalBits v => Sys2Proof.Machine.execTotalBits v s
  | .utf8Put u => Sys2Proof.Machine.execUtf8Put u s
  | .segWrite v => Sys2Proof.Machine.execSegWrite v s
  | .qrSelect e => Sys2Proof.Machine.execQrSelect e s
  | .qrAssemble v e => Sys2Proof.Machine.execQrAssemble v e s
  | .qrInterleave v e => Sys2Proof.Machine.execQrInterleave v e s
  | .qrFunc v e => Sys2Proof.Machine.execQrFunc v e s
  | .qrPlace m => Sys2Proof.Machine.execQrPlace m s
  | .qrFormat m => Sys2Proof.Machine.execQrFormat m s
  | .qrPenalty => Sys2Proof.Machine.execQrPenalty s
  | .maskEval m x y => Sys2Proof.Machine.execMaskEval m x y s
  | .fmtBch e m => Sys2Proof.Machine.execFmtBch e m s
  | .verBch v => Sys2Proof.Machine.execVerBch v s
  | .qrEncode e => Sys2Proof.Machine.execQrEncode e s
  | .c128Map u => Sys2Proof.Machine.execC128Map u s
  | .c128Pattern n => Sys2Proof.Machine.execC128Pattern n s
  | .c128Checksum => Sys2Proof.Machine.execC128Checksum s
  | .c128Encode => Sys2Proof.Machine.execC128Encode s

end Sys2Proof.Machine
end

