-- ==== Sys2Proof/Machine/Engine.lean ====
section
/-! DEFINITION. One step of SEC: the core completes the running command, or the host makes its next access
(00_scope.md R24, 70_reset_and_hazards.md R460, R461, R466). -/

namespace Sys2Proof.Machine

/-- The running command completes: the latched word is decoded and executed; a word no row matches completes with
ILLEGAL (30_encoding.md R112, 60_exceptions.md R412). -/
def State.completeCommand (s : State) : Host.Outcome State Fault Refusal :=
  match decode s.lastCmd with
  | .ok i => exec i s
  | .error _ => s.raise .illegal

/-- The core moves: a command is running, and its latency is over or nothing is to come from the host
(70_reset_and_hazards.md R466, log entry 2). -/
def State.coreMoves (s : State) : Bool := s.status.busy && (s.inputs.isEmpty || s.wait == 0)

/-- One step; an idle machine that nothing reaches stays as it is (70_reset_and_hazards.md R460). -/
def State.advance (s : State) : Host.Outcome State Fault Refusal :=
  if s.coreMoves then s.completeCommand
  else
    match s.inputs with
    | [] => .next s
    | i :: rest => ({ s with inputs := rest, wait := s.wait - 1 } : State).hostStep i

/-- A command word latched as the running command, due at once (log entry 9). -/
def State.latchWord (s : State) (w : Word) : State :=
  { s with lastCmd := w, status := s.status.accepted, wait := 0 }

/-- The command word of a table row's bits (log entry 9). -/
def tableWord (nbits w : Nat) : Word := word (w % 2 ^ nbits)

end Sys2Proof.Machine
end

