-- ==== Sys2Proof/Machine/Step.lean ====
section
/-! DEFINITION. The step of the machine, and the placement of a command word where the next step runs it. -/

namespace Sys2Proof.Machine

/-- One step of SEC (70_reset_and_hazards.md R460, R461). -/
def step (s : State) : Host.Outcome State Fault Refusal := s.advance

/-- The state in which the host's write of the command word `w` has just been accepted and the command is due: the next
step runs it (10_state.md R35, log entry 9). -/
def State.withFetchWord (s : State) (nbits w : Nat) : State := s.latchWord (tableWord nbits w)

end Sys2Proof.Machine
end

