-- ==== Sys2Proof/Safety.lean ====
section
/-! DEFINITION. The terms in which claims are made: the invariant of the machine, the host accesses that SEC answers, what a
command leaves as it was, the errors of each command and their order, the readings of LM that the spec speaks of, and
sequences of commands. -/

namespace Sys2Proof.Machine

/-! ## The invariant -/

/-- STATUS is one of the values the spec lets it have: ERRCODE is 0 exactly when ERR is 0, and while BUSY is 1 both DONE
and ERR are 0 (10_state.md R34, 70_reset_and_hazards.md R463). -/
abbrev Status.consistent (s : Status) : Prop :=
  (s.err = true ↔ s.errCode ≠ .noError) ∧ (s.busy = true → s.done = false ∧ s.err = false)

/-- QR_INFO is one of the values the spec lets it have: once function patterns are drawn, VERSION is 1 to 10 and SIZE
is 4*VERSION + 17; MASK_VALID needs FUNC_VALID (10_state.md R43). -/
abbrev QrInfo.consistent (q : QrInfo) : Prop :=
  (q.funcValid = true → 1 ≤ q.version.toNat ∧ q.version.toNat ≤ 10 ∧ q.size.toNat = 4 * q.version.toNat + 17) ∧
    (q.maskValid = true → q.funcValid = true)

/-- What every step keeps: legal parameters, LM in canonical form, STATUS and QR_INFO consistent, every length register
within the range the spec states for it (10_state.md R41, R42; 48_code128.md R378). -/
abbrev Inv (s : State) : Prop :=
  s.params.legal = true ∧ Memory.wf s.lm ∧ s.status.consistent ∧ s.qrInfo.consistent ∧ s.baLen.toNat ≤ 4096 ∧
    s.cwLen.toNat ≤ 346 ∧ s.barCount.toNat ≤ 250 ∧ s.barWidth.toNat ≤ 915 ∧ s.c128CwLen.toNat ≤ 83

/-! ## Safe host behaviour -/

/-- An access that SEC answers without a bus error (20_memory.md R70, R87, R88). -/
def HostInput.answered (p : Params) (i : HostInput) : Bool :=
  match i with
  | .write addr w _ => (busDecode p addr).any (fun d => accessOk d.1 d.2 w)
  | .read addr w => (busDecode p addr).any (fun d => accessOk d.1 d.2 w)
  | .wait => true
  | .hardwareReset => true

/-- An input that resets SEC (70_reset_and_hazards.md R450). -/
def HostInput.resets (p : Params) (i : HostInput) : Bool :=
  match i with
  | .write addr _ v => busDecode p addr == some (.registers, Reg.offset .ctrl) && v.getLsbD 1
  | .read _ _ => false
  | .wait => false
  | .hardwareReset => true

/-- Every input to come is answered without a bus error. -/
def State.inputsAnswered (s : State) : Prop := ∀ i ∈ s.inputs, i.answered s.params = true

/-- The host reads STATUS with BUSY = 0 and nothing is to come: the end of a run (00_scope.md R26). -/
def State.quiescent (s : State) : Prop := s.status.busy = false ∧ s.inputs = []

/-! ## Frames -/

/-- Every register but STATUS and the named ones reads as before. -/
def RegsKept (s t : State) (written : List Reg) : Prop :=
  ∀ r : Reg, r ≠ .status → r ∉ written → t.readReg r = s.readReg r

/-- Every LM byte reads as before, except at the named offsets. -/
def LmKept (s t : State) (stored : Nat → Prop) : Prop := ∀ a, ¬ stored a → t.lmByte a = s.lmByte a

/-- What no command writes although it is no register: the parameters, and the model's own fields. -/
def OwnKept (s t : State) : Prop :=
  t.params = s.params ∧ t.lmEpoch = s.lmEpoch ∧ t.draw = s.draw ∧ t.wait = s.wait ∧ t.inputs = s.inputs ∧
    t.rdata = s.rdata

/-- The command completes without error in `t`, writing no register but STATUS and the named ones and no LM byte but the
named ones (60_exceptions.md R414, 10_state.md R56). -/
structure Completes (i : Instr) (s t : State) (written : List Reg) (stored : Nat → Prop) : Prop where
  next   : exec i s = .next t
  status : t.status = s.status.completed
  regs   : RegsKept s t written
  lm     : LmKept s t stored
  own    : OwnKept s t

/-- Nothing is stored to LM. -/
def nothing : Nat → Prop := fun _ => False

/-- The `n` offsets from `base` on. -/
def span (base n : Nat) : Nat → Prop := fun a => base ≤ a ∧ a < base + n

/-- The bits of a register that hold something; the others are reserved (10_state.md R31 to R48). -/
def Reg.implemented : Reg → Word
  | .id => 0xFFFFFFFF
  | .cfg => 0x0000013F
  | .ctrl => 0x00000003
  | .status => 0x00000F0F
  | .cmd => 0xFFFFFFFF
  | .lastCmd => 0xFFFFFFFF
  | .arg0 => 0xFFFFFFFF
  | .arg1 => 0xFFFFFFFF
  | .arg2 => 0xFFFFFFFF
  | .res0 => 0xFFFFFFFF
  | .res1 => 0xFFFFFFFF
  | .res2 => 0xFFFFFFFF
  | .res3 => 0xFFFFFFFF
  | .res4 => 0xFFFFFFFF
  | .inLen => 0x000003FF
  | .chrLen => 0x000001FF
  | .baLen => 0x00001FFF
  | .cwLen => 0x000003FF
  | .qrInfo => 0x0307FF3F
  | .barCount => 0x000001FF
  | .barWidth => 0x0000FFFF
  | .c128CwLen => 0x000001FF
  | .pen0 => 0xFFFFFFFF
  | .pen1 => 0xFFFFFFFF
  | .pen2 => 0xFFFFFFFF
  | .pen3 => 0xFFFFFFFF
  | .pen4 => 0xFFFFFFFF
  | .pen5 => 0xFFFFFFFF
  | .pen6 => 0xFFFFFFFF
  | .pen7 => 0xFFFFFFFF

/-- The registers the host may write, without STATUS and CTRL: their writes are dropped while BUSY = 1
(70_reset_and_hazards.md R462). -/
def droppable : List Reg := [.cmd, .arg0, .arg1, .arg2, .inLen, .chrLen]

/-- What every register reads after a reset, for given parameters (10_state.md R55, 70_reset_and_hazards.md R451). -/
def Reg.resetValue (p : Params) (r : Reg) : Word :=
  if r = .id then 0x53454301
  else if r = .cfg then word p.maxVersion ||| word p.stopTerm.toNat <<< 8
  else 0

/-! ## Errors (60_exceptions.md R411, R413) -/

/-- No version that the search tries fits the payload (45_qr_codewords.md R260, R261). -/
def State.noVersionFits (s : State) (e : Ecc) : Bool :=
  (List.range s.params.maxVersion).all (fun k =>
    decide (2 ^ ccBits (k + 1) - 1 < s.inLen.toNat) ||
      decide (8 * dataCodewords (k + 1) e < 4 + ccBits (k + 1) + 8 * s.inLen.toNat))

/-- Outside the range of versions `1 .. hi`. -/
def versionOutside (hi v : Nat) : Bool := decide (v < 1) || decide (hi < v)

/-- IN_LEN above the size of IN (10_state.md R39). -/
def State.inLenTooLong (s : State) : Bool := decide (512 < s.inLen.toNat)

/-- CHR_LEN above `C128_MAX_CHARS` (10_state.md R40). -/
def State.chrLenTooLong (s : State) : Bool := decide (80 < s.chrLen.toNat)

/-- IN_LEN does not fit the character-count field of version `v` (44_segment.md R233). -/
def State.countOverflows (s : State) (v : Nat) : Bool := decide (2 ^ ccBits v - 1 < s.inLen.toNat)

/-- The error conditions of each command, in no order that matters (60_exceptions.md R411 and the "Errors" part of each
command's rule); ILLEGAL concerns words, not commands. -/
def Instr.errors (i : Instr) (s : State) : List (ErrCode × Bool) :=
  match i with
  | .nop => []
  | .baClear => []
  | .baAppend len _ => [(.baFull, decide (4096 < s.baLen.toNat + len)), (.range, decide (16 < len))]
  | .baPad => []
  | .gfMul _ _ => []
  | .gfExp _ => []
  | .gfLog x => [(.domain, x == 0)]
  | .rsGen d => [(.range, decide (1024 < s.arg.a2.toNat + d + 1))]
  | .rsEcc e =>
    [(.range, decide (1024 < s.arg.a0.toNat + s.arg.a1.toNat) || decide (1024 < s.arg.a2.toNat + e))]
  | .capLookup v _ => [(.range, versionOutside 10 v)]
  | .alignPos v => [(.range, versionOutside 10 v)]
  | .blockInfo v _ => [(.range, versionOutside 10 v)]
  | .ccBits v => [(.range, versionOutside 40 v)]
  | .totalBits v => [(.range, versionOutside 40 v || s.inLenTooLong)]
  | .utf8Put u =>
    [(.inFull, decide (512 < s.inLen.toNat + (if u.toNat < 0x80 then 1 else if u.toNat < 0x800 then 2 else 3))),
     (.range, s.inLenTooLong)]
  | .segWrite v =>
    [(.baFull, decide (4096 < s.baLen.toNat + (4 + ccBits v + 8 * s.inLen.toNat))), (.ccOverflow, s.countOverflows v),
     (.range, versionOutside 40 v || s.inLenTooLong)]
  | .qrSelect e => [(.payloadTooLarge, s.noVersionFits e), (.range, s.inLenTooLong)]
  | .qrAssemble v e =>
    [(.payloadTooLarge, decide (8 * dataCodewords v e < 4 + ccBits v + 8 * s.inLen.toNat)),
     (.ccOverflow, s.countOverflows v), (.range, versionOutside 10 v || s.inLenTooLong)]
  | .qrInterleave v _ => [(.range, versionOutside 10 v)]
  | .qrFunc v _ => [(.range, versionOutside 10 v)]
  | .qrPlace _ => [(.seq, !s.qrInfo.funcValid)]
  | .qrFormat _ => [(.seq, !s.qrInfo.funcValid)]
  | .qrPenalty => [(.seq, !s.qrInfo.funcValid)]
  | .maskEval m _ _ => [(.range, decide (7 < m))]
  | .fmtBch _ _ => []
  | .verBch _ => []
  | .qrEncode e => [(.payloadTooLarge, s.noVersionFits e), (.range, s.inLenTooLong)]
  | .c128Map _ => []
  | .c128Pattern v => [(.range, decide (106 < v))]
  | .c128Checksum => [(.length, s.chrLenTooLong)]
  | .c128Encode => [(.length, s.chrLenTooLong)]

/-- The order in which errors are reported (60_exceptions.md R413). -/
def errorPriority : List ErrCode :=
  [.illegal, .range, .length, .seq, .domain, .ccOverflow, .payloadTooLarge, .baFull, .inFull]

/-- The error a command reports: the first in the order of priority whose condition holds (60_exceptions.md R413). -/
def Instr.firstError (i : Instr) (s : State) : Option ErrCode :=
  errorPriority.find? (fun c => (Instr.errors i s).any (fun p => p.1 == c && p.2))

/-! ## Readings of LM -/

/-- Bit `k` of the bit accumulator (20_memory.md R79). -/
def State.streamBit (s : State) (k : Nat) : Bool := (s.lmByte (bitsBase + k / 8)).getLsbD (7 - k % 8)

/-- The value at `x` of a polynomial given by its coefficients, highest degree first (42_gf_rs.md R176, R178). -/
def gfEval (p : List Byte) (x : Byte) : Byte := p.foldl (fun acc c => gfMul acc x ^^^ c) 0

/-- The product over GF(2) of a polynomial of degree at most 5 and another one (46_qr_matrix.md R319, R326). -/
def gf2Mul (q g : Nat) : Nat := (List.range 6).foldl (fun acc i => if q.testBit i then acc ^^^ (g <<< i) else acc) 0

/-- Where block `b` begins in the data codewords (45_qr_codewords.md R266). -/
def blockStart (v : Nat) (e : Ecc) (b : Nat) : Nat :=
  b * (blockSplit v e).shortData + (b - (blockSplit v e).nShort)

/-- The data codewords of block `b` in BITS (45_qr_codewords.md R266). -/
def State.block (s : State) (v : Nat) (e : Ecc) (b : Nat) : List Byte :=
  s.lmBytes (bitsBase + blockStart v e b) ((blockSplit v e).dataLen b)

/-- A function module of a given colour stands in a cell (00_scope.md R20). -/
def State.functionModule (s : State) (x y : Nat) (d : Bool) : Prop := s.func x y = true ∧ s.dark x y = d

/-- The value of character unit `k` in Code Set B (48_code128.md R371, R377). -/
def State.c128Value (s : State) (k : Nat) : Nat := c128Map (s.memRead (chrBase + 2 * k) 2)

/-- The length of the maximal run of equal modules that starts at position `k` of a line; 0 where none starts
(47_qr_penalty.md R350). -/
def runFrom (l : List Bool) (k : Nat) : Nat :=
  if 0 < k ∧ l[k]? = l[k - 1]? then 0 else ((l.drop k).takeWhile (fun b => some b == l[k]?)).length

/-- Two states hold the same symbol and the same codewords: BITS, BA_LEN, the CW_LEN codewords of CW, CW_LEN, GRID, QR_INFO
(47_qr_penalty.md R360, R362). -/
structure SameSymbol (s t : State) : Prop where
  bits   : ∀ a, Region.bits.holds a = true → s.lmByte a = t.lmByte a
  baLen  : s.baLen = t.baLen
  cw     : ∀ k, k < s.cwLen.toNat → s.lmByte (cwBase + k) = t.lmByte (cwBase + k)
  cwLen  : s.cwLen = t.cwLen
  grid   : ∀ a, Region.grid.holds a = true → s.lmByte a = t.lmByte a
  qrInfo : s.qrInfo = t.qrInfo

/-! ## Sequences of commands -/

/-- Commands run one after the other, each to its completion. -/
def runCommands (is : List Instr) (s : State) : Option State :=
  match is with
  | [] => some s
  | i :: is =>
    match exec i s with
    | .next t => runCommands is t
    | .fault _ => none
    | .refused _ => none

/-- The eight mask trials as single commands: place, format, score; the scores are the RES4 values
(47_qr_penalty.md R362). -/
def runTrials (masks : List Nat) (s : State) : Option (State × List Word) :=
  match masks with
  | [] => some (s, [])
  | m :: masks => do
    let t ← runCommands [.qrPlace m, .qrFormat m, .qrPenalty] s
    let r ← runTrials masks t
    return (r.1, t.res.r4 :: r.2)

end Sys2Proof.Machine
end

