-- ==== Sys2Proof/Certificates/Slice0/Obligations.lean ====
section
/-! DEFINITION. The statements for the provers. Each says in its docstring which rule of spec/ it formalises; a command that
`exec` runs in state `s` is the command whose word was accepted, at the instant of its completion. -/

open Sys2Proof Sys2Proof.Machine

/-! ## Encoding -/

/-- Every operand at every value its field admits survives encoding and decoding (30_encoding.md R102 to R110). -/
def Obligations.DecodeOfEncode : Prop := ∀ i : Instr, i.wellFormed = true → decode (encode i) = .ok i

/-- A word that decodes is the one word of its command: no bit of it is dropped, every must-be-zero bit and unused field is
0 (30_encoding.md R107). -/
def Obligations.EncodeOfDecode : Prop :=
  ∀ (w : Word) (i : Instr), decode w = .ok i → i.wellFormed = true ∧ encode i = w

/-- 30_encoding.md R112: the command of a word is the table row it matches, at most one row matches, and a word no row
matches has a reserved opcode or a must-be-zero bit set. -/
def Obligations.DecodeFollowsOpcodeTable : Prop :=
  (∀ r ∈ opcodeTable, r.mask &&& 0xFF = 0xFF) ∧
  (∀ (w : Word) (r r' : OpRow), r ∈ opcodeTable → r' ∈ opcodeTable → r.matches w = true → r'.matches w = true → r = r') ∧
  (∀ (w : Word) (i : Instr), decode w = .ok i → ∃ r ∈ opcodeTable, r.matches w = true ∧ r.mnemonic = i.mnemonic) ∧
  (∀ (w : Word) (r : OpRow), r ∈ opcodeTable → r.matches w = true →
    ∃ i, decode w = .ok i ∧ i.mnemonic = r.mnemonic) ∧
  (∀ w : Word, (∀ r ∈ opcodeTable, r.matches w = false) →
    decode w = (if ∃ r ∈ opcodeTable, opcField w = opcField r.pattern then .error .mustBeZero
      else .error .reservedOpcode))

/-- Words written out in the spec's examples decode to the commands they stand for (30_encoding.md R114 and the examples of
44_segment.md R232, 43_capacity.md R206, 45_qr_codewords.md R265, 46_qr_matrix.md R314, R317, R327, 48_code128.md
R374), and two words no row matches do not. -/
def Obligations.SpecWordsDecode : Prop :=
  decode 0x0000005F = .ok (.qrEncode .low) ∧ decode 0x00004150 = .ok (.qrFunc 1 .medium) ∧
  decode 0x00800210 = .ok (.gfMul 0x02 0x80) ∧ decode 0x00040402 = .ok (.baAppend 4 4) ∧
  decode 0x00000A22 = .ok (.ccBits 10) ∧ decode 0x00008520 = .ok (.capLookup 5 .quartile) ∧
  decode 0x00000141 = .ok (.qrAssemble 1 .low) ∧ decode 0x00030051 = .ok (.qrPlace 3) ∧
  decode 0x03050454 = .ok (.maskEval 4 5 3) ∧ decode 0x00000756 = .ok (.verBch 7) ∧
  decode 0x00410060 = .ok (.c128Map 0x41) ∧ decode 0x00000100 = .error .mustBeZero ∧
  decode 0x00000004 = .error .reservedOpcode

/-! ## The step -/

/-- What one step does: a latched word that is due and decodes to `i` is run by `exec i`; otherwise the next input is
performed; with nothing to do the machine stays as it is (70_reset_and_hazards.md R460, R466). The words the host's check
places run as the very next step. When the command is due is the model's free latency (log entry 2). -/
def Obligations.StepRunsTheLatchedCommand : Prop :=
  (∀ (s : State) (i : Instr), s.status.busy = true → (s.inputs = [] ∨ s.wait = 0) → decode s.lastCmd = .ok i →
    step s = exec i s) ∧
  (∀ (s : State) (x : HostInput) (rest : List HostInput), s.inputs = x :: rest → (s.status.busy = false ∨ s.wait ≠ 0) →
    step s = ({ s with inputs := rest, wait := s.wait - 1 } : State).hostStep x) ∧
  (∀ s : State, s.quiescent → step s = .next s) ∧
  (∀ (s : State) (w : Word) (i : Instr), decode w = .ok i →
    step (s.withFetchWord 32 w.toNat) =
      exec i { s with lastCmd := w, status := s.status.accepted, wait := 0 })

/-- 60_exceptions.md R412: a word no row of the opcode table matches is accepted and completes with ILLEGAL, in every state;
a word a row matches never does. -/
def Obligations.IllegalWordsCompleteWithIllegal : Prop :=
  ∀ (s : State) (w : Word), (s.accept w).lastCmd = w ∧ (s.accept w).status.busy = true ∧
    ((∀ r ∈ opcodeTable, r.matches w = false) → (s.accept w).completeCommand = (s.accept w).raise .illegal) ∧
    ((∃ r ∈ opcodeTable, r.matches w = true) →
      ∀ t, (s.accept w).completeCommand = .next t → t.status.errCode ≠ .illegal)

/-- 60_exceptions.md R410 and R414: whatever word is latched, the command completes, with success or with exactly one error
code; STATUS is set accordingly, DROP and IRQ_EN are as before. -/
def Obligations.EveryCommandCompletesOnce : Prop :=
  ∀ s : State, ∃ (t : State) (c : ErrCode), s.completeCommand = .next t ∧
    t.status = { busy := false, done := true, err := decide (c ≠ .noError), drop := s.status.drop, errCode := c } ∧
    (c ≠ .noError → s.completeCommand = s.raise c) ∧ t.irqEn = s.irqEn

/-- 60_exceptions.md R410, R411 and R413: the error codes, in the order of priority; the error a command reports is the
first in that order whose condition holds (an illegal word first of all); where none holds the command completes without
error. This says for every command on which state and operands it completes with its own effect. -/
def Obligations.ErrorsReportedByPriority : Prop :=
  (ErrCode.noError.code = 0 ∧ errorPriority.map ErrCode.code = [1, 2, 9, 8, 7, 4, 3, 5, 6]) ∧
  (∀ (s : State) (e : DecodeError), decode s.lastCmd = .error e → s.completeCommand = s.raise .illegal) ∧
  (∀ (i : Instr) (s : State) (c : ErrCode), Instr.firstError i s = some c → exec i s = s.raise c) ∧
  (∀ (i : Instr) (s : State), Instr.firstError i s = none →
    ∃ t, exec i s = .next t ∧ t.status = s.status.completed)

/-- 60_exceptions.md R415: a command that completes with an error leaves the state before the CMD write plus the STATUS and
LASTCMD changes (and the model's own latency fields, log entry 2). -/
def Obligations.ErrorsArePrecise : Prop :=
  ∀ (s : State) (w : Word) (t : State), s.status.busy = false → (s.accept w).completeCommand = .next t →
    t.status.err = true → ∃ c, c ≠ .noError ∧
      t = { s with
        lastCmd := w
        status := { busy := false, done := true, err := true, drop := s.status.drop, errCode := c }
        wait := t.wait
        draw := t.draw }

/-- 10_state.md R56: the registers and the LM regions each command writes; on error only STATUS. The premise `Inv` bounds
BA_LEN, without which a BA_PAD would append past BITS. -/
def Obligations.CommandsWriteOnlyWhatTheTableLists : Prop :=
  ∀ (i : Instr) (s t : State), Inv s → exec i s = .next t →
    RegsKept s t (Instr.regsWritten i) ∧ LmKept s t (fun a => ∃ r ∈ Instr.lmRegions i, r.holds a = true) ∧
    OwnKept s t ∧ (t.status.err = true → RegsKept s t [] ∧ LmKept s t nothing)

/-! ## System and bit accumulator -/

/-- NOP completes and writes nothing besides the completion bits; BA_CLEAR zeroes the 512 bytes of BITS and BA_LEN
(40_system.md R140, 41_bit_accumulator.md R152). -/
def Obligations.NopAndBaClearComplete : Prop :=
  ∀ s : State, (∃ t, Completes .nop s t [] nothing) ∧
    ∃ t, Completes .baClear s t [.baLen] (span bitsBase 512) ∧ t.baLen = 0 ∧
      ∀ k, k < 512 → t.lmByte (bitsBase + k) = 0

/-- BA_APPEND writes the low `len` bits of the value, most significant first, at the stream positions from BA_LEN on, keeps
every other stream bit and every byte outside BITS (41_bit_accumulator.md R151, R153). -/
def Obligations.BaAppendWritesTheBitsMsbFirst : Prop :=
  ∀ (s : State) (len : Nat) (val : Half), len ≤ 16 → s.baLen.toNat + len ≤ 4096 →
    ∃ t, Completes (.baAppend len val) s t [.baLen] (span bitsBase 512) ∧ t.baLen.toNat = s.baLen.toNat + len ∧
      (∀ k, k < len → t.streamBit (s.baLen.toNat + k) = val.toNat.testBit (len - 1 - k)) ∧
      (∀ k, k < 4096 → (k < s.baLen.toNat ∨ s.baLen.toNat + len ≤ k) → t.streamBit k = s.streamBit k)

/-- BA_PAD appends zero bits up to the next byte boundary and no other bit (41_bit_accumulator.md R154). -/
def Obligations.BaPadZeroesToTheByteBoundary : Prop :=
  ∀ s : State, s.baLen.toNat ≤ 4096 →
    ∃ t, Completes .baPad s t [.baLen] (span bitsBase 512) ∧ t.baLen.toNat = 8 * ((s.baLen.toNat + 7) / 8) ∧
      (∀ k, s.baLen.toNat ≤ k → k < t.baLen.toNat → t.streamBit k = false) ∧
      (∀ k, k < 4096 → (k < s.baLen.toNat ∨ t.baLen.toNat ≤ k) → t.streamBit k = s.streamBit k)

/-! ## GF(256) and Reed–Solomon -/

/-- 42_gf_rs.md R170 to R172: the exponent table by its recurrence, the logarithm table as its inverse on the nonzero
elements, the multiplication by the tables and the field laws that follow; addition is exclusive or. -/
def Obligations.GfTablesAndFieldLaws : Prop :=
  gfExp 0 = 0x01 ∧
  (∀ i, i ≤ 253 → (gfExp (i + 1)).toNat =
    if 0x100 ≤ (gfExp i).toNat <<< 1 then ((gfExp i).toNat <<< 1) ^^^ 0x11D else (gfExp i).toNat <<< 1) ∧
  (∀ i, i ≤ 254 → gfLog (gfExp i) = i) ∧
  (∀ x : Byte, x ≠ 0 → gfLog x ≤ 254 ∧ gfExp (gfLog x) = x) ∧
  (∀ x y : Byte, gfMul x y = if x = 0 ∨ y = 0 then 0 else gfExp ((gfLog x + gfLog y) % 255)) ∧
  (∀ x y : Byte, gfMul x y = gfMul y x) ∧
  (∀ x y z : Byte, gfMul (gfMul x y) z = gfMul x (gfMul y z)) ∧
  (∀ x y z : Byte, gfMul x (y ^^^ z) = gfMul x y ^^^ gfMul x z) ∧
  (∀ x : Byte, gfMul x 1 = x ∧ gfMul x 0 = 0) ∧
  (∀ x : Byte, x ≠ 0 → gfMul x (gfExp ((255 - gfLog x) % 255)) = 1)

/-- GF_MUL, GF_EXP and GF_LOG complete with the product, the power of α and the exponent in RES0 and write nothing else
(42_gf_rs.md R173 to R175). The product is given by exponents, not by the model's own function. -/
def Obligations.GfCommandsWriteRes0 : Prop :=
  (∀ (s : State) (x y : Byte), ∃ t, Completes (.gfMul x y) s t [.res0] nothing ∧
    ((x = 0 ∨ y = 0) → t.res.r0 = 0) ∧
    (∀ i j, i ≤ 254 → j ≤ 254 → x = gfExp i → y = gfExp j → t.res.r0 = (gfExp ((i + j) % 255)).setWidth 32)) ∧
  (∀ (s : State) (i : Nat), i < 256 → ∃ t, Completes (.gfExp i) s t [.res0] nothing ∧
    t.res.r0 = (gfExp (i % 255)).setWidth 32) ∧
  (∀ (s : State) (x : Byte), x ≠ 0 → ∃ t, Completes (.gfLog x) s t [.res0] nothing ∧
    t.res.r0.toNat ≤ 254 ∧ gfExp t.res.r0.toNat = x) ∧
  (∀ s : State, exec (.gfLog 0) s = s.raise .domain)

/-- The generator of degree `d` has `d + 1` coefficients, the first of them 1, and the roots α^0 to α^(d−1)
(42_gf_rs.md R176). -/
def Obligations.RsGenIsMonicWithItsRoots : Prop :=
  ∀ d, d ≤ 255 → (rsGen d).length = d + 1 ∧ (rsGen d).head? = some 1 ∧
    ∀ i, i < d → gfEval (rsGen d) (gfExp i) = 0

/-- The data followed by its ECC bytes is a multiple of the generator: it vanishes at every root, so the ECC bytes are the
remainder that 42_gf_rs.md R178 defines. -/
def Obligations.RsEccMakesAMultipleOfTheGenerator : Prop :=
  ∀ (data : List Byte) (e : Nat), e ≤ 255 → (rsEcc data e).length = e ∧
    ∀ i, i < e → gfEval (data ++ rsEcc data e) (gfExp i) = 0

/-- RS_GEN and RS_ECC complete where their ranges lie inside WORK, store their bytes at ARG2, all data read before any byte
is written, and give the count in RES0 (42_gf_rs.md R177, R179). -/
def Obligations.RsCommandsStoreAtArg2 : Prop :=
  (∀ (s : State) (d : Nat), s.arg.a2.toNat + d + 1 ≤ 1024 →
    ∃ t, Completes (.rsGen d) s t [.res0] (span (workBase + s.arg.a2.toNat) (d + 1)) ∧ t.res.r0.toNat = d + 1 ∧
      t.lmBytes (workBase + s.arg.a2.toNat) (d + 1) = rsGen d) ∧
  (∀ (s : State) (e : Nat), s.arg.a0.toNat + s.arg.a1.toNat ≤ 1024 → s.arg.a2.toNat + e ≤ 1024 →
    ∃ t, Completes (.rsEcc e) s t [.res0] (span (workBase + s.arg.a2.toNat) e) ∧ t.res.r0.toNat = e ∧
      t.lmBytes (workBase + s.arg.a2.toNat) e =
        rsEcc (s.lmBytes (workBase + s.arg.a0.toNat) s.arg.a1.toNat) e)

/-! ## Capacity -/

/-- CAP_LOOKUP, ALIGN_POS and BLOCK_INFO complete for versions 1 to 10, whatever the version cap, with the table entries in
the RES registers (43_capacity.md R206 to R209). -/
def Obligations.TableCommandsReturnTheirEntries : Prop :=
  ∀ (s : State) (v : Nat) (e : Ecc), 1 ≤ v → v ≤ 10 →
    (∃ t, Completes (.capLookup v e) s t [.res0, .res1, .res2, .res3, .res4] nothing ∧
      t.res.r0.toNat = dataCodewords v e ∧ t.res.r1.toNat = numBlocks v e ∧ t.res.r2.toNat = eccPerBlock v e ∧
      t.res.r3.toNat = totalRawDataModules v ∧ t.res.r4.toNat = 4 * v + 17) ∧
    (∃ t, Completes (.alignPos v) s t [.res0, .res1] nothing ∧
      t.res.r0.toNat = (alignmentPositions v).length ∧
      t.res.r1.toNat = (alignmentPositions v).getD 0 0 + 2 ^ 8 * (alignmentPositions v).getD 1 0 +
        2 ^ 16 * (alignmentPositions v).getD 2 0) ∧
    (∃ t, Completes (.blockInfo v e) s t [.res0, .res1, .res2, .res3, .res4] nothing ∧
      t.res.r0.toNat = totalRawDataModules v / 8 ∧
      t.res.r1.toNat = totalRawDataModules v / 8 / numBlocks v e ∧
      t.res.r2.toNat + totalRawDataModules v / 8 % numBlocks v e = numBlocks v e ∧
      t.res.r3.toNat + eccPerBlock v e = t.res.r1.toNat ∧
      t.res.r4.toNat = totalRawDataModules v / 8 % numBlocks v e)

/-- 43_capacity.md R204, for all 40 pairs of version and level and all 10 versions. -/
def Obligations.CapacityTablesAgreeWithTheGrid : Prop :=
  ∀ v, 1 ≤ v → v ≤ 10 →
    (∀ e : Ecc, dataCodewords v e + numBlocks v e * eccPerBlock v e = rawCodewords v) ∧
    (∀ (s : State) (e : Ecc), (s.drawFunctions v e).countDataCells (4 * v + 17) = totalRawDataModules v)

/-! ## Segments -/

/-- CC_BITS and TOTAL_BITS complete for versions 1 to 40; the null total is a result, not an error (44_segment.md R231 to
R234). -/
def Obligations.SegmentQueriesReturnTheirCounts : Prop :=
  ∀ (s : State) (v : Nat), 1 ≤ v → v ≤ 40 →
    (∃ t, Completes (.ccBits v) s t [.res0] nothing ∧ t.res.r0 = if v ≤ 9 then 8 else 16) ∧
    (s.inLen.toNat ≤ 512 → ∃ t, Completes (.totalBits v) s t [.res0, .res1] nothing ∧
      (v ≤ 9 ∧ 255 < s.inLen.toNat → t.res.r0 = 0 ∧ t.res.r1 = 1) ∧
      (v ≤ 9 ∧ s.inLen.toNat ≤ 255 → t.res.r0.toNat = 12 + 8 * s.inLen.toNat ∧ t.res.r1 = 0) ∧
      (10 ≤ v → t.res.r0.toNat = 20 + 8 * s.inLen.toNat ∧ t.res.r1 = 0))

/-- UTF8_PUT stores the one, two or three bytes of a code unit at the end of IN and advances IN_LEN by their number
(44_segment.md R235, R236). -/
def Obligations.Utf8PutAppendsTheExpansion : Prop :=
  ∀ (s : State) (u : Half) (b : List Byte),
    b = (if u.toNat < 0x80 then [u.setWidth 8]
      else if u.toNat < 0x800 then [0b110#3 ++ u.extractLsb' 6 5, 0b10#2 ++ u.extractLsb' 0 6]
      else [0b1110#4 ++ u.extractLsb' 12 4, 0b10#2 ++ u.extractLsb' 6 6, 0b10#2 ++ u.extractLsb' 0 6]) →
    s.inLen.toNat + b.length ≤ 512 →
    ∃ t, Completes (.utf8Put u) s t [.res0, .inLen] (span (inBase + s.inLen.toNat) b.length) ∧
      t.lmBytes (inBase + s.inLen.toNat) b.length = b ∧ t.inLen.toNat = s.inLen.toNat + b.length ∧
      t.res.r0.toNat = b.length

/-- SEG_WRITE appends the mode bits 0100, the character count and the data bits of IN to the accumulator and keeps every
other stream bit (44_segment.md R230, R237). -/
def Obligations.SegWriteAppendsTheSegment : Prop :=
  ∀ (s : State) (v c n k0 : Nat), 1 ≤ v → v ≤ 40 → c = (if v ≤ 9 then 8 else 16) → n = s.inLen.toNat →
    k0 = s.baLen.toNat → n ≤ 512 → n ≤ 2 ^ c - 1 → k0 + 4 + c + 8 * n ≤ 4096 →
    ∃ t, Completes (.segWrite v) s t [.res0, .baLen] (span bitsBase 512) ∧
      t.baLen.toNat = k0 + 4 + c + 8 * n ∧ t.res.r0.toNat = 4 + c + 8 * n ∧
      (∀ k, k < 4 → t.streamBit (k0 + k) = decide (k = 1)) ∧
      (∀ k, k < c → t.streamBit (k0 + 4 + k) = n.testBit (c - 1 - k)) ∧
      (∀ k j, k < n → j < 8 → t.streamBit (k0 + 4 + c + 8 * k + j) = (s.lmByte (inBase + k)).getLsbD (7 - j)) ∧
      (∀ k, k < 4096 → (k < k0 ∨ k0 + 4 + c + 8 * n ≤ k) → t.streamBit k = s.streamBit k)

/-! ## QR codewords -/

/-- QR_SELECT completes with the smallest version up to the cap that the payload fits, its total bits and its capacity
(45_qr_codewords.md R260 to R262). `Inv` supplies legal parameters. -/
def Obligations.QrSelectFindsTheSmallestVersion : Prop :=
  ∀ (s : State) (e : Ecc), Inv s → s.inLen.toNat ≤ 512 →
    (∃ u, 1 ≤ u ∧ u ≤ s.params.maxVersion ∧ fits s.inLen.toNat u e = true) →
    ∃ t v, Completes (.qrSelect e) s t [.res0, .res1, .res2] nothing ∧ t.res.r0.toNat = v ∧
      1 ≤ v ∧ v ≤ s.params.maxVersion ∧ fits s.inLen.toNat v e = true ∧
      (∀ u, 1 ≤ u → u < v → fits s.inLen.toNat u e = false) ∧
      t.res.r1.toNat = 4 + ccBits v + 8 * s.inLen.toNat ∧ t.res.r2.toNat = 8 * dataCodewords v e

/-- 47_qr_penalty.md R363: with the default cap QR_ENCODE fails with PAYLOAD_TOO_LARGE exactly above 271, 213, 151, 119
bytes (IN_LEN up to 512, above which it reports RANGE), and succeeds up to them. -/
def Obligations.QrEncodeCapacityBoundary : Prop :=
  ∀ (s : State) (e : Ecc), s.params.maxVersion = 10 → s.inLen.toNat ≤ 512 →
    (exec (.qrEncode e) s = s.raise .payloadTooLarge ↔ perLevel 271 213 151 119 e < s.inLen.toNat) ∧
    (s.inLen.toNat ≤ perLevel 271 213 151 119 e →
      ∃ t, exec (.qrEncode e) s = .next t ∧ t.status = s.status.completed)

/-- QR_ASSEMBLE leaves in BITS the segment, up to four terminator bits, zero bits to the byte boundary, alternating pad bytes
up to the capacity, and zero bytes after it (45_qr_codewords.md R263, R265). -/
def Obligations.QrAssembleBuildsTheDataCodewords : Prop :=
  ∀ (s : State) (v c n p : Nat) (e : Ecc), 1 ≤ v → v ≤ 10 → c = (if v ≤ 9 then 8 else 16) → n = s.inLen.toNat →
    n ≤ 2 ^ c - 1 → 4 + c + 8 * n ≤ 8 * dataCodewords v e →
    p = (min (8 * dataCodewords v e) (4 + c + 8 * n + 4) + 7) / 8 →
    ∃ t, Completes (.qrAssemble v e) s t [.res0, .res1, .baLen] (span bitsBase 512) ∧
      t.baLen.toNat = 8 * dataCodewords v e ∧ t.res.r0.toNat = dataCodewords v e ∧
      t.res.r1.toNat + p = dataCodewords v e ∧
      (∀ k, k < 4 → t.streamBit k = decide (k = 1)) ∧
      (∀ k, k < c → t.streamBit (4 + k) = n.testBit (c - 1 - k)) ∧
      (∀ k j, k < n → j < 8 → t.streamBit (4 + c + 8 * k + j) = (s.lmByte (inBase + k)).getLsbD (7 - j)) ∧
      (∀ k, 4 + c + 8 * n ≤ k → k < 8 * p → t.streamBit k = false) ∧
      (∀ j, p ≤ j → j < dataCodewords v e → t.lmByte (bitsBase + j) = if (j - p) % 2 = 0 then 0xEC else 0x11) ∧
      (∀ j, dataCodewords v e ≤ j → j < 512 → t.lmByte (bitsBase + j) = 0)

/-- QR_INTERLEAVE: where each data codeword of each block and each of its ECC codewords stands in CW, round-robin over the
blocks, data before ECC (45_qr_codewords.md R266 to R268, 43_capacity.md R209). -/
def Obligations.QrInterleavePlacesEveryCodeword : Prop :=
  ∀ (s : State) (v nb sd ns ec : Nat) (e : Ecc), 1 ≤ v → v ≤ 10 → nb = numBlocks v e → sd = (blockSplit v e).shortData →
    ns = (blockSplit v e).nShort → ec = eccPerBlock v e →
    ∃ t, Completes (.qrInterleave v e) s t [.res0, .cwLen] (span cwBase (rawCodewords v)) ∧
      t.cwLen.toNat = rawCodewords v ∧ t.res.r0.toNat = rawCodewords v ∧
      (∀ b i, b < nb → i < sd → t.lmByte (cwBase + i * nb + b) = s.lmByte (bitsBase + blockStart v e b + i)) ∧
      (∀ b, b < nb → ns ≤ b →
        t.lmByte (cwBase + sd * nb + (b - ns)) = s.lmByte (bitsBase + blockStart v e b + sd)) ∧
      (∀ b i, b < nb → i < ec →
        t.lmByte (cwBase + dataCodewords v e + i * nb + b) = (rsEcc (s.block v e b) ec).getD i 0)

/-! ## QR matrix -/

/-- QR_FUNC completes for versions 1 to 10: QR_INFO, the count of data cells in RES0, zero bytes outside the symbol, and a
function plane that depends on the version alone (46_qr_matrix.md R309). -/
def Obligations.QrFuncDrawsByVersionAlone : Prop :=
  ∀ v : Nat, 1 ≤ v → v ≤ 10 → ∃ plane : Nat → Byte,
    (∀ x y, x < 64 → y < 64 → (4 * v + 17 ≤ x ∨ 4 * v + 17 ≤ y) → plane (64 * y + x) = 0) ∧
    ∀ (s : State) (e : Ecc), ∃ t, Completes (.qrFunc v e) s t [.res0, .qrInfo] (span gridBase 4096) ∧
      (∀ a, a < 4096 → t.lmByte (gridBase + a) = plane a) ∧
      t.qrInfo.version.toNat = v ∧ t.qrInfo.size.toNat = 4 * v + 17 ∧ t.qrInfo.ecc = e ∧ t.qrInfo.mask = 0 ∧
      t.qrInfo.funcValid = true ∧ t.qrInfo.maskValid = false ∧ t.res.r0.toNat = t.countDataCells (4 * v + 17)

/-- What QR_FUNC draws where: finders, separators, timing lines, alignment patterns, reserved format cells, the dark module,
version blocks (46_qr_matrix.md R301 to R308). -/
def Obligations.QrFuncDrawsThePatterns : Prop :=
  ∀ (v n : Nat) (e : Ecc) (s : State), 1 ≤ v → v ≤ 10 → n = 4 * v + 17 → ∃ t, exec (.qrFunc v e) s = .next t ∧
    (∀ cx cy x y, (cx, cy) ∈ [(3, 3), (n - 4, 3), (3, n - 4)] → x < n → y < n →
      (cheb x y cx cy ≤ 3 → t.functionModule x y (cheb x y cx cy != 2)) ∧
      (cheb x y cx cy = 4 → t.functionModule x y false)) ∧
    (∀ i, 8 ≤ i → i + 8 < n → t.functionModule i 6 (i % 2 == 0) ∧ t.functionModule 6 i (i % 2 == 0)) ∧
    (∀ cx cy x y, (cx, cy) ∈ alignmentCentres v → cheb x y cx cy ≤ 2 → t.functionModule x y (cheb x y cx cy != 1)) ∧
    (∀ i, i ≤ 14 → t.functionModule (fmt1 i).1 (fmt1 i).2 false ∧ t.functionModule (fmt2 i n).1 (fmt2 i n).2 false) ∧
    t.functionModule 8 (n - 8) true ∧
    (7 ≤ v → ∀ i, i < 18 → t.functionModule (n - 11 + i % 3) (i / 3) ((verInfo v).testBit i) ∧
      t.functionModule (i / 3) (n - 11 + i % 3) ((verInfo v).testBit i))

/-- QR_PLACE: the data cells are the cells of the symbol that are no function modules, each exactly once (column 6, which
the traversal of R310 leaves out, holds function modules only unless the host edits GRID); the k-th of them shows the k-th
bit of the codeword stream, or 0 once the stream is used up, inverted where the mask says; no other cell is written
(46_qr_matrix.md R310 to R314). RES1 counts the remainder cells or, for a stream longer than the data cells, the bits that
are ignored; the second count is that of 92_eei_decisions.md D46, the model's choice against R314's pseudocode (log
entry 16). -/
def Obligations.QrPlaceWritesTheMaskedStream : Prop :=
  ∀ (s : State) (m n : Nat), Inv s → s.qrInfo.funcValid = true → n = s.qrInfo.size.toNat → m < 8 →
    (s.dataCells n).Nodup ∧
    (∀ x y, (x, y) ∈ s.dataCells n ↔ x < n ∧ y < n ∧ x ≠ 6 ∧ s.func x y = false) ∧
    ∃ t, Completes (.qrPlace m) s t [.res0, .res1, .qrInfo]
        (fun a => ∃ p ∈ s.dataCells n, a = gridBase + 64 * p.2 + p.1) ∧
      (∀ k x y, (s.dataCells n)[k]? = some (x, y) → t.lmByte (gridBase + 64 * y + x) =
        if ((decide (k < 8 * s.cwLen.toNat) && (s.lmByte (cwBase + k / 8)).getLsbD (7 - k % 8)) ^^ maskFn m x y) = true
        then 1 else 0) ∧
      t.res.r0.toNat = min (s.dataCells n).length (8 * s.cwLen.toNat) ∧
      t.res.r1.toNat = (if 8 * s.cwLen.toNat ≤ (s.dataCells n).length then (s.dataCells n).length - 8 * s.cwLen.toNat
        else 8 * s.cwLen.toNat - (s.dataCells n).length) ∧
      t.qrInfo = { s.qrInfo with mask := BitVec.ofNat 3 m, maskValid := true }

/-- QR_FORMAT writes the 15 bits of the format word of QR_INFO.ECC and the command's mask at both copies of the format cells,
as function modules, and no other cell (46_qr_matrix.md R322 to R324). -/
def Obligations.QrFormatWritesBothCopies : Prop :=
  ∀ (s : State) (m n : Nat), Inv s → s.qrInfo.funcValid = true → n = s.qrInfo.size.toNat → m < 8 →
    ∃ t, Completes (.qrFormat m) s t [.res0]
        (fun a => ∃ i, i ≤ 14 ∧ (a = cellOffset (fmt1 i).1 (fmt1 i).2 ∨ a = cellOffset (fmt2 i n).1 (fmt2 i n).2)) ∧
      t.res.r0.toNat = fmtWord s.qrInfo.ecc m ∧
      (∀ i, i ≤ 14 → t.functionModule (fmt1 i).1 (fmt1 i).2 ((fmtWord s.qrInfo.ecc m).testBit i) ∧
        t.functionModule (fmt2 i n).1 (fmt2 i n).2 ((fmtWord s.qrInfo.ecc m).testBit i))

/-- 46_qr_matrix.md R328: after the function patterns of a version are drawn, no sequence of tries (the placement with a mask,
then the format write of that mask, as QR_ENCODE makes them) changes which cells are function modules, nor the colour of a function module that is no format cell; the format cells
show the word of the last mask, and the words of different masks differ. -/
def Obligations.FunctionCellsAreInvariantUnderMasking : Prop :=
  ∀ (s d t : State) (v n : Nat) (e : Ecc) (masks : List Nat), 1 ≤ v → v ≤ 10 → n = 4 * v + 17 →
    d = s.drawFunctions v e → t = (d.tryMasks e n masks).1 →
    (∀ x y, x < 64 → y < 64 → t.func x y = d.func x y ∧
      (d.func x y = true → (∀ i, i ≤ 14 → (x, y) ≠ fmt1 i ∧ (x, y) ≠ fmt2 i n) → t.dark x y = d.dark x y)) ∧
    (∀ m, masks.getLast? = some m → ∀ i, i ≤ 14 →
      t.dark (fmt1 i).1 (fmt1 i).2 = (fmtWord e m).testBit i ∧
      t.dark (fmt2 i n).1 (fmt2 i n).2 = (fmtWord e m).testBit i) ∧
    (∀ m m', m < 8 → m' < 8 → m ≠ m' → fmtWord e m ≠ fmtWord e m')

/-- MASK_EVAL, FMT_BCH and VER_BCH complete with their results and write nothing else: the mask conditions of R315 (each
mask is 1 at (0, 0)); the format data, and below it the remainder that makes the word a multiple of 0x537 over GF(2), then
XORed with 0x5412; the version above the remainder that makes the word a multiple of 0x1F25 (46_qr_matrix.md R315 to R321,
R326, R327). -/
def Obligations.MaskAndBchCommandsReturnTheirWords : Prop :=
  (∀ (s : State) (m x y : Nat), m ≤ 7 → ∃ t, Completes (.maskEval m x y) s t [.res0] nothing ∧
    (t.res.r0 = 0 ∨ t.res.r0 = 1) ∧ (x = 0 → y = 0 → t.res.r0 = 1) ∧
    (m = 0 → (t.res.r0 = 1 ↔ (x + y) % 2 = 0)) ∧ (m = 1 → (t.res.r0 = 1 ↔ y % 2 = 0)) ∧
    (m = 2 → (t.res.r0 = 1 ↔ x % 3 = 0)) ∧ (m = 3 → (t.res.r0 = 1 ↔ (x + y) % 3 = 0)) ∧
    (m = 4 → (t.res.r0 = 1 ↔ (x / 3 + y / 2) % 2 = 0)) ∧
    (m = 5 → (t.res.r0 = 1 ↔ x * y % 2 + x * y % 3 = 0)) ∧
    (m = 6 → (t.res.r0 = 1 ↔ (x * y % 2 + x * y % 3) % 2 = 0)) ∧
    (m = 7 → (t.res.r0 = 1 ↔ ((x + y) % 2 + x * y % 3) % 2 = 0))) ∧
  (∀ (s : State) (e : Ecc) (m : Nat), m ≤ 7 → ∃ t, Completes (.fmtBch e m) s t [.res0, .res1, .res2] nothing ∧
    t.res.r1.toNat = 8 * fmtEcc e + m ∧ t.res.r2.toNat < 2 ^ 10 ∧
    (∃ q, gf2Mul q 0x537 = 2 ^ 10 * t.res.r1.toNat + t.res.r2.toNat) ∧
    t.res.r0.toNat = (2 ^ 10 * t.res.r1.toNat + t.res.r2.toNat) ^^^ 0x5412) ∧
  (∀ (s : State) (v : Nat), v < 64 → ∃ t, Completes (.verBch v) s t [.res0, .res1] nothing ∧
    t.res.r1.toNat < 2 ^ 12 ∧ t.res.r0.toNat = 2 ^ 12 * v + t.res.r1.toNat ∧ ∃ q, gf2Mul q 0x1F25 = t.res.r0.toNat)

/-! ## QR penalty and full encode -/

/-- The run costs of a line are the sum over its maximal runs of 3 + (length − 5) for lengths from 5 (47_qr_penalty.md
R350). -/
def Obligations.RunCostsSumOverMaximalRuns : Prop :=
  ∀ line : List Bool, lineRunCost line =
    ((List.range line.length).map (fun k => if 5 ≤ runFrom line k then 3 + (runFrom line k - 5) else 0)).sum

/-- QR_PENALTY completes once function patterns are drawn: RES0 to RES3 are the four penalties, RES4 their sum without
overflow, and only the DARK bits of the symbol matter (47_qr_penalty.md R354, R356). -/
def Obligations.QrPenaltyScoresTheDarkBits : Prop :=
  ∀ (s : State) (n : Nat), Inv s → s.qrInfo.funcValid = true → n = s.qrInfo.size.toNat →
    ∃ t, Completes .qrPenalty s t [.res0, .res1, .res2, .res3, .res4] nothing ∧
      t.res.r0.toNat = penaltyN1 (s.lines n) ∧ t.res.r1.toNat = penaltyN2 s.dark n ∧
      t.res.r2.toNat = penaltyN3 (s.lines n) ∧ t.res.r3.toNat = penaltyN4 (s.darkCount n) (n * n) ∧
      t.res.r4.toNat = t.res.r0.toNat + t.res.r1.toNat + t.res.r2.toNat + t.res.r3.toNat ∧
      ∀ s' t' : State, s'.qrInfo = s.qrInfo → (∀ x y, x < n → y < n → s'.dark x y = s.dark x y) →
        exec .qrPenalty s' = .next t' → t'.res = t.res

/-- QR_ENCODE completes where some version fits: what it leaves in its registers, and which bytes it may write
(47_qr_penalty.md R358). -/
def Obligations.QrEncodeCompletesWithItsSymbol : Prop :=
  ∀ (s : State) (e : Ecc) (v : Nat), Inv s → s.inLen.toNat ≤ 512 → 1 ≤ v → v ≤ s.params.maxVersion →
    fits s.inLen.toNat v e = true → (∀ u, 1 ≤ u → u < v → fits s.inLen.toNat u e = false) →
    ∃ t, Completes (.qrEncode e) s t (Instr.regsWritten (.qrEncode e))
        (fun a => span bitsBase 512 a ∨ span cwBase (rawCodewords v) a ∨ span gridBase 4096 a) ∧
      t.res.r0.toNat = v ∧ t.res.r1.toNat = t.qrInfo.mask.toNat ∧ t.res.r2 = t.pen.get t.qrInfo.mask.toNat ∧
      t.res.r3.toNat = 4 * v + 17 ∧ t.baLen.toNat = 8 * dataCodewords v e ∧ t.cwLen.toNat = rawCodewords v ∧
      t.qrInfo.version.toNat = v ∧ t.qrInfo.size.toNat = 4 * v + 17 ∧ t.qrInfo.ecc = e ∧
      t.qrInfo.funcValid = true ∧ t.qrInfo.maskValid = true

/-- 47_qr_penalty.md R361: the chosen mask's penalty is the least, and less than that of every lower mask. -/
def Obligations.QrEncodeChoosesTheLeastPenalty : Prop :=
  ∀ (s t : State) (e : Ecc), exec (.qrEncode e) s = .next t → t.status.err = false → ∀ m, m < 8 →
    (t.pen.get t.qrInfo.mask.toNat).toNat ≤ (t.pen.get m).toNat ∧
    (m < t.qrInfo.mask.toNat → (t.pen.get t.qrInfo.mask.toNat).toNat < (t.pen.get m).toNat)

/-- 47_qr_penalty.md R360: the end state of QR_ENCODE is a function of the input bytes, their number, the level and the
version cap: two runs from states that agree on these end with the same error or with the same symbol, penalties and
results, whatever else the states hold. -/
def Obligations.QrEncodeDependsOnItsInputOnly : Prop :=
  ∀ (s s' t t' : State) (e : Ecc), Inv s → Inv s' → s.params.maxVersion = s'.params.maxVersion → s.inLen = s'.inLen →
    s.inBytes = s'.inBytes → exec (.qrEncode e) s = .next t → exec (.qrEncode e) s' = .next t' →
    t.status.errCode = t'.status.errCode ∧
    (t.status.err = false → SameSymbol t t' ∧ t.pen = t'.pen ∧ t.res.r0 = t'.res.r0 ∧ t.res.r1 = t'.res.r1 ∧
      t.res.r2 = t'.res.r2 ∧ t.res.r3 = t'.res.r3)

/-- 47_qr_penalty.md R362: QR_ENCODE leaves what the single commands leave: select, assemble, interleave, draw, then for
each mask place, format and score, then place and format with the mask chosen from the scores; the two end states differ
in the RES registers and in PEN0 to PEN7 only. -/
def Obligations.QrEncodeMatchesTheSingleCommands : Prop :=
  ∀ (s t : State) (e : Ecc), Inv s → exec (.qrEncode e) s = .next t → t.status.err = false →
    ∃ (a b c u : State) (v best : Nat) (scores : List Word),
      exec (.qrSelect e) s = .next a ∧ a.res.r0.toNat = v ∧
      runCommands [.qrAssemble v e, .qrInterleave v e, .qrFunc v e] a = some b ∧
      runTrials [0, 1, 2, 3, 4, 5, 6, 7] b = some (c, scores) ∧ best = chooseMask (PenRegs.ofList scores) ∧
      runCommands [.qrPlace best, .qrFormat best] c = some u ∧
      t = { u with res := t.res, pen := PenRegs.ofList scores }

/-! ## Code128 -/

/-- C128_MAP and C128_PATTERN complete with their results and write nothing else: the value with its substitution flag; the
width digits as nibbles, their number and their sum (48_code128.md R371, R374, R375). -/
def Obligations.C128LookupsReturnTheirEntries : Prop :=
  (∀ (s : State) (u : Half), ∃ t, Completes (.c128Map u) s t [.res0, .res1] nothing ∧
    (0x20 ≤ u.toNat ∧ u.toNat ≤ 0x7E → t.res.r0.toNat + 32 = u.toNat ∧ t.res.r1 = 0) ∧
    (u.toNat < 0x20 ∨ 0x7E < u.toNat → t.res.r0 = 31 ∧ t.res.r1 = 1)) ∧
  (∀ (s : State) (v : Nat), v ≤ 106 → ∃ t, Completes (.c128Pattern v) s t [.res0, .res1, .res2] nothing ∧
    t.res.r1.toNat = (c128Pattern s.params.stopTerm v).length ∧
    t.res.r2.toNat = (c128Pattern s.params.stopTerm v).sum ∧
    ∀ k, k < 8 → t.res.r0.toNat / 16 ^ k % 16 = (c128Pattern s.params.stopTerm v).getD k 0)

/-- C128_CHECKSUM completes for up to 80 characters: the weighted sum and its remainder by 103 (48_code128.md R376, R377). -/
def Obligations.C128ChecksumIsTheWeightedSum : Prop :=
  ∀ s : State, s.chrLen.toNat ≤ 80 → ∃ t, Completes .c128Checksum s t [.res0, .res1] nothing ∧
    t.res.r1.toNat = 104 + ((List.range s.chrLen.toNat).map (fun k => s.c128Value k * (k + 1))).sum ∧
    t.res.r0.toNat = t.res.r1.toNat % 103

/-- C128_ENCODE completes for up to 80 characters: the codeword sequence in C128CW, every bar's abscissa and width in BARS,
the counts, the total width; and so the end state is a function of the characters, their number and the stop option
(48_code128.md R373, R378 to R380). -/
def Obligations.C128EncodeStoresCodewordsAndBars : Prop :=
  ∀ (s : State) (c x : Nat), s.chrLen.toNat = c → c ≤ 80 → x = s.params.stopTerm.toNat →
    ∃ (t : State) (seq : Nat → Nat), Completes .c128Encode s t (Instr.regsWritten .c128Encode)
        (fun a => span c128CwBase (c + 3) a ∨ span barsBase (4 * (3 * (c + 3) + x)) a) ∧
      seq 0 = 104 ∧ (∀ k, k < c → seq (k + 1) = s.c128Value k) ∧
      seq (c + 1) = (104 + ((List.range c).map (fun k => s.c128Value k * (k + 1))).sum) % 103 ∧ seq (c + 2) = 106 ∧
      (∀ j, j < c + 3 → (t.lmByte (c128CwBase + j)).toNat = seq j) ∧
      (∀ j i, j < c + 3 → 2 * i < (c128Pattern s.params.stopTerm (seq j)).length →
        t.memRead (barsBase + 4 * (3 * j + i)) 2 =
          11 * j + ((c128Pattern s.params.stopTerm (seq j)).take (2 * i)).sum ∧
        (t.lmByte (barsBase + 4 * (3 * j + i) + 2)).toNat = (c128Pattern s.params.stopTerm (seq j)).getD (2 * i) 0 ∧
        t.lmByte (barsBase + 4 * (3 * j + i) + 3) = 0) ∧
      t.c128CwLen.toNat = c + 3 ∧ t.barCount.toNat = 3 * (c + 3) + x ∧ t.barWidth.toNat = 11 * (c + 3) + 2 * x ∧
      t.res.r0.toNat = seq (c + 1) ∧ t.res.r1.toNat = t.barCount.toNat ∧ t.res.r2.toNat = t.barWidth.toNat

/-! ## Resets -/

/-- 70_reset_and_hazards.md R451: after a hardware reset every register reads its reset value, the core is idle, irq is 0,
no LM byte has a definite value, and the grid commands report SEQ. -/
def Obligations.HardwareResetGivesTheResetState : Prop :=
  ∀ s : State, s.params.legal = true → ∃ t, s.hostStep .hardwareReset = .next t ∧
    (∀ r : Reg, t.readReg r = Reg.resetValue s.params r) ∧ t.status = Status.reset ∧ t.irq = false ∧
    t.lm = [] ∧
    (∀ m, exec (.qrPlace m) t = t.raise .seq ∧ exec (.qrFormat m) t = t.raise .seq) ∧
    exec .qrPenalty t = t.raise .seq

/-- 70_reset_and_hazards.md R452: a write of 1 to CTRL.SOFT_RESET, at once, whether or not a command runs: the command is
gone, every register reads its reset value, LM keeps its contents except the regions the aborted command could write. -/
def Obligations.SoftResetAbortsAndResets : Prop :=
  ∀ (s : State) (v : Word), Inv s → v.getLsbD 1 = true → ∃ t, s.hostStep (wr s.params 0x008 v) = .next t ∧
    (∀ r : Reg, t.readReg r = Reg.resetValue s.params r) ∧ t.status = Status.reset ∧ t.irq = false ∧
    (s.status.busy = false → LmKept s t nothing) ∧
    (∀ i, s.status.busy = true → decode s.lastCmd = .ok i →
      LmKept s t (fun a => ∃ r ∈ Instr.lmRegions i, r.holds a = true)) ∧
    (∀ e, s.status.busy = true → decode s.lastCmd = .error e → LmKept s t nothing)

/-- What a reset leaves unspecified reads as a free value: every LM byte after a hardware reset, every byte of the regions of
an aborted command. That these are fresh draws of the model's free values, and whole regions, is the model's choice (log
entries 3 and 8). -/
def Obligations.ResetsLeaveUnspecifiedBytesFree : Prop :=
  ∀ s : State,
    (∀ a, a < lmEnd → State.reset.lmByte a = Config.freeByte 0 a ∧ s.hardReset.lmByte a = Config.freeByte s.draw a) ∧
    (∀ (i : Instr) (a : Nat), s.status.busy = true → decode s.lastCmd = .ok i →
      (∃ r ∈ Instr.lmRegions i, r.holds a = true) → s.softReset.lmByte a = Config.freeByte s.draw a)

/-! ## The host interface -/

/-- 10_state.md R35: a CMD write while idle is accepted and runs as the command it encodes, one while busy is dropped; CMD
reads 0. -/
def Obligations.CmdWriteIsAcceptedOrDropped : Prop :=
  ∀ (s : State) (w : Word),
    (s.status.busy = false → ∃ t, s.hostStep (wr s.params 0x010 w) = .next t ∧ t.lastCmd = w ∧
      t.status = { busy := true, done := false, err := false, drop := s.status.drop, errCode := .noError } ∧
      RegsKept s t [.lastCmd] ∧ LmKept s t nothing ∧ ∀ i, decode w = .ok i → t.completeCommand = exec i t) ∧
    (s.status.busy = true → s.hostStep (wr s.params 0x010 w) =
      .next { s with status := { s.status with drop := true } }) ∧
    s.regRead 0x010 = 0

/-- 70_reset_and_hazards.md R462: while BUSY = 1 a write to CMD, ARG0 to ARG2, IN_LEN, CHR_LEN or any LM offset only sets
DROP; a write to a read-only register or a reserved offset is ignored without setting DROP; writes to STATUS and CTRL take
effect. That a write to the reserved LM range counts as dropped is DEDUCED (log entry 7). -/
def Obligations.WritesWhileBusyAreDropped : Prop :=
  ∀ (s : State) (v : Word), s.status.busy = true → s.params.legal = true →
    (∀ r ∈ droppable, s.hostStep (wr s.params r.offset v) = .next { s with status := { s.status with drop := true } }) ∧
    (∀ (a : Nat) (w : Width), a < 0x4000 → a % w.bytes = 0 →
      s.hostStep (.write (s.params.lmBase + a) w v) = .next { s with status := { s.status with drop := true } }) ∧
    (∀ off, off < 4096 → off % 4 = 0 → (∀ r ∈ droppable, off ≠ r.offset) → off ≠ Reg.offset .ctrl →
      off ≠ Reg.offset .status → s.hostStep (wr s.params off v) = .next s) ∧
    s.hostStep (wr s.params 0x00C v) = .next { s with status := s.status.writeOneToClear v } ∧
    (v.getLsbD 1 = false → s.hostStep (wr s.params 0x008 v) = .next { s with irqEn := v.getLsbD 0 }) ∧
    (v.getLsbD 1 = true → s.hostStep (wr s.params 0x008 v) = .next s.softReset)

/-- While a command runs nothing but the host's writes of CTRL and STATUS changes a register, and nothing changes LM:
every read returns the pre-command value, BUSY = 1 and the running word (70_reset_and_hazards.md R461, R464). -/
def Obligations.NothingChangesBeforeCompletion : Prop :=
  ∀ s t : State, s.status.busy = true → step s = .next t → t.status.busy = true →
    RegsKept s t [.ctrl] ∧ LmKept s t nothing ∧ t.readReg .lastCmd = s.lastCmd ∧
    (t.readReg .status).getLsbD 0 = true

/-- STATUS: the places of its fields, and what a host write of it does: a 1 clears DONE, ERR with ERRCODE, DROP; BUSY and
the reserved bits ignore the write (10_state.md R34). -/
def Obligations.StatusFieldsAndWriteOneToClear : Prop :=
  ∀ (s : State) (v : Word),
    (s.readReg .status).toNat = s.status.busy.toNat + 2 * s.status.done.toNat + 4 * s.status.err.toNat +
      8 * s.status.drop.toNat + 256 * s.status.errCode.code ∧
    ∃ t, s.hostStep (wr s.params 0x00C v) = .next t ∧ t.status.busy = s.status.busy ∧
      (t.status.done = true ↔ s.status.done = true ∧ v.getLsbD 1 = false) ∧
      (t.status.err = true ↔ s.status.err = true ∧ v.getLsbD 2 = false) ∧
      (t.status.errCode = if v.getLsbD 2 then .noError else s.status.errCode) ∧
      (t.status.drop = true ↔ s.status.drop = true ∧ v.getLsbD 3 = false) ∧
      RegsKept s t [] ∧ LmKept s t nothing

/-- 10_state.md R48: an offset of the register window not in the table reads 0 and ignores writes; reserved bits of every
register read 0 and ignore writes. -/
def Obligations.ReservedOffsetsAndBitsReadZero : Prop :=
  (∀ (s : State) (off : Nat) (v : Word), off < 4096 → off % 4 = 0 → (∀ r : Reg, r.offset ≠ off) →
    s.hostStep (rd s.params off) = .next { s with rdata := some 0 } ∧ s.hostStep (wr s.params off v) = .next s) ∧
  (∀ (s : State) (r : Reg), s.readReg r &&& ~~~(Reg.implemented r) = 0) ∧
  (∀ (s : State) (r : Reg) (v v' : Word), v &&& Reg.implemented r = v' &&& Reg.implemented r →
    s.writeReg r v = s.writeReg r v')

/-- The host reads every register and reads back what it wrote to ARG0 to ARG2, IN_LEN, CHR_LEN and CTRL while idle, after the
field truncation; no read changes anything but the data the host sees (10_state.md R30, R33, R37, R39, R40;
20_memory.md R89). -/
def Obligations.RegisterWritesReadBack : Prop :=
  ∀ (s : State) (v : Word),
    (∀ r : Reg, s.hostStep (rd s.params r.offset) = .next { s with rdata := some (s.readReg r) }) ∧
    (s.status.busy = false → ∀ r ∈ [Reg.arg0, .arg1, .arg2, .inLen, .chrLen], ∃ t,
      s.hostStep (wr s.params r.offset v) = .next t ∧ t.readReg r = v &&& Reg.implemented r ∧
      t.status = s.status ∧ RegsKept s t [r] ∧ LmKept s t nothing) ∧
    (v.getLsbD 1 = false → ∃ t, s.hostStep (wr s.params 0x008 v) = .next t ∧ t.readReg .ctrl = v &&& 1 ∧
      t.status = s.status ∧ RegsKept s t [.ctrl] ∧ LmKept s t nothing)

/-- 20_memory.md R87 and R88: in the register window every access but an aligned 32-bit one, in the LM window every
misaligned access, is a fault of the host step; the others are not. -/
def Obligations.BusErrorsAreExactlyTheBadAccesses : Prop :=
  ∀ (s : State) (off : Nat) (w : Width) (v : Word), s.params.legal = true →
    (off < 4096 → ¬ (w = .w32 ∧ off % 4 = 0) →
      s.hostStep (.write (s.params.regBase + off) w v) = .fault (.busError (.write (s.params.regBase + off) w v)) ∧
      s.hostStep (.read (s.params.regBase + off) w) = .fault (.busError (.read (s.params.regBase + off) w))) ∧
    (off < 4096 → w = .w32 → off % 4 = 0 →
      (∃ t, s.hostStep (.write (s.params.regBase + off) w v) = .next t) ∧
      ∃ t, s.hostStep (.read (s.params.regBase + off) w) = .next t) ∧
    (off < 0x4000 → off % w.bytes ≠ 0 →
      s.hostStep (.write (s.params.lmBase + off) w v) = .fault (.busError (.write (s.params.lmBase + off) w v)) ∧
      s.hostStep (.read (s.params.lmBase + off) w) = .fault (.busError (.read (s.params.lmBase + off) w))) ∧
    (off < 0x4000 → off % w.bytes = 0 →
      (∃ t, s.hostStep (.write (s.params.lmBase + off) w v) = .next t) ∧
      ∃ t, s.hostStep (.read (s.params.lmBase + off) w) = .next t)

/-- 20_memory.md R75 and R86: an aligned LM access of n bytes reads or writes exactly those bytes, the byte at the lowest
offset least significant; the reserved range reads 0 and ignores writes (the writes here are those while idle: R462). -/
def Obligations.LmAccessesAreLittleEndian : Prop :=
  ∀ (s : State) (a : Nat) (w : Width) (v : Word), s.params.legal = true → a < 0x4000 → a % w.bytes = 0 →
    (s.status.busy = false → a < 0x2100 → ∃ t, s.hostStep (.write (s.params.lmBase + a) w v) = .next t ∧
      (∀ k, k < w.bytes → t.lmByte (a + k) = v.extractLsb' (8 * k) 8) ∧ LmKept s t (span a w.bytes) ∧
      t.status = s.status ∧ RegsKept s t []) ∧
    (s.status.busy = false → 0x2100 ≤ a → s.hostStep (.write (s.params.lmBase + a) w v) = .next s) ∧
    (∃ d : Word, s.hostStep (.read (s.params.lmBase + a) w) = .next { s with rdata := some d } ∧
      (∀ k, k < w.bytes → d.extractLsb' (8 * k) 8 = s.lmByte (a + k)) ∧ d.toNat < 256 ^ w.bytes ∧
      (0x2100 ≤ a → d = 0))

/-- 60_exceptions.md R419: when irq rises and falls. -/
def Obligations.IrqFollowsDoneAndEnable : Prop :=
  (∀ s t : State, s.completeCommand = .next t → t.irq = s.irqEn) ∧
  (∀ (s : State) (v : Word), v.getLsbD 1 = false → ∃ t, s.hostStep (wr s.params 0x008 v) = .next t ∧
    t.irq = (v.getLsbD 0 && s.status.done)) ∧
  (∀ (s : State) (v : Word), v.getLsbD 1 = true → ∃ t, s.hostStep (wr s.params 0x00C v) = .next t ∧ t.irq = false) ∧
  (∀ (s : State) (w : Word), s.status.busy = false → ∃ t, s.hostStep (wr s.params 0x010 w) = .next t ∧ t.irq = false) ∧
  (∀ s : State, s.hardReset.irq = false ∧ s.softReset.irq = false)

/-! ## The whole machine -/

/-- 70_reset_and_hazards.md R466: a running command completes after finitely many steps, unless a reset is to come. The
number of steps is bounded by the model's free latency (log entry 2). -/
def Obligations.RunningCommandsComplete : Prop :=
  ∀ s : State, s.status.busy = true → s.inputsAnswered → (∀ i ∈ s.inputs, i.resets s.params = false) →
    ∃ (k : Nat) (t u : State), k ≤ s.wait ∧ Sys2Proof.core.run k s = .next t ∧ t.lastCmd = s.lastCmd ∧
      t.status.busy = true ∧ step t = t.completeCommand ∧ step t = .next u ∧ u.status.busy = false ∧ u.status.done = true

/-- No result depends on latency (70_reset_and_hazards.md R466, 00_scope.md R25): a command reads none of the model's own
fields for the latency, the pending inputs and the last read, nor IRQ_EN, and leaves them alone. -/
def Obligations.ResultsDoNotDependOnLatency : Prop :=
  ∀ (i : Instr) (s t : State) (w d : Nat) (l : List HostInput) (r : Option Word) (b : Bool),
    exec i s = .next t →
    exec i { s with wait := w, draw := d, inputs := l, rdata := r, irqEn := b } =
      .next { t with wait := w, draw := d, inputs := l, rdata := r, irqEn := b }

/-- The parameters are fixed: no step changes them, so ID and CFG always read the same (10_state.md R31, R32). -/
def Obligations.NoStepChangesTheParameters : Prop :=
  ∀ s t : State, step s = .next t → t.params = s.params ∧ t.readReg .id = 0x53454301 ∧
    t.readReg .cfg = s.readReg .cfg

/-- An answered host never makes SEC fault or refuse, and stays answered: no command faults (60_exceptions.md R410, R417). -/
def Obligations.AnsweredHostsNeverFault : Prop :=
  ∀ s : State, s.inputsAnswered → ∃ t, step s = .next t ∧ t.inputsAnswered

/-- The invariant holds right after reset, for every legal choice of the parameters. The parameter values of `State.reset`
are the model's choice (log entry 4). -/
def Obligations.InvHoldsAtReset : Prop := Inv State.reset ∧ ∀ p : Params, p.legal = true → Inv (State.resetWith p)

/-- Every step keeps the invariant: LM in canonical form, STATUS and QR_INFO consistent, every length register in the range
the spec states (10_state.md R34, R41 to R46). -/
def Obligations.EveryStepKeepsTheInvariant : Prop := ∀ s t : State, Inv s → step s = .next t → Inv t
end

