-- ==== Sys2Proof/Laws/Memory.lean ====
section
/-! SUPPORT. The laws of the local memory: a read after a store, and the canonical form that every store keeps. -/

namespace Sys2Proof.Machine

/-! ## Reading the list of definite bytes -/

@[simp] theorem Memory.cells_nil (a : Nat) : Memory.cells a [] = [] := rfl

@[simp] theorem Memory.cells_cons (a : Nat) (b : Byte) (bs : List Byte) :
    Memory.cells a (b :: bs) = (a, b) :: Memory.cells (a + 1) bs := rfl

theorem Memory.mem_cells {a : Nat} {bs : List Byte} {c : Host.Cell} (h : c ∈ Memory.cells a bs) :
    a ≤ c.1 ∧ c.1 < a + bs.length := by
  induction bs generalizing a with
  | nil => simp at h
  | cons b bs ih =>
    simp only [Memory.cells_cons, List.mem_cons] at h
    obtain rfl | h := h
    · simp
    · have := ih h
      simp only [List.length_cons]
      omega

/-- A consecutive run of cells holds its bytes. -/
theorem Memory.lookup_cells (x a : Nat) (bs : List Byte) :
    (Memory.cells a bs).lookup x = if a ≤ x then bs[x - a]? else none := by
  induction bs generalizing a with
  | nil => simp
  | cons b bs ih =>
    simp only [Memory.cells_cons, List.lookup_cons, ih]
    by_cases h : x = a
    · simp [h]
    · have hb : (x == a) = false := by simpa using h
      simp only [hb]
      by_cases h' : a ≤ x
      · have h1 : a + 1 ≤ x := by omega
        have h2 : x - a = x - (a + 1) + 1 := by omega
        simp [h', h1, h2]
      · have h1 : ¬ a + 1 ≤ x := by omega
        simp [h', h1]

/-- A list filtered by a property of the key holds the bytes at the keys with the property. -/
theorem Memory.lookup_filter (x : Nat) (p : Nat → Bool) (m : List Host.Cell) :
    (m.filter (fun c => p c.1)).lookup x = if p x then m.lookup x else none := by
  induction m with
  | nil => simp
  | cons c m ih =>
    obtain ⟨k, b⟩ := c
    by_cases hk : x = k
    · subst hk
      by_cases hp : p x
      · simp [hp]
      · simp [hp, ih]
    · have hb : (x == k) = false := by simpa using hk
      by_cases hp : p k <;> simp [List.lookup_cons, hp, hb, ih]

/-- A read after a store: the stored byte inside the stored range, the old byte outside it. -/
theorem Memory.get?_store (m : List Host.Cell) (a : Nat) (bs : List Byte) (x : Nat) :
    Memory.get? (Memory.store m a bs) x =
      if a ≤ x ∧ x < a + bs.length then bs[x - a]? else Memory.get? m x := by
  simp only [Memory.get?, Memory.store, List.lookup_append, Memory.lookup_cells,
    Memory.lookup_filter x (fun k => decide (k < a)), Memory.lookup_filter x (fun k => decide (a + bs.length ≤ k))]
  by_cases h1 : x < a
  · have h2 : ¬ a ≤ x := by omega
    have h3 : ¬ a + bs.length ≤ x := by omega
    simp [h1, h2, h3]
  · by_cases h2 : x < a + bs.length
    · have h3 : a ≤ x := by omega
      have h4 : ¬ a + bs.length ≤ x := by omega
      simp [h1, h2, h3, h4]
    · have h3 : a ≤ x := by omega
      have h4 : a + bs.length ≤ x := by omega
      have h5 : bs.length ≤ x - a := by omega
      simp [h1, h2, h3, h4, List.getElem?_eq_none h5]

/-! ## The canonical form -/

theorem Memory.pairwise_cells (a : Nat) (bs : List Byte) :
    (Memory.cells a bs).Pairwise (fun c d => c.1 < d.1) := by
  induction bs generalizing a with
  | nil => simp
  | cons b bs ih =>
    simp only [Memory.cells_cons, List.pairwise_cons]
    exact ⟨fun d hd => by have := Memory.mem_cells hd; omega, ih (a + 1)⟩

/-- A store inside LM's storage keeps the canonical form. -/
theorem Memory.store_wf {m : List Host.Cell} (h : Memory.wf m) {a : Nat} {bs : List Byte}
    (hfit : a + bs.length ≤ lmEnd ∨ bs = []) : Memory.wf (Memory.store m a bs) := by
  obtain ⟨hs, hb⟩ := h
  constructor
  · simp only [Memory.store, List.pairwise_append]
    refine ⟨⟨hs.filter _, Memory.pairwise_cells a bs, ?_⟩, hs.filter _, ?_⟩
    · intro c hc d hd
      have h1 := (List.mem_filter.mp hc).2
      have h2 := Memory.mem_cells hd
      simp only [decide_eq_true_eq] at h1
      omega
    · intro c hc d hd
      have h3 := (List.mem_filter.mp hd).2
      simp only [decide_eq_true_eq] at h3
      rcases List.mem_append.mp hc with hc | hc
      · have h1 := (List.mem_filter.mp hc).2
        simp only [decide_eq_true_eq] at h1
        omega
      · have h2 := Memory.mem_cells hc
        omega
  · intro c hc
    simp only [Memory.store, List.mem_append] at hc
    rcases hc with (hc | hc) | hc
    · exact hb c (List.mem_filter.mp hc).1
    · have h2 := Memory.mem_cells hc
      rcases hfit with h | h
      · omega
      · simp [h] at hc
    · exact hb c (List.mem_filter.mp hc).1

/-- `lmStore` keeps the canonical form, whatever it is asked to store. -/
theorem lmStore_wf {s : State} (h : Memory.wf s.lm) (a : Nat) (bs : List Byte) : Memory.wf (s.lmStore a bs).lm := by
  refine Memory.store_wf h ?_
  by_cases hb : bs.take (lmEnd - a) = []
  · exact .inr hb
  · left
    have h1 : (bs.take (lmEnd - a)).length ≤ lmEnd - a := by simp
    have h2 : 0 < (bs.take (lmEnd - a)).length := List.length_pos_iff.mpr hb
    omega

/-- Empty memory has the canonical form. -/
theorem Memory.wf_nil : Memory.wf [] := by simp [Memory.wf]

/-- Memory after a reset has the canonical form. -/
theorem reset_memory_wf (p : Params) : Memory.wf (State.resetWith p).lm := Memory.wf_nil

/-! ## LM bytes -/

/-- Reading one byte after a store of bytes that lie inside LM's storage. -/
theorem lmByte_lmStore (s : State) (a : Nat) (bs : List Byte) (h : a + bs.length ≤ lmEnd) (x : Nat) :
    (s.lmStore a bs).lmByte x = if a ≤ x ∧ x < a + bs.length then bs.getD (x - a) 0 else s.lmByte x := by
  have ht : bs.take (lmEnd - a) = bs := List.take_of_length_le (by omega)
  simp only [State.lmByte, State.lmStore, ht, Memory.get?_store]
  by_cases hx : a ≤ x ∧ x < a + bs.length
  · have h1 : x < lmEnd := by omega
    have h2 : x - a < bs.length := by omega
    simp [hx, h1, List.getElem?_eq_getElem h2, List.getD_eq_getElem?_getD]
  · simp [hx]

/-- A store leaves every byte outside its range alone, also where it runs into the reserved range. -/
theorem lmByte_lmStore_of_not_mem (s : State) (a : Nat) (bs : List Byte) (x : Nat) (h : ¬ (a ≤ x ∧ x < a + bs.length)) :
    (s.lmStore a bs).lmByte x = s.lmByte x := by
  simp only [State.lmByte, State.lmStore, Memory.get?_store, List.length_take]
  have : ¬ (a ≤ x ∧ x < a + min (lmEnd - a) bs.length) := by omega
  simp [this]

/-- One stored byte reads back. -/
theorem lmByte_lmStore_one (s : State) (a : Nat) (b : Byte) (h : a < lmEnd) (x : Nat) :
    (s.lmStore a [b]).lmByte x = if x = a then b else s.lmByte x := by
  rw [lmByte_lmStore s a [b] (by simpa using h)]
  by_cases hx : x = a
  · simp [hx]
  · have : ¬ (a ≤ x ∧ x < a + [b].length) := by simp; omega
    simp only [this, hx, if_false]

/-- The bytes at consecutive offsets after they were stored. -/
theorem lmBytes_lmStore (s : State) (a : Nat) (bs : List Byte) (h : a + bs.length ≤ lmEnd) :
    (s.lmStore a bs).lmBytes a bs.length = bs := by
  apply List.ext_getElem
  · simp [State.lmBytes]
  · intro k h1 h2
    have hk : k < bs.length := h2
    simp [State.lmBytes, lmByte_lmStore s a bs h, hk]

@[simp] theorem length_lmBytes (s : State) (a n : Nat) : (s.lmBytes a n).length = n := by simp [State.lmBytes]

@[simp] theorem length_leBytes (n v : Nat) : (leBytes n v).length = n := by simp [leBytes]

/-- The reserved range reads 0 (20_memory.md R75). -/
theorem lmByte_reserved (s : State) {a : Nat} (h : lmEnd ≤ a) : s.lmByte a = 0 := by
  have : ¬ a < lmEnd := by omega
  simp [State.lmByte, this]

/-- A little-endian number of `n` bytes reads back as its low `n` bytes (20_memory.md R85). -/
theorem leNat_leBytes (n v : Nat) : leNat (leBytes n v) = v % 256 ^ n := by
  induction n generalizing v with
  | zero => simp [leBytes, leNat, Nat.mod_one]
  | succ n ih =>
    have h : leBytes (n + 1) v = byte v :: leBytes n (v / 256) := by
      simp only [leBytes, List.range_succ_eq_map, List.map_cons, List.map_map, Nat.pow_zero, Nat.div_one]
      congr 1
      apply List.map_congr_left
      intro k _
      simp only [Function.comp_apply, Nat.succ_eq_add_one, Nat.pow_succ, Nat.div_div_eq_div_mul, Nat.mul_comm]
    rw [h, leNat, ih, Nat.pow_succ, Nat.mul_comm (256 ^ n) 256, Nat.mod_mul]
    simp [byte, BitVec.toNat_ofNat]

end Sys2Proof.Machine
end

