-- ==== Sys2Proof/Laws/State.lean ====
section
/-! SUPPORT. One lemma per field of State per update, so that no proof unfolds a record update. -/

namespace Sys2Proof.Machine

/-! ## A store -/

@[simp] theorem lmStore_params (s : State) (a : Nat) (bs : List Byte) : (s.lmStore a bs).params = s.params := rfl
@[simp] theorem lmStore_irqEn (s : State) (a : Nat) (bs : List Byte) : (s.lmStore a bs).irqEn = s.irqEn := rfl
@[simp] theorem lmStore_status (s : State) (a : Nat) (bs : List Byte) : (s.lmStore a bs).status = s.status := rfl
@[simp] theorem lmStore_lastCmd (s : State) (a : Nat) (bs : List Byte) : (s.lmStore a bs).lastCmd = s.lastCmd := rfl
@[simp] theorem lmStore_arg (s : State) (a : Nat) (bs : List Byte) : (s.lmStore a bs).arg = s.arg := rfl
@[simp] theorem lmStore_res (s : State) (a : Nat) (bs : List Byte) : (s.lmStore a bs).res = s.res := rfl
@[simp] theorem lmStore_inLen (s : State) (a : Nat) (bs : List Byte) : (s.lmStore a bs).inLen = s.inLen := rfl
@[simp] theorem lmStore_chrLen (s : State) (a : Nat) (bs : List Byte) : (s.lmStore a bs).chrLen = s.chrLen := rfl
@[simp] theorem lmStore_baLen (s : State) (a : Nat) (bs : List Byte) : (s.lmStore a bs).baLen = s.baLen := rfl
@[simp] theorem lmStore_cwLen (s : State) (a : Nat) (bs : List Byte) : (s.lmStore a bs).cwLen = s.cwLen := rfl
@[simp] theorem lmStore_qrInfo (s : State) (a : Nat) (bs : List Byte) : (s.lmStore a bs).qrInfo = s.qrInfo := rfl
@[simp] theorem lmStore_barCount (s : State) (a : Nat) (bs : List Byte) : (s.lmStore a bs).barCount = s.barCount := rfl
@[simp] theorem lmStore_barWidth (s : State) (a : Nat) (bs : List Byte) : (s.lmStore a bs).barWidth = s.barWidth := rfl
@[simp] theorem lmStore_c128CwLen (s : State) (a : Nat) (bs : List Byte) : (s.lmStore a bs).c128CwLen = s.c128CwLen := rfl
@[simp] theorem lmStore_pen (s : State) (a : Nat) (bs : List Byte) : (s.lmStore a bs).pen = s.pen := rfl
@[simp] theorem lmStore_lmEpoch (s : State) (a : Nat) (bs : List Byte) : (s.lmStore a bs).lmEpoch = s.lmEpoch := rfl
@[simp] theorem lmStore_draw (s : State) (a : Nat) (bs : List Byte) : (s.lmStore a bs).draw = s.draw := rfl
@[simp] theorem lmStore_wait (s : State) (a : Nat) (bs : List Byte) : (s.lmStore a bs).wait = s.wait := rfl
@[simp] theorem lmStore_inputs (s : State) (a : Nat) (bs : List Byte) : (s.lmStore a bs).inputs = s.inputs := rfl
@[simp] theorem lmStore_rdata (s : State) (a : Nat) (bs : List Byte) : (s.lmStore a bs).rdata = s.rdata := rfl

/-! ## Appending a bit -/

@[simp] theorem appendBit_params (s : State) (b : Bool) : (s.appendBit b).params = s.params := rfl
@[simp] theorem appendBit_irqEn (s : State) (b : Bool) : (s.appendBit b).irqEn = s.irqEn := rfl
@[simp] theorem appendBit_status (s : State) (b : Bool) : (s.appendBit b).status = s.status := rfl
@[simp] theorem appendBit_lastCmd (s : State) (b : Bool) : (s.appendBit b).lastCmd = s.lastCmd := rfl
@[simp] theorem appendBit_arg (s : State) (b : Bool) : (s.appendBit b).arg = s.arg := rfl
@[simp] theorem appendBit_res (s : State) (b : Bool) : (s.appendBit b).res = s.res := rfl
@[simp] theorem appendBit_inLen (s : State) (b : Bool) : (s.appendBit b).inLen = s.inLen := rfl
@[simp] theorem appendBit_chrLen (s : State) (b : Bool) : (s.appendBit b).chrLen = s.chrLen := rfl
@[simp] theorem appendBit_cwLen (s : State) (b : Bool) : (s.appendBit b).cwLen = s.cwLen := rfl
@[simp] theorem appendBit_qrInfo (s : State) (b : Bool) : (s.appendBit b).qrInfo = s.qrInfo := rfl
@[simp] theorem appendBit_barCount (s : State) (b : Bool) : (s.appendBit b).barCount = s.barCount := rfl
@[simp] theorem appendBit_barWidth (s : State) (b : Bool) : (s.appendBit b).barWidth = s.barWidth := rfl
@[simp] theorem appendBit_c128CwLen (s : State) (b : Bool) : (s.appendBit b).c128CwLen = s.c128CwLen := rfl
@[simp] theorem appendBit_pen (s : State) (b : Bool) : (s.appendBit b).pen = s.pen := rfl
@[simp] theorem appendBit_lmEpoch (s : State) (b : Bool) : (s.appendBit b).lmEpoch = s.lmEpoch := rfl
@[simp] theorem appendBit_draw (s : State) (b : Bool) : (s.appendBit b).draw = s.draw := rfl
@[simp] theorem appendBit_wait (s : State) (b : Bool) : (s.appendBit b).wait = s.wait := rfl
@[simp] theorem appendBit_inputs (s : State) (b : Bool) : (s.appendBit b).inputs = s.inputs := rfl
@[simp] theorem appendBit_rdata (s : State) (b : Bool) : (s.appendBit b).rdata = s.rdata := rfl

@[simp] theorem appendBit_baLen (s : State) (b : Bool) :
    (s.appendBit b).baLen = BitVec.ofNat 13 (s.baLen.toNat + 1) := rfl

/-! ## Clearing the accumulator -/

@[simp] theorem clearBits_params (s : State) : (s.clearBits).params = s.params := rfl
@[simp] theorem clearBits_irqEn (s : State) : (s.clearBits).irqEn = s.irqEn := rfl
@[simp] theorem clearBits_status (s : State) : (s.clearBits).status = s.status := rfl
@[simp] theorem clearBits_lastCmd (s : State) : (s.clearBits).lastCmd = s.lastCmd := rfl
@[simp] theorem clearBits_arg (s : State) : (s.clearBits).arg = s.arg := rfl
@[simp] theorem clearBits_res (s : State) : (s.clearBits).res = s.res := rfl
@[simp] theorem clearBits_inLen (s : State) : (s.clearBits).inLen = s.inLen := rfl
@[simp] theorem clearBits_chrLen (s : State) : (s.clearBits).chrLen = s.chrLen := rfl
@[simp] theorem clearBits_cwLen (s : State) : (s.clearBits).cwLen = s.cwLen := rfl
@[simp] theorem clearBits_qrInfo (s : State) : (s.clearBits).qrInfo = s.qrInfo := rfl
@[simp] theorem clearBits_barCount (s : State) : (s.clearBits).barCount = s.barCount := rfl
@[simp] theorem clearBits_barWidth (s : State) : (s.clearBits).barWidth = s.barWidth := rfl
@[simp] theorem clearBits_c128CwLen (s : State) : (s.clearBits).c128CwLen = s.c128CwLen := rfl
@[simp] theorem clearBits_pen (s : State) : (s.clearBits).pen = s.pen := rfl
@[simp] theorem clearBits_lmEpoch (s : State) : (s.clearBits).lmEpoch = s.lmEpoch := rfl
@[simp] theorem clearBits_draw (s : State) : (s.clearBits).draw = s.draw := rfl
@[simp] theorem clearBits_wait (s : State) : (s.clearBits).wait = s.wait := rfl
@[simp] theorem clearBits_inputs (s : State) : (s.clearBits).inputs = s.inputs := rfl
@[simp] theorem clearBits_rdata (s : State) : (s.clearBits).rdata = s.rdata := rfl

@[simp] theorem clearBits_baLen (s : State) : s.clearBits.baLen = 0 := rfl

/-! ## A function module -/

@[simp] theorem setFunc_params (s : State) (x y : Nat) (d : Bool) : (s.setFunc x y d).params = s.params := rfl
@[simp] theorem setFunc_irqEn (s : State) (x y : Nat) (d : Bool) : (s.setFunc x y d).irqEn = s.irqEn := rfl
@[simp] theorem setFunc_status (s : State) (x y : Nat) (d : Bool) : (s.setFunc x y d).status = s.status := rfl
@[simp] theorem setFunc_lastCmd (s : State) (x y : Nat) (d : Bool) : (s.setFunc x y d).lastCmd = s.lastCmd := rfl
@[simp] theorem setFunc_arg (s : State) (x y : Nat) (d : Bool) : (s.setFunc x y d).arg = s.arg := rfl
@[simp] theorem setFunc_res (s : State) (x y : Nat) (d : Bool) : (s.setFunc x y d).res = s.res := rfl
@[simp] theorem setFunc_inLen (s : State) (x y : Nat) (d : Bool) : (s.setFunc x y d).inLen = s.inLen := rfl
@[simp] theorem setFunc_chrLen (s : State) (x y : Nat) (d : Bool) : (s.setFunc x y d).chrLen = s.chrLen := rfl
@[simp] theorem setFunc_baLen (s : State) (x y : Nat) (d : Bool) : (s.setFunc x y d).baLen = s.baLen := rfl
@[simp] theorem setFunc_cwLen (s : State) (x y : Nat) (d : Bool) : (s.setFunc x y d).cwLen = s.cwLen := rfl
@[simp] theorem setFunc_qrInfo (s : State) (x y : Nat) (d : Bool) : (s.setFunc x y d).qrInfo = s.qrInfo := rfl
@[simp] theorem setFunc_barCount (s : State) (x y : Nat) (d : Bool) : (s.setFunc x y d).barCount = s.barCount := rfl
@[simp] theorem setFunc_barWidth (s : State) (x y : Nat) (d : Bool) : (s.setFunc x y d).barWidth = s.barWidth := rfl
@[simp] theorem setFunc_c128CwLen (s : State) (x y : Nat) (d : Bool) : (s.setFunc x y d).c128CwLen = s.c128CwLen := rfl
@[simp] theorem setFunc_pen (s : State) (x y : Nat) (d : Bool) : (s.setFunc x y d).pen = s.pen := rfl
@[simp] theorem setFunc_lmEpoch (s : State) (x y : Nat) (d : Bool) : (s.setFunc x y d).lmEpoch = s.lmEpoch := rfl
@[simp] theorem setFunc_draw (s : State) (x y : Nat) (d : Bool) : (s.setFunc x y d).draw = s.draw := rfl
@[simp] theorem setFunc_wait (s : State) (x y : Nat) (d : Bool) : (s.setFunc x y d).wait = s.wait := rfl
@[simp] theorem setFunc_inputs (s : State) (x y : Nat) (d : Bool) : (s.setFunc x y d).inputs = s.inputs := rfl
@[simp] theorem setFunc_rdata (s : State) (x y : Nat) (d : Bool) : (s.setFunc x y d).rdata = s.rdata := rfl

/-! ## A data module -/

@[simp] theorem setData_params (s : State) (x y : Nat) (d : Bool) : (s.setData x y d).params = s.params := rfl
@[simp] theorem setData_irqEn (s : State) (x y : Nat) (d : Bool) : (s.setData x y d).irqEn = s.irqEn := rfl
@[simp] theorem setData_status (s : State) (x y : Nat) (d : Bool) : (s.setData x y d).status = s.status := rfl
@[simp] theorem setData_lastCmd (s : State) (x y : Nat) (d : Bool) : (s.setData x y d).lastCmd = s.lastCmd := rfl
@[simp] theorem setData_arg (s : State) (x y : Nat) (d : Bool) : (s.setData x y d).arg = s.arg := rfl
@[simp] theorem setData_res (s : State) (x y : Nat) (d : Bool) : (s.setData x y d).res = s.res := rfl
@[simp] theorem setData_inLen (s : State) (x y : Nat) (d : Bool) : (s.setData x y d).inLen = s.inLen := rfl
@[simp] theorem setData_chrLen (s : State) (x y : Nat) (d : Bool) : (s.setData x y d).chrLen = s.chrLen := rfl
@[simp] theorem setData_baLen (s : State) (x y : Nat) (d : Bool) : (s.setData x y d).baLen = s.baLen := rfl
@[simp] theorem setData_cwLen (s : State) (x y : Nat) (d : Bool) : (s.setData x y d).cwLen = s.cwLen := rfl
@[simp] theorem setData_qrInfo (s : State) (x y : Nat) (d : Bool) : (s.setData x y d).qrInfo = s.qrInfo := rfl
@[simp] theorem setData_barCount (s : State) (x y : Nat) (d : Bool) : (s.setData x y d).barCount = s.barCount := rfl
@[simp] theorem setData_barWidth (s : State) (x y : Nat) (d : Bool) : (s.setData x y d).barWidth = s.barWidth := rfl
@[simp] theorem setData_c128CwLen (s : State) (x y : Nat) (d : Bool) : (s.setData x y d).c128CwLen = s.c128CwLen := rfl
@[simp] theorem setData_pen (s : State) (x y : Nat) (d : Bool) : (s.setData x y d).pen = s.pen := rfl
@[simp] theorem setData_lmEpoch (s : State) (x y : Nat) (d : Bool) : (s.setData x y d).lmEpoch = s.lmEpoch := rfl
@[simp] theorem setData_draw (s : State) (x y : Nat) (d : Bool) : (s.setData x y d).draw = s.draw := rfl
@[simp] theorem setData_wait (s : State) (x y : Nat) (d : Bool) : (s.setData x y d).wait = s.wait := rfl
@[simp] theorem setData_inputs (s : State) (x y : Nat) (d : Bool) : (s.setData x y d).inputs = s.inputs := rfl
@[simp] theorem setData_rdata (s : State) (x y : Nat) (d : Bool) : (s.setData x y d).rdata = s.rdata := rfl

/-! ## A dropped host write -/

@[simp] theorem dropWrite_params (s : State) : (s.dropWrite).params = s.params := rfl
@[simp] theorem dropWrite_irqEn (s : State) : (s.dropWrite).irqEn = s.irqEn := rfl
@[simp] theorem dropWrite_lastCmd (s : State) : (s.dropWrite).lastCmd = s.lastCmd := rfl
@[simp] theorem dropWrite_arg (s : State) : (s.dropWrite).arg = s.arg := rfl
@[simp] theorem dropWrite_res (s : State) : (s.dropWrite).res = s.res := rfl
@[simp] theorem dropWrite_inLen (s : State) : (s.dropWrite).inLen = s.inLen := rfl
@[simp] theorem dropWrite_chrLen (s : State) : (s.dropWrite).chrLen = s.chrLen := rfl
@[simp] theorem dropWrite_baLen (s : State) : (s.dropWrite).baLen = s.baLen := rfl
@[simp] theorem dropWrite_cwLen (s : State) : (s.dropWrite).cwLen = s.cwLen := rfl
@[simp] theorem dropWrite_qrInfo (s : State) : (s.dropWrite).qrInfo = s.qrInfo := rfl
@[simp] theorem dropWrite_barCount (s : State) : (s.dropWrite).barCount = s.barCount := rfl
@[simp] theorem dropWrite_barWidth (s : State) : (s.dropWrite).barWidth = s.barWidth := rfl
@[simp] theorem dropWrite_c128CwLen (s : State) : (s.dropWrite).c128CwLen = s.c128CwLen := rfl
@[simp] theorem dropWrite_pen (s : State) : (s.dropWrite).pen = s.pen := rfl
@[simp] theorem dropWrite_lm (s : State) : (s.dropWrite).lm = s.lm := rfl
@[simp] theorem dropWrite_lmEpoch (s : State) : (s.dropWrite).lmEpoch = s.lmEpoch := rfl
@[simp] theorem dropWrite_draw (s : State) : (s.dropWrite).draw = s.draw := rfl
@[simp] theorem dropWrite_wait (s : State) : (s.dropWrite).wait = s.wait := rfl
@[simp] theorem dropWrite_inputs (s : State) : (s.dropWrite).inputs = s.inputs := rfl
@[simp] theorem dropWrite_rdata (s : State) : (s.dropWrite).rdata = s.rdata := rfl

@[simp] theorem dropWrite_status (s : State) : s.dropWrite.status = s.status.dropped := rfl

/-! ## An accepted command word -/

@[simp] theorem accept_params (s : State) (w : Word) : (s.accept w).params = s.params := rfl
@[simp] theorem accept_irqEn (s : State) (w : Word) : (s.accept w).irqEn = s.irqEn := rfl
@[simp] theorem accept_arg (s : State) (w : Word) : (s.accept w).arg = s.arg := rfl
@[simp] theorem accept_res (s : State) (w : Word) : (s.accept w).res = s.res := rfl
@[simp] theorem accept_inLen (s : State) (w : Word) : (s.accept w).inLen = s.inLen := rfl
@[simp] theorem accept_chrLen (s : State) (w : Word) : (s.accept w).chrLen = s.chrLen := rfl
@[simp] theorem accept_baLen (s : State) (w : Word) : (s.accept w).baLen = s.baLen := rfl
@[simp] theorem accept_cwLen (s : State) (w : Word) : (s.accept w).cwLen = s.cwLen := rfl
@[simp] theorem accept_qrInfo (s : State) (w : Word) : (s.accept w).qrInfo = s.qrInfo := rfl
@[simp] theorem accept_barCount (s : State) (w : Word) : (s.accept w).barCount = s.barCount := rfl
@[simp] theorem accept_barWidth (s : State) (w : Word) : (s.accept w).barWidth = s.barWidth := rfl
@[simp] theorem accept_c128CwLen (s : State) (w : Word) : (s.accept w).c128CwLen = s.c128CwLen := rfl
@[simp] theorem accept_pen (s : State) (w : Word) : (s.accept w).pen = s.pen := rfl
@[simp] theorem accept_lm (s : State) (w : Word) : (s.accept w).lm = s.lm := rfl
@[simp] theorem accept_lmEpoch (s : State) (w : Word) : (s.accept w).lmEpoch = s.lmEpoch := rfl
@[simp] theorem accept_inputs (s : State) (w : Word) : (s.accept w).inputs = s.inputs := rfl
@[simp] theorem accept_rdata (s : State) (w : Word) : (s.accept w).rdata = s.rdata := rfl

@[simp] theorem accept_status (s : State) (w : Word) : (s.accept w).status = s.status.accepted := rfl
@[simp] theorem accept_lastCmd (s : State) (w : Word) : (s.accept w).lastCmd = w := rfl

/-! ## The data of a host read -/

@[simp] theorem returnData_params (s : State) (v : Word) : (s.returnData v).params = s.params := rfl
@[simp] theorem returnData_irqEn (s : State) (v : Word) : (s.returnData v).irqEn = s.irqEn := rfl
@[simp] theorem returnData_status (s : State) (v : Word) : (s.returnData v).status = s.status := rfl
@[simp] theorem returnData_lastCmd (s : State) (v : Word) : (s.returnData v).lastCmd = s.lastCmd := rfl
@[simp] theorem returnData_arg (s : State) (v : Word) : (s.returnData v).arg = s.arg := rfl
@[simp] theorem returnData_res (s : State) (v : Word) : (s.returnData v).res = s.res := rfl
@[simp] theorem returnData_inLen (s : State) (v : Word) : (s.returnData v).inLen = s.inLen := rfl
@[simp] theorem returnData_chrLen (s : State) (v : Word) : (s.returnData v).chrLen = s.chrLen := rfl
@[simp] theorem returnData_baLen (s : State) (v : Word) : (s.returnData v).baLen = s.baLen := rfl
@[simp] theorem returnData_cwLen (s : State) (v : Word) : (s.returnData v).cwLen = s.cwLen := rfl
@[simp] theorem returnData_qrInfo (s : State) (v : Word) : (s.returnData v).qrInfo = s.qrInfo := rfl
@[simp] theorem returnData_barCount (s : State) (v : Word) : (s.returnData v).barCount = s.barCount := rfl
@[simp] theorem returnData_barWidth (s : State) (v : Word) : (s.returnData v).barWidth = s.barWidth := rfl
@[simp] theorem returnData_c128CwLen (s : State) (v : Word) : (s.returnData v).c128CwLen = s.c128CwLen := rfl
@[simp] theorem returnData_pen (s : State) (v : Word) : (s.returnData v).pen = s.pen := rfl
@[simp] theorem returnData_lm (s : State) (v : Word) : (s.returnData v).lm = s.lm := rfl
@[simp] theorem returnData_lmEpoch (s : State) (v : Word) : (s.returnData v).lmEpoch = s.lmEpoch := rfl
@[simp] theorem returnData_draw (s : State) (v : Word) : (s.returnData v).draw = s.draw := rfl
@[simp] theorem returnData_wait (s : State) (v : Word) : (s.returnData v).wait = s.wait := rfl
@[simp] theorem returnData_inputs (s : State) (v : Word) : (s.returnData v).inputs = s.inputs := rfl

@[simp] theorem returnData_rdata (s : State) (v : Word) : (s.returnData v).rdata = some v := rfl

/-! ## LM bytes and registers see only their own fields -/

/-- An LM byte depends on the list of definite bytes and the draw alone. -/
theorem lmByte_congr {s t : State} (h : t.lm = s.lm) (he : t.lmEpoch = s.lmEpoch) (a : Nat) : t.lmByte a = s.lmByte a := by
  simp [State.lmByte, h, he]

theorem ownKept_refl (s : State) : OwnKept s s := ⟨rfl, rfl, rfl, rfl, rfl, rfl⟩

/-! ## Completion -/

@[simp] theorem completed_busy (s : Status) : s.completed.busy = false := rfl
@[simp] theorem completed_done (s : Status) : s.completed.done = true := rfl
@[simp] theorem completed_err (s : Status) : s.completed.err = false := rfl
@[simp] theorem completed_errCode (s : Status) : s.completed.errCode = .noError := rfl
@[simp] theorem completed_drop (s : Status) : s.completed.drop = s.drop := rfl
@[simp] theorem failed_busy (s : Status) (c : ErrCode) : (s.failed c).busy = false := rfl
@[simp] theorem failed_done (s : Status) (c : ErrCode) : (s.failed c).done = true := rfl
@[simp] theorem failed_err (s : Status) (c : ErrCode) : (s.failed c).err = true := rfl
@[simp] theorem failed_errCode (s : Status) (c : ErrCode) : (s.failed c).errCode = c := rfl
@[simp] theorem failed_drop (s : Status) (c : ErrCode) : (s.failed c).drop = s.drop := rfl
@[simp] theorem accepted_busy (s : Status) : s.accepted.busy = true := rfl
@[simp] theorem accepted_done (s : Status) : s.accepted.done = false := rfl
@[simp] theorem accepted_err (s : Status) : s.accepted.err = false := rfl
@[simp] theorem accepted_errCode (s : Status) : s.accepted.errCode = .noError := rfl
@[simp] theorem accepted_drop (s : Status) : s.accepted.drop = s.drop := rfl
@[simp] theorem dropped_busy (s : Status) : s.dropped.busy = s.busy := rfl
@[simp] theorem dropped_drop (s : Status) : s.dropped.drop = true := rfl
@[simp] theorem writeOneToClear_busy (s : Status) (v : Word) : (s.writeOneToClear v).busy = s.busy := rfl

end Sys2Proof.Machine
end

