-- ==== Sys2Proof/Laws/Ops.lean ====
section
/-! SUPPORT. What each shared operation does, said once: completion, the accumulator's append, writing GRID cells, finding a
register. -/

namespace Sys2Proof.Machine

/-! ## Completion -/

/-- All that `succeed` can answer. -/
theorem succeed_eq_next {s t : State} : s.succeed = .next t ↔ t = { s with status := s.status.completed } := by
  simp only [State.succeed, Host.Outcome.next.injEq]
  exact eq_comm

/-- All that `raise` can answer. -/
theorem raise_eq_next {s t : State} {c : ErrCode} : s.raise c = .next t ↔ t = { s with status := s.status.failed c } := by
  simp only [State.raise, Host.Outcome.next.injEq]
  exact eq_comm

/-! ## Bit sequences -/

@[simp] theorem length_bitsOf (n v : Nat) : (bitsOf n v).length = n := by
  induction n with
  | zero => rfl
  | succ n ih => simp [bitsOf, ih]

/-- Bit `k` of `bits_n(v)` is bit `n − 1 − k` of `v` (00_scope.md R17). -/
theorem getElem?_bitsOf {n k : Nat} (v : Nat) (h : k < n) : (bitsOf n v)[k]? = some (v.testBit (n - 1 - k)) := by
  induction n generalizing k with
  | zero => omega
  | succ n ih =>
    cases k with
    | zero => simp [bitsOf]
    | succ k =>
      simp only [bitsOf, List.getElem?_cons_succ]
      rw [ih (by omega)]
      congr 2
      omega

/-! ## The accumulator -/

/-- One bit of one byte set: that bit holds the value, the other bits are as before (20_memory.md R79). -/
theorem getLsbD_setStreamBit (old : Byte) (p : Nat) (b : Bool) (hp : p < 8) (j : Nat) (hj : j < 8) :
    (setStreamBit old p b).getLsbD j = if j = 7 - p then b else old.getLsbD j := by
  have key : ∀ (p j : Fin 8) (b : Bool), ((byte b.toNat <<< (7 - p.val)).getLsbD j.val = (decide (j.val = 7 - p.val) && b)) ∧
      ((~~~(1#8 <<< (7 - p.val))).getLsbD j.val = !decide (j.val = 7 - p.val)) := by decide
  have := key ⟨p, hp⟩ ⟨j, hj⟩ b
  simp only [setStreamBit, BitVec.getLsbD_or, BitVec.getLsbD_and, this.1, this.2]
  by_cases h : j = 7 - p <;> simp [h]

/-- Appending one bit writes it at position BA_LEN and no other stream bit (41_bit_accumulator.md R151). -/
theorem streamBit_appendBit (s : State) (b : Bool) (k : Nat) (hs : s.baLen.toNat < 4096) :
    (s.appendBit b).streamBit k = if k = s.baLen.toNat then b else s.streamBit k := by
  have hl : ∀ a, (s.appendBit b).lmByte a =
      if a = bitsBase + s.baLen.toNat / 8 then
        setStreamBit (s.lmByte (bitsBase + s.baLen.toNat / 8)) (s.baLen.toNat % 8) b
      else s.lmByte a := by
    intro a
    rw [← lmByte_lmStore_one s _ _ (by simp only [bitsBase, lmEnd]; omega) a]
    rfl
  simp only [State.streamBit, hl, Nat.add_left_cancel_iff]
  by_cases h : k / 8 = s.baLen.toNat / 8
  · rw [if_pos h, getLsbD_setStreamBit _ _ _ (by omega) _ (by omega), h]
    by_cases hk : k = s.baLen.toNat
    · simp [hk]
    · have : ¬ 7 - k % 8 = 7 - s.baLen.toNat % 8 := by omega
      simp [this, hk]
  · have hk : ¬ k = s.baLen.toNat := fun e => h (by rw [e])
    simp [h, hk]

/-- An offset outside a region. -/
theorem Region.holds_eq_false (r : Region) (a : Nat) : r.holds a = false ↔ ¬ (r.base ≤ a ∧ a < r.base + r.size) := by
  simp [Region.holds]

/-- Appending writes no byte outside BITS. -/
theorem lmByte_appendBit (s : State) (b : Bool) (a : Nat) (hs : s.baLen.toNat < 4096)
    (ha : Region.bits.holds a = false) : (s.appendBit b).lmByte a = s.lmByte a := by
  have h := lmByte_lmStore_one s (bitsBase + s.baLen.toNat / 8)
    (setStreamBit (s.lmByte (bitsBase + s.baLen.toNat / 8)) (s.baLen.toNat % 8) b)
    (by simp only [bitsBase, lmEnd]; omega) a
  have hne : a ≠ bitsBase + s.baLen.toNat / 8 := by
    rintro rfl
    rw [Region.holds_eq_false] at ha
    simp only [Region.base, Region.size, bitsBase] at ha
    omega
  rw [if_neg hne] at h
  exact h

@[simp] theorem appendBits_nil (s : State) : s.appendBits [] = s := rfl

@[simp] theorem appendBits_cons (s : State) (b : Bool) (bs : List Bool) :
    s.appendBits (b :: bs) = (s.appendBit b).appendBits bs := rfl

/-- Two appends are one append of the sequences one after the other. -/
theorem appendBits_append (s : State) (bs cs : List Bool) : s.appendBits (bs ++ cs) = (s.appendBits bs).appendBits cs := by
  simp [State.appendBits]

/-- Appending changes LM and BA_LEN only. -/
theorem appendBits_only (s : State) (bs : List Bool) : ∃ m k, s.appendBits bs = { s with lm := m, baLen := k } := by
  induction bs generalizing s with
  | nil => exact ⟨s.lm, s.baLen, rfl⟩
  | cons b bs ih =>
    obtain ⟨m, k, h⟩ := ih (s.appendBit b)
    exact ⟨m, k, by rw [appendBits_cons, h]; rfl⟩

/-- BA_LEN after an append that fits. -/
theorem baLen_appendBits (s : State) (bs : List Bool) (h : s.baLen.toNat + bs.length ≤ 4096) :
    (s.appendBits bs).baLen.toNat = s.baLen.toNat + bs.length := by
  induction bs generalizing s with
  | nil => simp
  | cons b bs ih =>
    simp only [List.length_cons] at h ⊢
    have hb : (s.appendBit b).baLen.toNat = s.baLen.toNat + 1 := by
      simp only [appendBit_baLen, BitVec.toNat_ofNat]
      omega
    rw [appendBits_cons, ih _ (by rw [hb]; omega), hb]
    omega

/-- What an append that fits writes: the sequence at the positions from BA_LEN on (41_bit_accumulator.md R151). -/
theorem streamBit_appendBits (s : State) (bs : List Bool) (h : s.baLen.toNat + bs.length ≤ 4096) (k : Nat) :
    (s.appendBits bs).streamBit k =
      if s.baLen.toNat ≤ k ∧ k < s.baLen.toNat + bs.length then bs.getD (k - s.baLen.toNat) false else s.streamBit k := by
  induction bs generalizing s with
  | nil =>
    have : ¬ (s.baLen.toNat ≤ k ∧ k < s.baLen.toNat + ([] : List Bool).length) := by simp
    simp only [appendBits_nil, if_neg this]
  | cons b bs ih =>
    simp only [List.length_cons] at h ⊢
    have hb : (s.appendBit b).baLen.toNat = s.baLen.toNat + 1 := by
      simp only [appendBit_baLen, BitVec.toNat_ofNat]
      omega
    rw [appendBits_cons, ih _ (by rw [hb]; omega), hb, streamBit_appendBit s b k (by omega)]
    by_cases h1 : k = s.baLen.toNat
    · have h2 : ¬ (s.baLen.toNat + 1 ≤ k ∧ k < s.baLen.toNat + 1 + bs.length) := by omega
      have h3 : s.baLen.toNat ≤ k ∧ k < s.baLen.toNat + (bs.length + 1) := by omega
      have h4 : k - s.baLen.toNat = 0 := by omega
      rw [if_neg h2, if_pos h1, if_pos h3, h4]
      rfl
    · by_cases h2 : s.baLen.toNat + 1 ≤ k ∧ k < s.baLen.toNat + 1 + bs.length
      · have h3 : s.baLen.toNat ≤ k ∧ k < s.baLen.toNat + (bs.length + 1) := by omega
        have h4 : k - s.baLen.toNat = k - (s.baLen.toNat + 1) + 1 := by omega
        rw [if_pos h2, if_pos h3, h4, List.getD_cons_succ]
      · have h3 : ¬ (s.baLen.toNat ≤ k ∧ k < s.baLen.toNat + (bs.length + 1)) := by omega
        rw [if_neg h2, if_neg h1, if_neg h3]

/-- An append that fits writes no byte outside BITS. -/
theorem lmByte_appendBits (s : State) (bs : List Bool) (h : s.baLen.toNat + bs.length ≤ 4096) (a : Nat)
    (ha : Region.bits.holds a = false) : (s.appendBits bs).lmByte a = s.lmByte a := by
  induction bs generalizing s with
  | nil => rfl
  | cons b bs ih =>
    simp only [List.length_cons] at h
    have hb : (s.appendBit b).baLen.toNat = s.baLen.toNat + 1 := by
      simp only [appendBit_baLen, BitVec.toNat_ofNat]
      omega
    rw [appendBits_cons, ih _ (by rw [hb]; omega), lmByte_appendBit s b a (by omega) ha]

/-- Appending keeps the canonical form of memory. -/
theorem appendBits_wf {s : State} (h : Memory.wf s.lm) (bs : List Bool) : Memory.wf (s.appendBits bs).lm := by
  induction bs generalizing s with
  | nil => exact h
  | cons b bs ih => exact ih (lmStore_wf h _ _)

/-! ## Writing cells of GRID -/

/-- Cells written one after the other: the byte each cell is given, the last writing wins. -/
def State.writeCells (s : State) (cells : List ((Nat × Nat) × Byte)) : State :=
  cells.foldl (fun t c => t.lmStore (cellOffset c.1.1 c.1.2) [c.2]) s

@[simp] theorem writeCells_nil (s : State) : s.writeCells [] = s := rfl

@[simp] theorem writeCells_cons (s : State) (c : (Nat × Nat) × Byte) (cs : List ((Nat × Nat) × Byte)) :
    s.writeCells (c :: cs) = (s.lmStore (cellOffset c.1.1 c.1.2) [c.2]).writeCells cs := rfl

/-- Placement is a writing of cells. -/
theorem place_eq_writeCells (s : State) (m n : Nat) :
    s.place m n =
      s.writeCells ((maskedCells m s.streamBits (s.dataCells n)).map (fun c => (c.1, dataCell c.2))) := by
  simp [State.place, State.writeCells, State.setData, List.foldl_map]

/-- Writing the format bits is a writing of cells. -/
theorem writeFormat_eq_writeCells (s : State) (n w : Nat) :
    s.writeFormat n w = s.writeCells ((formatCells n).map (fun c => (c.1, funcCell (w.testBit c.2)))) := by
  simp [State.writeFormat, State.writeCells, State.setFunc, List.foldl_map]

/-- Writing cells changes LM only. -/
theorem writeCells_only (s : State) (cs : List ((Nat × Nat) × Byte)) : ∃ m, s.writeCells cs = { s with lm := m } := by
  induction cs generalizing s with
  | nil => exact ⟨s.lm, rfl⟩
  | cons c cs ih =>
    obtain ⟨m, h⟩ := ih (s.lmStore (cellOffset c.1.1 c.1.2) [c.2])
    exact ⟨m, by rw [writeCells_cons, h]; rfl⟩

/-- Placement changes LM only. -/
theorem place_only (s : State) (m n : Nat) : ∃ l, s.place m n = { s with lm := l } := by
  rw [place_eq_writeCells]
  exact writeCells_only s _

/-- Writing the format bits changes LM only. -/
theorem writeFormat_only (s : State) (n w : Nat) : ∃ l, s.writeFormat n w = { s with lm := l } := by
  rw [writeFormat_eq_writeCells]
  exact writeCells_only s _

/-- Two cells of the 64 by 64 grid share no byte (20_memory.md R81). -/
theorem cellOffset_inj {x y u v : Nat} (hx : x < 64) (hu : u < 64) :
    cellOffset x y = cellOffset u v ↔ x = u ∧ y = v := by
  simp only [cellOffset]
  omega

/-- A byte that no written cell occupies is as before. -/
theorem lmByte_writeCells_of_not_mem (s : State) (cs : List ((Nat × Nat) × Byte)) (a : Nat)
    (h : ∀ c ∈ cs, a ≠ cellOffset c.1.1 c.1.2) : (s.writeCells cs).lmByte a = s.lmByte a := by
  induction cs generalizing s with
  | nil => rfl
  | cons c cs ih =>
    rw [writeCells_cons, ih _ (fun d hd => h d (List.mem_cons_of_mem _ hd)), lmByte_lmStore_of_not_mem]
    have := h c List.mem_cons_self
    simp only [List.length_cons, List.length_nil]
    omega

/-- A cell written once holds its byte. -/
theorem lmByte_writeCells_of_mem (s : State) (cs : List ((Nat × Nat) × Byte))
    (hb : ∀ c ∈ cs, c.1.1 < 64 ∧ c.1.2 < 64) (hd : (cs.map Prod.fst).Nodup) (c : (Nat × Nat) × Byte) (hc : c ∈ cs) :
    (s.writeCells cs).lmByte (cellOffset c.1.1 c.1.2) = c.2 := by
  induction cs generalizing s with
  | nil => simp at hc
  | cons d cs ih =>
    simp only [List.map_cons, List.nodup_cons] at hd
    rw [writeCells_cons]
    rcases List.mem_cons.mp hc with rfl | hc
    · rw [lmByte_writeCells_of_not_mem]
      · have := hb c List.mem_cons_self
        rw [lmByte_lmStore_one _ _ _ (by simp only [cellOffset, gridBase, lmEnd]; omega)]
        simp
      · intro e he heq
        have h1 := hb c List.mem_cons_self
        have h2 := hb e (List.mem_cons_of_mem _ he)
        have h3 := (cellOffset_inj h1.1 h2.1).mp heq
        exact hd.1 (List.mem_map.mpr ⟨e, he, Prod.ext h3.1.symm h3.2.symm⟩)
    · exact ih _ (fun e he => hb e (List.mem_cons_of_mem _ he)) hd.2 hc

/-- Writing cells keeps the canonical form of memory. -/
theorem writeCells_wf {s : State} (h : Memory.wf s.lm) (cs : List ((Nat × Nat) × Byte)) :
    Memory.wf (s.writeCells cs).lm := by
  induction cs generalizing s with
  | nil => exact h
  | cons c cs ih => exact ih (lmStore_wf h _ _)

/-- Aborting a command keeps the canonical form of memory. -/
theorem abortedLm_wf {s : State} (h : Memory.wf s.lm) : Memory.wf s.abortedLm := by
  have key : ∀ (rs : List Region) (t : State), Memory.wf t.lm →
      Memory.wf (rs.foldl (fun t r => t.lmStore r.base (r.drawn s.draw)) t).lm := by
    intro rs
    induction rs with
    | nil => exact fun t ht => ht
    | cons r rs ih => exact fun t ht => ih _ (lmStore_wf ht _ _)
  exact key s.runningRegions s h

/-- Every data cell takes a stream bit or is a remainder cell (46_qr_matrix.md R312). -/
theorem placedBits_add_spareCells (s : State) (n : Nat) :
    s.placedBits n + s.spareCells n = (s.dataCells n).length := by
  simp only [State.placedBits, State.spareCells]
  omega

/-- Every stream bit takes a data cell or is ignored (46_qr_matrix.md R312). -/
theorem placedBits_add_unplacedBits (s : State) (n : Nat) :
    s.placedBits n + s.unplacedBits n = s.streamBits.length := by
  simp only [State.placedBits, State.unplacedBits]
  omega

/-- What QR_PLACE counts in RES1, case by case (46_qr_matrix.md R314; 92_eei_decisions.md D46, log entry 16). -/
theorem placeRest_eq (s : State) (n : Nat) :
    s.placeRest n =
      if s.streamBits.length ≤ (s.dataCells n).length then s.spareCells n else s.unplacedBits n := by
  simp only [State.placeRest, State.spareCells, State.unplacedBits]
  split <;> omega

/-! ## Registers -/

/-- Each register is found at its offset (10_state.md R30). -/
theorem Reg.at?_offset (r : Reg) : Reg.at? r.offset = some r := by cases r <;> decide

/-- A register found at an offset has that offset. -/
theorem Reg.offset_of_at? {off : Nat} {r : Reg} (h : Reg.at? off = some r) : r.offset = off := by
  have := List.find?_some h
  simpa using this

end Sys2Proof.Machine
end

