-- ==== Sys2Proof/Laws/PerInstr.lean ====
section
/-! SUPPORT. What is true of each command as syntax: its word carries its opcode in bits [7:0] (30_encoding.md R101). -/

namespace Sys2Proof.Laws.EncodedOpcode

/-- The opcode field of a well-formed command's word is the command's opcode. -/
def Statement (i : Sys2Proof.Instr) : Prop := i.wellFormed = true → opcField (encode i) = i.opcode

/-- The opcode survives whatever stands in the bits above it. -/
theorem opcField_word (opc rest : Nat) (h : opc < 256) : opcField (word (opc + 256 * rest)) = opc := by
  simp only [opcField, field, word, BitVec.toNat_ofNat]
  omega

theorem opcField_encodeN (opc : Nat) (h : opc < 256) : opcField (encodeN opc) = opc := by
  have := opcField_word opc 0 h
  simpa [encodeN] using this

theorem opcField_encodeQ (opc v e m : Nat) (h : opc < 256) : opcField (encodeQ opc v e m) = opc := by
  have := opcField_word opc (v + 2 ^ 6 * e + 2 ^ 8 * m) h
  rw [encodeQ, ← this]
  congr 2
  omega

theorem opcField_encodeB (opc a b c : Nat) (h : opc < 256) : opcField (encodeB opc a b c) = opc := by
  have := opcField_word opc (a + 2 ^ 8 * b + 2 ^ 16 * c) h
  rw [encodeB, ← this]
  congr 2
  omega

theorem opcField_encodeH (opc l v : Nat) (h : opc < 256) : opcField (encodeH opc l v) = opc := by
  have := opcField_word opc (l + 2 ^ 8 * v) h
  rw [encodeH, ← this]
  congr 2
  omega

theorem nop : Statement (.nop) :=
  fun _ => opcField_encodeN _ (by simp [Instr.opcode])

theorem baClear : Statement (.baClear) :=
  fun _ => opcField_encodeN _ (by simp [Instr.opcode])

theorem baAppend (x : Nat) (y : Half) : Statement (.baAppend x y) :=
  fun _ => opcField_encodeH _ _ _ (by simp [Instr.opcode])

theorem baPad : Statement (.baPad) :=
  fun _ => opcField_encodeN _ (by simp [Instr.opcode])

theorem gfMul (x : Byte) (y : Byte) : Statement (.gfMul x y) :=
  fun _ => opcField_encodeB _ _ _ _ (by simp [Instr.opcode])

theorem gfExp (x : Nat) : Statement (.gfExp x) :=
  fun _ => opcField_encodeB _ _ _ _ (by simp [Instr.opcode])

theorem gfLog (x : Byte) : Statement (.gfLog x) :=
  fun _ => opcField_encodeB _ _ _ _ (by simp [Instr.opcode])

theorem rsGen (x : Nat) : Statement (.rsGen x) :=
  fun _ => opcField_encodeB _ _ _ _ (by simp [Instr.opcode])

theorem rsEcc (x : Nat) : Statement (.rsEcc x) :=
  fun _ => opcField_encodeB _ _ _ _ (by simp [Instr.opcode])

theorem capLookup (x : Nat) (y : Ecc) : Statement (.capLookup x y) :=
  fun _ => opcField_encodeQ _ _ _ _ (by simp [Instr.opcode])

theorem alignPos (x : Nat) : Statement (.alignPos x) :=
  fun _ => opcField_encodeQ _ _ _ _ (by simp [Instr.opcode])

theorem blockInfo (x : Nat) (y : Ecc) : Statement (.blockInfo x y) :=
  fun _ => opcField_encodeQ _ _ _ _ (by simp [Instr.opcode])

theorem ccBits (x : Nat) : Statement (.ccBits x) :=
  fun _ => opcField_encodeQ _ _ _ _ (by simp [Instr.opcode])

theorem totalBits (x : Nat) : Statement (.totalBits x) :=
  fun _ => opcField_encodeQ _ _ _ _ (by simp [Instr.opcode])

theorem utf8Put (x : Half) : Statement (.utf8Put x) :=
  fun _ => opcField_encodeH _ _ _ (by simp [Instr.opcode])

theorem segWrite (x : Nat) : Statement (.segWrite x) :=
  fun _ => opcField_encodeQ _ _ _ _ (by simp [Instr.opcode])

theorem qrSelect (x : Ecc) : Statement (.qrSelect x) :=
  fun _ => opcField_encodeQ _ _ _ _ (by simp [Instr.opcode])

theorem qrAssemble (x : Nat) (y : Ecc) : Statement (.qrAssemble x y) :=
  fun _ => opcField_encodeQ _ _ _ _ (by simp [Instr.opcode])

theorem qrInterleave (x : Nat) (y : Ecc) : Statement (.qrInterleave x y) :=
  fun _ => opcField_encodeQ _ _ _ _ (by simp [Instr.opcode])

theorem qrFunc (x : Nat) (y : Ecc) : Statement (.qrFunc x y) :=
  fun _ => opcField_encodeQ _ _ _ _ (by simp [Instr.opcode])

theorem qrPlace (x : Nat) : Statement (.qrPlace x) :=
  fun _ => opcField_encodeQ _ _ _ _ (by simp [Instr.opcode])

theorem qrFormat (x : Nat) : Statement (.qrFormat x) :=
  fun _ => opcField_encodeQ _ _ _ _ (by simp [Instr.opcode])

theorem qrPenalty : Statement (.qrPenalty) :=
  fun _ => opcField_encodeN _ (by simp [Instr.opcode])

theorem maskEval (x : Nat) (y : Nat) (z : Nat) : Statement (.maskEval x y z) :=
  fun _ => opcField_encodeB _ _ _ _ (by simp [Instr.opcode])

theorem fmtBch (x : Ecc) (y : Nat) : Statement (.fmtBch x y) :=
  fun _ => opcField_encodeQ _ _ _ _ (by simp [Instr.opcode])

theorem verBch (x : Nat) : Statement (.verBch x) :=
  fun _ => opcField_encodeQ _ _ _ _ (by simp [Instr.opcode])

theorem qrEncode (x : Ecc) : Statement (.qrEncode x) :=
  fun _ => opcField_encodeQ _ _ _ _ (by simp [Instr.opcode])

theorem c128Map (x : Half) : Statement (.c128Map x) :=
  fun _ => opcField_encodeH _ _ _ (by simp [Instr.opcode])

theorem c128Pattern (x : Nat) : Statement (.c128Pattern x) :=
  fun _ => opcField_encodeB _ _ _ _ (by simp [Instr.opcode])

theorem c128Checksum : Statement (.c128Checksum) :=
  fun _ => opcField_encodeN _ (by simp [Instr.opcode])

theorem c128Encode : Statement (.c128Encode) :=
  fun _ => opcField_encodeN _ (by simp [Instr.opcode])

end Sys2Proof.Laws.EncodedOpcode
end

