-- ==== Sys2Proof/Laws/Step.lean ====
section
/-! SUPPORT. What a host access reaches, and all that one host step and one step of the machine can do. -/

namespace Sys2Proof.Machine

/-! ## The windows -/

/-- An offset of the register window. -/
theorem busDecode_register (p : Params) {off : Nat} (h : off < 4096) :
    busDecode p (p.regBase + off) = some (.registers, off) := by
  simp [busDecode, h]

/-- An offset of the LM window, where the windows are apart. -/
theorem busDecode_lm {p : Params} (hp : p.legal = true) {off : Nat} (h : off < 16384) :
    busDecode p (p.lmBase + off) = some (.localMemory, off) := by
  simp only [Params.legal, Bool.and_eq_true, Bool.or_eq_true, decide_eq_true_eq, regWindowSize, lmWindowSize] at hp
  have h1 : ¬ (p.regBase ≤ p.lmBase + off ∧ p.lmBase + off < p.regBase + regWindowSize) := by
    simp only [regWindowSize]
    omega
  have h2 : p.lmBase ≤ p.lmBase + off ∧ p.lmBase + off < p.lmBase + lmWindowSize := by
    simp only [lmWindowSize]
    omega
  rw [busDecode, if_neg h1, if_pos h2, Nat.add_sub_cancel_left]

/-- `WR off, v` at an aligned offset is a register write. -/
theorem hostStep_wr (s : State) {off : Nat} (v : Word) (h : off < 4096) (ha : off % 4 = 0) :
    s.hostStep (wr s.params off v) = .next (s.regWrite off v) := by
  simp [State.hostStep, wr, busDecode_register _ h, accessOk, ha, State.hostWrite]

/-- `RD off` at an aligned offset returns the register's value. -/
theorem hostStep_rd (s : State) {off : Nat} (h : off < 4096) (ha : off % 4 = 0) :
    s.hostStep (rd s.params off) = .next (s.returnData (s.regRead off)) := by
  simp [State.hostStep, rd, busDecode_register _ h, accessOk, ha, State.hostReadData]

/-- An aligned write in the LM window. -/
theorem hostStep_lm_write (s : State) (hp : s.params.legal = true) {a : Nat} (w : Width) (v : Word) (h : a < 16384)
    (ha : a % w.bytes = 0) : s.hostStep (.write (s.params.lmBase + a) w v) = .next (s.lmHostWrite a w v) := by
  simp [State.hostStep, busDecode_lm hp h, accessOk, ha, State.hostWrite]

/-- An aligned read in the LM window. -/
theorem hostStep_lm_read (s : State) (hp : s.params.legal = true) {a : Nat} (w : Width) (h : a < 16384)
    (ha : a % w.bytes = 0) :
    s.hostStep (.read (s.params.lmBase + a) w) = .next (s.returnData (word (s.memRead a w.bytes))) := by
  simp [State.hostStep, busDecode_lm hp h, accessOk, ha, State.hostReadData]

/-- A write at a register's own offset writes that register. -/
theorem regWrite_offset (s : State) (r : Reg) (v : Word) : s.regWrite r.offset v = s.writeReg r v := by
  simp [State.regWrite, Reg.at?_offset]

/-- A read at a register's own offset reads that register. -/
theorem regRead_offset (s : State) (r : Reg) : s.regRead r.offset = s.readReg r := by
  simp [State.regRead, Reg.at?_offset]

/-! ## What a register write can do -/

/-- All that a write in the register window can do. -/
theorem regWrite_cases (s : State) (off : Nat) (v : Word) :
    s.regWrite off v = s ∨ s.regWrite off v = s.softReset ∨ (∃ b, s.regWrite off v = { s with irqEn := b }) ∨
      s.regWrite off v = { s with status := s.status.writeOneToClear v } ∨
      (s.status.busy = true ∧ s.regWrite off v = s.dropWrite) ∨
      (s.status.busy = false ∧ s.regWrite off v = s.accept v) ∨
      (s.status.busy = false ∧ ∃ a n c, s.regWrite off v = { s with arg := a, inLen := n, chrLen := c }) := by
  have input : ∀ (t : State), (∃ a n c, t = { s with arg := a, inLen := n, chrLen := c }) →
      ((s.status.busy = true ∧ (if s.status.busy then s.dropWrite else t) = s.dropWrite) ∨
        (s.status.busy = false ∧
          ∃ a n c, (if s.status.busy then s.dropWrite else t) = { s with arg := a, inLen := n, chrLen := c })) := by
    rintro t ⟨a, n, c, rfl⟩
    cases hb : s.status.busy
    · exact .inr ⟨rfl, a, n, c, by simp⟩
    · exact .inl ⟨rfl, by simp⟩
  have reorder : ∀ {P Q R A B C D E : Prop}, C ∨ E → P ∨ Q ∨ R ∨ A ∨ C ∨ D ∨ E := fun h =>
    h.elim (fun h => .inr (.inr (.inr (.inr (.inl h))))) (fun h => .inr (.inr (.inr (.inr (.inr (.inr h))))))
  simp only [State.regWrite]
  split
  · rename_i r hr
    cases r <;> simp only [State.writeReg]
    case ctrl =>
      simp only [State.writeCtrl]
      by_cases h : v.getLsbD 1 = true
      · exact .inr (.inl (by rw [if_pos h]))
      · exact .inr (.inr (.inl ⟨v.getLsbD 0, by rw [if_neg h]⟩))
    case status => exact .inr (.inr (.inr (.inl trivial)))
    case cmd =>
      cases hb : s.status.busy
      · exact .inr (.inr (.inr (.inr (.inr (.inl ⟨rfl, by simp⟩)))))
      · exact .inr (.inr (.inr (.inr (.inl ⟨rfl, by simp⟩))))
    case arg0 => exact reorder (B := True) (input _ ⟨_, _, _, rfl⟩)
    case arg1 => exact reorder (B := True) (input _ ⟨_, _, _, rfl⟩)
    case arg2 => exact reorder (B := True) (input _ ⟨_, _, _, rfl⟩)
    case inLen => exact reorder (B := True) (input _ ⟨_, _, _, rfl⟩)
    case chrLen => exact reorder (B := True) (input _ ⟨_, _, _, rfl⟩)
    all_goals exact .inl trivial
  · exact .inl rfl

/-- All that a write in the LM window can do. -/
theorem lmHostWrite_cases (s : State) (a : Nat) (w : Width) (v : Word) :
    (s.status.busy = true ∧ s.lmHostWrite a w v = s.dropWrite) ∨ s.lmHostWrite a w v = s ∨
      (s.status.busy = false ∧ ∃ bs, s.lmHostWrite a w v = s.lmStore a bs) := by
  simp only [State.lmHostWrite]
  cases s.status.busy
  · by_cases h : lmEnd ≤ a
    · exact .inr (.inl (by simp [h]))
    · exact .inr (.inr ⟨rfl, leBytes w.bytes v.toNat, by simp [h, State.memWrite]⟩)
  · exact .inl ⟨rfl, by simp⟩

/-! ## What a step can do -/

/-- All that one host step can do when it answers a next state. -/
theorem hostStep_cases {s t : State} {i : HostInput} (h : s.hostStep i = .next t) :
    (∃ off v, t = s.regWrite off v) ∨ (∃ a w v, t = s.lmHostWrite a w v) ∨ (∃ v, t = s.returnData v) ∨
      t = s.pollStatus ∨ t = s.hardReset := by
  cases i with
  | write addr w v =>
    simp only [State.hostStep] at h
    split at h
    · cases h
    · split at h
      · cases h
        rename_i win off _ _
        cases win
        · exact .inl ⟨off, v, rfl⟩
        · exact .inr (.inl ⟨off, w, v, rfl⟩)
      · cases h
  | read addr w =>
    simp only [State.hostStep] at h
    split at h
    · cases h
    · split at h
      · cases h
        exact .inr (.inr (.inl ⟨_, rfl⟩))
      · cases h
  | wait =>
    cases h
    exact .inr (.inr (.inr (.inl rfl)))
  | hardwareReset =>
    cases h
    exact .inr (.inr (.inr (.inr rfl)))

/-- All that one step can do when it answers a next state: complete the running command, perform the next input, or stay
as it is. -/
theorem step_cases {s t : State} (h : step s = .next t) :
    (s.coreMoves = true ∧ s.completeCommand = .next t) ∨
      (s.coreMoves = false ∧ ∃ i rest, s.inputs = i :: rest ∧
        ({ s with inputs := rest, wait := s.wait - 1 } : State).hostStep i = .next t) ∨
      (s.coreMoves = false ∧ s.inputs = [] ∧ t = s) := by
  simp only [step, State.advance] at h
  cases hc : s.coreMoves
  · simp only [hc] at h
    cases hi : s.inputs with
    | nil =>
      simp only [hi] at h
      cases h
      exact .inr (.inr ⟨rfl, rfl, rfl⟩)
    | cons i rest =>
      simp only [hi] at h
      exact .inr (.inl ⟨rfl, i, rest, rfl, h⟩)
  · simp only [hc, if_true] at h
    exact .inl ⟨rfl, h⟩

/-- All that the completion of the running command can do: run the command its word decodes to, or raise ILLEGAL. -/
theorem completeCommand_cases (s : State) :
    (∃ i, decode s.lastCmd = .ok i ∧ s.completeCommand = exec i s) ∨
      (∃ e, decode s.lastCmd = .error e ∧ s.completeCommand = s.raise .illegal) := by
  simp only [State.completeCommand]
  cases h : decode s.lastCmd with
  | ok i => exact .inl ⟨i, rfl, rfl⟩
  | error e => exact .inr ⟨e, rfl, rfl⟩

end Sys2Proof.Machine
end

