-- ==== Sys2Proof/Machine/Asm.lean ====
section
/-! DEFINITION. The assembler syntax of a command (30_encoding.md R114): its mnemonic, then its used fields as
`name=value` pairs separated by commas. -/

namespace Sys2Proof.Machine

/-- The letter an ECC level may be written with (30_encoding.md R114). -/
def eccLetter : Ecc → String
  | .low => "L"
  | .medium => "M"
  | .quartile => "Q"
  | .high => "H"

/-- One numeric field. -/
def numField (name : String) (n : Nat) : String := name ++ "=" ++ toString n

/-- The ECC field. -/
def eccFieldText (e : Ecc) : String := "ecc=" ++ eccLetter e

/-- The used fields of a command, in the order VER, ECC, MASK of format Q, A8, B8, C8 of format B, L5, U16 of format H
(30_encoding.md R114). -/
def asmFields : Instr → List String
  | .nop => []
  | .baClear => []
  | .baAppend len val => [numField "len" len, numField "val" val.toNat]
  | .baPad => []
  | .gfMul x y => [numField "a" x.toNat, numField "b" y.toNat]
  | .gfExp i => [numField "a" i]
  | .gfLog x => [numField "a" x.toNat]
  | .rsGen d => [numField "a" d]
  | .rsEcc e => [numField "a" e]
  | .capLookup v e => [numField "ver" v, eccFieldText e]
  | .alignPos v => [numField "ver" v]
  | .blockInfo v e => [numField "ver" v, eccFieldText e]
  | .ccBits v => [numField "ver" v]
  | .totalBits v => [numField "ver" v]
  | .utf8Put u => [numField "val" u.toNat]
  | .segWrite v => [numField "ver" v]
  | .qrSelect e => [eccFieldText e]
  | .qrAssemble v e => [numField "ver" v, eccFieldText e]
  | .qrInterleave v e => [numField "ver" v, eccFieldText e]
  | .qrFunc v e => [numField "ver" v, eccFieldText e]
  | .qrPlace m => [numField "mask" m]
  | .qrFormat m => [numField "mask" m]
  | .qrPenalty => []
  | .maskEval m x y => [numField "a" m, numField "b" x, numField "c" y]
  | .fmtBch e m => [eccFieldText e, numField "mask" m]
  | .verBch v => [numField "ver" v]
  | .qrEncode e => [eccFieldText e]
  | .c128Map u => [numField "val" u.toNat]
  | .c128Pattern i => [numField "a" i]
  | .c128Checksum => []
  | .c128Encode => []

/-- The command as the assembler writes it (30_encoding.md R114). -/
def assembly (i : Instr) : String :=
  match asmFields i with
  | [] => i.mnemonic
  | f :: fs => i.mnemonic ++ " " ++ fs.foldl (fun t g => t ++ ", " ++ g) f

end Sys2Proof.Machine
end

