-- ==== Sys2Proof/Tests/Slice0.lean ====
section
/-! SUPPORT. The model's own tests: well-formedness, decoding of words written out from the spec's templates, one or two
small steps per command with results the spec states, and a witness for every statement with hypotheses. -/

namespace Sys2Proof.Tests

open Sys2Proof Sys2Proof.Machine

/-! ## Helpers -/

/-- The state a step leaves, or the state it began in where it leaves none. -/
def after (s : State) (o : Host.Outcome State Fault Refusal) : State :=
  match o with
  | .next t => t
  | .fault _ => s
  | .refused _ => s

/-- The state after a command. -/
def run (i : Instr) (s : State) : State := after s (exec i s)

/-- The state after a host step. -/
def host (x : HostInput) (s : State) : State := after s (s.hostStep x)

/-- RES0 to RES4. -/
def results (s : State) : List Nat := [s.res.r0.toNat, s.res.r1.toNat, s.res.r2.toNat, s.res.r3.toNat, s.res.r4.toNat]

/-- The reset state. -/
abbrev s0 : State := State.reset

/-- Input bytes in IN. -/
def withIn (bs : List Byte) : State := { s0.lmStore inBase bs with inLen := BitVec.ofNat 10 bs.length }

/-- "HELLO" (44_segment.md R237). -/
def hello : List Byte := [0x48, 0x45, 0x4C, 0x4C, 0x4F]

/-- "ABC" as character units (48_code128.md R377). -/
def abc : State := { s0.lmStore chrBase [0x41, 0, 0x42, 0, 0x43, 0] with chrLen := 3 }

/-- Function patterns of version 1, level M, drawn (as far as QR_INFO says). -/
def drawn1 : State := { s0 with qrInfo := QrInfo.drawn 1 21 .medium }

/-- A command word latched and due. -/
def busyWith (w : Word) : State := s0.latchWord w

/-! ## Well-formedness: an ill-formed term for each check -/

theorem test_wf_ver : (Instr.ccBits 63).wellFormed = true ∧ (Instr.ccBits 64).wellFormed = false ∧
    (Instr.qrFunc 64 .low).wellFormed = false := by decide
theorem test_wf_mask : (Instr.qrPlace 7).wellFormed = true ∧ (Instr.qrPlace 8).wellFormed = false ∧
    (Instr.fmtBch .low 8).wellFormed = false := by decide
theorem test_wf_byte : (Instr.gfExp 255).wellFormed = true ∧ (Instr.gfExp 256).wellFormed = false ∧
    (Instr.maskEval 256 0 0).wellFormed = false ∧ (Instr.maskEval 0 256 0).wellFormed = false ∧
    (Instr.maskEval 0 0 256).wellFormed = false ∧ (Instr.rsGen 256).wellFormed = false := by decide
theorem test_wf_len : (Instr.baAppend 31 0).wellFormed = true ∧ (Instr.baAppend 32 0).wellFormed = false := by decide

/-! ## Decoding: every constructor, words from the templates of 30_encoding.md R110 -/

theorem test_decode_system : decode 0b00000000000000000000000000000000 = .ok .nop := by decide
theorem test_decode_accumulator :
    decode 0b00000000000000000000000000000001 = .ok .baClear ∧
    decode 0b00000001000001010000100000000010 = .ok (.baAppend 8 0x105) ∧
    decode 0b00000000000000000000000000000011 = .ok .baPad := by decide
theorem test_decode_gf :
    decode 0b00000000100000000000001000010000 = .ok (.gfMul 0x02 0x80) ∧
    decode 0b00000000000000000000100000010001 = .ok (.gfExp 8) ∧
    decode 0b00000000000000000001110100010010 = .ok (.gfLog 0x1D) ∧
    decode 0b00000000000000000000011100010011 = .ok (.rsGen 7) ∧
    decode 0b00000000000000000000101000010100 = .ok (.rsEcc 10) := by decide
theorem test_decode_capacity :
    decode 0b00000000000000001000010100100000 = .ok (.capLookup 5 .quartile) ∧
    decode 0b00000000000000000000011100100001 = .ok (.alignPos 7) ∧
    decode 0b00000000000000001000010100100100 = .ok (.blockInfo 5 .quartile) := by decide
theorem test_decode_segment :
    decode 0b00000000000000000000101000100010 = .ok (.ccBits 10) ∧
    decode 0b00000000000000000000000100100011 = .ok (.totalBits 1) ∧
    decode 0b00100000101011000000000000110000 = .ok (.utf8Put 0x20AC) ∧
    decode 0b00000000000000000000000100110001 = .ok (.segWrite 1) := by decide
theorem test_decode_codewords :
    decode 0b00000000000000000100000001000000 = .ok (.qrSelect .medium) ∧
    decode 0b00000000000000001100000101000001 = .ok (.qrAssemble 1 .high) ∧
    decode 0b00000000000000001000010101000010 = .ok (.qrInterleave 5 .quartile) := by decide
theorem test_decode_matrix :
    decode 0b00000000000000000100000101010000 = .ok (.qrFunc 1 .medium) ∧
    decode 0b00000000000000110000000001010001 = .ok (.qrPlace 3) ∧
    decode 0b00000000000001010000000001010010 = .ok (.qrFormat 5) ∧
    decode 0b00000011000001010000010001010100 = .ok (.maskEval 4 5 3) ∧
    decode 0b00000000000001111000000001010101 = .ok (.fmtBch .quartile 7) ∧
    decode 0b00000000000000000000011101010110 = .ok (.verBch 7) := by decide
theorem test_decode_penalty :
    decode 0b00000000000000000000000001010011 = .ok .qrPenalty ∧
    decode 0b00000000000000001100000001011111 = .ok (.qrEncode .high) := by decide
theorem test_decode_code128 :
    decode 0b00000000010000010000000001100000 = .ok (.c128Map 0x41) ∧
    decode 0b00000000000000000110101001100001 = .ok (.c128Pattern 106) ∧
    decode 0b00000000000000000000000001100010 = .ok .c128Checksum ∧
    decode 0b00000000000000000000000001101111 = .ok .c128Encode := by decide
/-- One must-be-zero bit or unused field of each format (R107), and reserved opcodes (R111). -/
theorem test_decode_rejects :
    decode 0x00000100 = .error .mustBeZero ∧ decode 0x0008005F = .error .mustBeZero ∧
    decode 0x0000015F = .error .mustBeZero ∧ decode 0x00014021 = .error .mustBeZero ∧
    decode 0x01000010 = .error .mustBeZero ∧ decode 0x00010011 = .error .mustBeZero ∧
    decode 0x00002002 = .error .mustBeZero ∧ decode 0x00000160 = .error .mustBeZero ∧
    decode 0x00000004 = .error .reservedOpcode ∧ decode 0x000000FF = .error .reservedOpcode := by decide
/-- The examples of 30_encoding.md R114. -/
theorem test_encode_examples :
    encode (.qrEncode .low) = 0x0000005F ∧ encode (.qrFunc 1 .medium) = 0x00004150 ∧
    encode (.gfMul 0x02 0x80) = 0x00800210 ∧ encode (.baAppend 4 4) = 0x00040402 := by decide
theorem test_assembly :
    assembly (.qrEncode .low) = "QR_ENCODE ecc=L" ∧ assembly (.qrFunc 1 .medium) = "QR_FUNC ver=1, ecc=M" ∧
    assembly (.baAppend 4 4) = "BA_APPEND len=4, val=4" := by decide

/-! ## Commands: results the spec states -/

/-- 40_system.md R140. -/
theorem test_nop : (run .nop (busyWith 0)).readReg .status = 0x00000002 := by decide
/-- 60_exceptions.md R412: opcode 4 is reserved. -/
theorem test_illegal : (after s0 (step (busyWith 0x00000004))).readReg .status = 0x00000106 := by decide
/-- 41_bit_accumulator.md R152. -/
theorem test_baClear : (run .baClear s0).lmByte 0x0400 = 0 ∧ (run .baClear s0).lmByte 0x05FF = 0 := by decide +kernel
/-- 41_bit_accumulator.md R153: two appends from a cleared accumulator. -/
theorem test_baAppend :
    let t := run (.baAppend 8 0x105) (run (.baAppend 4 0x4) (s0.lmStore bitsBase [0, 0]))
    t.baLen = 12 ∧ t.lmBytes bitsBase 2 = [0x40, 0x50] := by decide +kernel
/-- 41_bit_accumulator.md R154. -/
theorem test_baPad :
    let t := run .baPad { s0.lmStore bitsBase [0x40, 0x5F] with baLen := 12 }
    t.baLen = 16 ∧ t.lmBytes bitsBase 2 = [0x40, 0x50] := by decide +kernel
/-- 42_gf_rs.md R173. -/
theorem test_gfMul : (run (.gfMul 0x02 0x80) s0).res.r0 = 0x1D ∧ (run (.gfMul 0xFF 0xFF) s0).res.r0 = 0xE2 := by
  decide +kernel
/-- 42_gf_rs.md R174. -/
theorem test_gfExp : (run (.gfExp 8) s0).res.r0 = 0x1D ∧ (run (.gfExp 255) s0).res.r0 = 0x01 := by decide +kernel
/-- 42_gf_rs.md R175. -/
theorem test_gfLog : (run (.gfLog 0x1D) s0).res.r0 = 8 ∧ (run (.gfLog 0) s0).status.errCode = .domain := by decide +kernel
/-- 42_gf_rs.md R177. -/
theorem test_rsGen :
    (run (.rsGen 7) s0).res.r0 = 8 ∧
    (run (.rsGen 7) s0).lmBytes workBase 8 = [0x01, 0x7F, 0x7A, 0x9A, 0xA4, 0x0B, 0x44, 0x75] := by decide +kernel
/-- 42_gf_rs.md R179: the version 1-M example. -/
theorem test_rsEcc :
    let s := { s0.lmStore workBase
      [0x10, 0x20, 0x0C, 0x56, 0x61, 0x80, 0xEC, 0x11, 0xEC, 0x11, 0xEC, 0x11, 0xEC, 0x11, 0xEC, 0x11] with
      arg := ⟨0, 16, 16⟩ }
    (run (.rsEcc 10) s).lmBytes (workBase + 16) 10 =
      [0xA5, 0x24, 0xD4, 0xC1, 0xED, 0x36, 0xC7, 0x87, 0x2C, 0x55] := by decide +kernel
/-- 43_capacity.md R206. -/
theorem test_capLookup : results (run (.capLookup 5 .quartile) s0) = [62, 4, 18, 1079, 37] := by decide
/-- 43_capacity.md R207. -/
theorem test_alignPos : results (run (.alignPos 7) s0) = [3, 0x00261606, 0, 0, 0] := by decide
/-- 43_capacity.md R208. -/
theorem test_blockInfo : results (run (.blockInfo 5 .quartile) s0) = [134, 33, 2, 15, 2] := by decide
/-- 44_segment.md R232: the band edge, and RANGE above 40. -/
theorem test_ccBits : (run (.ccBits 9) s0).res.r0 = 8 ∧ (run (.ccBits 10) s0).res.r0 = 16 ∧
    (run (.ccBits 41) s0).status.errCode = .range := by decide
/-- 44_segment.md R234. -/
theorem test_totalBits :
    (run (.totalBits 1) { s0 with inLen := 256 }).res.r1 = 1 ∧
    (run (.totalBits 10) { s0 with inLen := 256 }).res.r0 = 2068 := by decide
/-- 44_segment.md R236. -/
theorem test_utf8Put :
    let t := run (.utf8Put 0x20AC) (run (.utf8Put 0xE9) s0)
    t.inLen = 5 ∧ t.res.r0 = 3 ∧ t.lmBytes inBase 5 = [0xC3, 0xA9, 0xE2, 0x82, 0xAC] := by decide +kernel
/-- 44_segment.md R237. -/
theorem test_segWrite :
    let t := run (.segWrite 1) ((withIn hello).lmStore bitsBase [0, 0, 0, 0, 0, 0, 0])
    t.baLen = 52 ∧ t.lmBytes bitsBase 7 = [0x40, 0x54, 0x84, 0x54, 0xC4, 0xC4, 0xF0] := by decide +kernel
/-- 60_exceptions.md R413: CC_OVERFLOW before BA_FULL. -/
theorem test_segWrite_priority :
    (run (.segWrite 1) { s0 with inLen := 300, baLen := 4000 }).status.errCode = .ccOverflow := by decide
/-- 45_qr_codewords.md R261. -/
theorem test_qrSelect :
    results (run (.qrSelect .low) { s0 with inLen := 5 }) = [1, 52, 152, 0, 0] ∧
    (run (.qrSelect .low) { s0 with inLen := 272 }).status.errCode = .payloadTooLarge := by decide +kernel
/-- 45_qr_codewords.md R265. -/
theorem test_qrAssemble :
    let t := run (.qrAssemble 1 .low) (withIn hello)
    t.baLen = 152 ∧ t.res.r1 = 12 ∧
      t.lmBytes bitsBase 10 = [0x40, 0x54, 0x84, 0x54, 0xC4, 0xC4, 0xF0, 0xEC, 0x11, 0xEC] := by decide +kernel
/-- 60_exceptions.md R413: RANGE before PAYLOAD_TOO_LARGE. -/
theorem test_qrAssemble_priority :
    (run (.qrAssemble 0 .low) { s0 with inLen := 600 }).status.errCode = .range := by decide
/-- 45_qr_codewords.md R268. -/
theorem test_qrInterleave :
    let t := run (.qrInterleave 1 .low) (s0.lmStore bitsBase
      [0x40, 0x54, 0x84, 0x54, 0xC4, 0xC4, 0xF0, 0xEC, 0x11, 0xEC, 0x11, 0xEC, 0x11, 0xEC, 0x11, 0xEC, 0x11, 0xEC, 0x11])
    t.cwLen = 26 ∧ t.lmBytes (cwBase + 19) 7 = [0x4D, 0x2A, 0xD3, 0xBB, 0x9F, 0x20, 0x84] := by decide +kernel
/-- 46_qr_matrix.md R309: QR_INFO of the example. -/
theorem test_qrFunc_info : (run (.qrFunc 1 .medium) s0).readReg .qrInfo = 0x01005501 := by decide +kernel
/-- 46_qr_matrix.md R309, picture (a): finder, separator, timing, reserved format, dark module, data. -/
theorem test_qrFunc_cells :
    [(0, 0), (1, 1), (7, 0), (8, 6), (9, 6), (8, 0), (8, 13), (9, 9)].map (fun p => (functionPlane 1).lookup p) =
      [some true, some false, some false, some true, some false, some false, some true, none] := by decide +kernel
/-- 46_qr_matrix.md R310: the first cells of version 1, and the strips around column 6. -/
theorem test_cellOrder :
    (cellOrder 21).take 4 = [(20, 20), (19, 20), (20, 19), (19, 19)] ∧ (cellOrder 21).length = 420 ∧
    (cellOrder 21)[6 * 42]? = some (8, 20) ∧ (cellOrder 21)[7 * 42]? = some (5, 0) := by decide +kernel
/-- 46_qr_matrix.md R314: SEQ right after reset; R312: two stream bits and a remainder cell under mask 1 (rows). -/
theorem test_qrPlace :
    (run (.qrPlace 0) s0).status.errCode = .seq ∧
    maskedCells 1 [true, false] [(20, 20), (19, 20), (20, 19)] =
      [((20, 20), false), ((19, 20), true), ((20, 19), false)] := by decide
/-- 46_qr_matrix.md R324: the cells of the example (level L, mask 3). -/
theorem test_qrFormat :
    let t := run (.qrFormat 3) { drawn1 with qrInfo := QrInfo.drawn 1 21 .low }
    t.res.r0 = 0x789D ∧ t.lmByte (cellOffset 8 0) = 3 ∧ t.lmByte (cellOffset 8 1) = 2 ∧
      t.lmByte (cellOffset 0 8) = 3 := by decide +kernel
/-- 47_qr_penalty.md R353: the bounds of N4 for a 21 by 21 symbol; R356: SEQ right after reset. -/
theorem test_qrPenalty :
    [176, 177, 198, 199, 242, 243, 264, 265].map (fun d => penaltyN4 d 441) = [20, 10, 10, 0, 0, 10, 10, 20] ∧
    (run .qrPenalty s0).status.errCode = .seq := by decide
/-- 47_qr_penalty.md R350 and R352 on a line: a run of 7, a look-alike. -/
theorem test_penalty_lines :
    lineRunCost [true, true, true, true, true, true, true, false] = 5 ∧
    lineLookAlikes ([true] ++ lookAlike1) = 1 ∧ lineLookAlikes lookAlike2 = 1 := by decide
/-- 46_qr_matrix.md R317: the eight masks at (5, 3). -/
theorem test_maskEval :
    (List.range 8).map (fun m => (run (.maskEval m 5 3) s0).res.r0.toNat) = [1, 0, 0, 0, 1, 0, 0, 1] ∧
    (run (.maskEval 8 0 0) s0).status.errCode = .range := by decide
/-- 46_qr_matrix.md R321. -/
theorem test_fmtBch :
    results (run (.fmtBch .low 0) s0) = [0x77C4, 8, 0x3D6, 0, 0] ∧
    results (run (.fmtBch .quartile 7) s0) = [0x2BED, 31, 0x3FF, 0, 0] := by decide
/-- 46_qr_matrix.md R326, R327. -/
theorem test_verBch :
    [7, 8, 9, 10, 63].map (fun v => (run (.verBch v) s0).res.r0.toNat) =
      [0x07C94, 0x085BC, 0x09A99, 0x0A4D3, 0x3FB85] := by decide
/-- 47_qr_penalty.md R358: the errors, and the words that need no grid. -/
theorem test_qrEncode :
    (run (.qrEncode .low) { s0 with inLen := 272 }).status.errCode = .payloadTooLarge ∧
    (run (.qrEncode .low) { s0 with inLen := 513 }).status.errCode = .range ∧
    (run (.qrEncode .low) { s0 with inLen := 5 }).res.r3 = 21 := by decide +kernel
/-- 47_qr_penalty.md R357, R358: the choice among the example's penalties; ties go to the lowest mask. -/
theorem test_chooseMask :
    chooseMask (PenRegs.ofList [306, 524, 403, 301, 445, 359, 389, 319]) = 3 ∧
    chooseMask (PenRegs.ofList [9, 8, 7, 8, 7, 9, 9, 9]) = 2 := by decide
/-- 48_code128.md R374. -/
theorem test_c128Map :
    [0x20, 0x7E, 0x41, 0x1F, 0x7F, 0xFFFF, 0x3F].map (fun u => results (run (.c128Map u) s0)) =
      [[0, 0, 0, 0, 0], [94, 0, 0, 0, 0], [33, 0, 0, 0, 0], [31, 1, 0, 0, 0], [31, 1, 0, 0, 0], [31, 1, 0, 0, 0],
       [31, 0, 0, 0, 0]] := by decide
/-- 48_code128.md R372, R375: rows 104 and 106, without and with the termination bar. -/
theorem test_c128Pattern :
    results (run (.c128Pattern 104) s0) = [0x412112, 6, 11, 0, 0] ∧
    results (run (.c128Pattern 106) s0) = [0x111332, 6, 11, 0, 0] ∧
    results (run (.c128Pattern 106) { s0 with params := { Params.default with stopTerm := true } }) =
      [0x2111332, 7, 13, 0, 0] := by decide +kernel
/-- 48_code128.md R377. -/
theorem test_c128Checksum :
    results (run .c128Checksum abc) = [1, 310, 0, 0, 0] ∧ results (run .c128Checksum s0) = [1, 104, 0, 0, 0] ∧
    (run .c128Checksum { s0 with chrLen := 81 }).status.errCode = .length := by decide +kernel
/-- 48_code128.md R379: the example's codewords, counts and first two bars. -/
theorem test_c128Encode :
    let t := run .c128Encode abc
    t.lmBytes c128CwBase 6 = [104, 33, 34, 35, 1, 106] ∧ t.c128CwLen = 6 ∧ t.barCount = 18 ∧ t.barWidth = 66 ∧
      t.lmBytes barsBase 8 = [0, 0, 2, 0, 3, 0, 1, 0] := by decide +kernel

/-! ## The host interface -/

/-- 20_memory.md R85, R86, R75. -/
theorem test_lm_little_endian :
    (host (wr32 Params.default 0x20FC 0x11223344) s0).lmBytes 0x20FC 4 = [0x44, 0x33, 0x22, 0x11] ∧
    (host (rd32 Params.default 0x2100) s0).rdata = some 0 ∧
    host (wr8 Params.default 0x2100 0xFF) s0 = s0 := by decide +kernel
/-- 10_state.md R35, 70_reset_and_hazards.md R462. -/
theorem test_drop :
    (host (cmd Params.default .nop) (busyWith 0x5F)).readReg .status = 0x00000009 ∧
    (host (setArg Params.default 1 7) (busyWith 0x5F)).arg.a1 = 0 ∧
    (host (setArg Params.default 1 7) s0).arg.a1 = 7 := by decide
/-- 10_state.md R34. -/
theorem test_clear_status :
    let s := { s0 with status := { busy := false, done := true, err := true, drop := true, errCode := .length } }
    s.readReg .status = 0x0000090E ∧ (host (clrSt Params.default) s).readReg .status = 0 ∧
      (host (wr Params.default 0x00C 0x00000004) s).readReg .status = 0x0000000A := by decide
/-- 10_state.md R53, 60_exceptions.md R419. -/
theorem test_irq :
    (run .nop (host (wr Params.default 0x008 1) s0)).irq = true ∧ (run .nop s0).irq = false := by decide
/-- 70_reset_and_hazards.md R452. -/
theorem test_soft_reset :
    let t := host (wr Params.default 0x008 3) { busyWith 0x00000010 with arg := ⟨1, 2, 3⟩ }
    t.status = Status.reset ∧ t.irqEn = false ∧ t.arg = ⟨0, 0, 0⟩ := by decide
/-- 20_memory.md R87, R88; both sides of each condition. -/
theorem test_bus_errors :
    (rd Params.default 0x002).answered Params.default = false ∧
    (HostInput.read 0x40000000 .w16).answered Params.default = false ∧
    (rd Params.default 0xFFC).answered Params.default = true ∧
    (rd16 Params.default 1).answered Params.default = false ∧ (rd16 Params.default 2).answered Params.default = true ∧
    (HostInput.read 0x40001000 .w32).answered Params.default = false := by decide
/-- 30_encoding.md R116: WAIT reads STATUS until BUSY is 0. -/
theorem test_wait :
    (host .wait (busyWith 0)).inputs = [.wait] ∧ (host .wait (busyWith 0)).rdata = some 1 ∧
    (host .wait s0).inputs = [] := by decide
/-- 10_state.md R30, R31, R32. -/
theorem test_identity : s0.regRead 0x000 = 0x53454301 ∧ s0.regRead 0x004 = 0x0000000A ∧ s0.regRead 0x018 = 0 := by decide

/-! ## Witnesses: concrete states and operands that meet the hypotheses of each statement -/

theorem witness_DecodeOfEncode : (Instr.maskEval 255 255 255).wellFormed = true ∧ (Instr.baAppend 31 0xFFFF).wellFormed = true ∧
    (Instr.qrFunc 63 .high).wellFormed = true ∧ (Instr.fmtBch .high 7).wellFormed = true := by decide
theorem witness_EncodeOfDecode : decode 0x00071855 = .error .mustBeZero ∧ decode 0x0007C055 = .ok (.fmtBch .high 7) := by decide
theorem witness_DecodeFollowsOpcodeTable :
    (∃ r ∈ opcodeTable, r.matches 0x0007C055 = true) ∧ (∀ r ∈ opcodeTable, OpRow.matches r 0x00000004 = false) ∧
    (∀ r ∈ opcodeTable, OpRow.matches r 0x00000100 = false) := by decide
theorem witness_StepRunsTheLatchedCommand :
    ((busyWith 0).status.busy = true ∧ (busyWith 0).inputs = [] ∧ decode (busyWith 0).lastCmd = .ok .nop) ∧
    (({ busyWith 0 with inputs := [.wait] } : State).wait = 0) ∧
    (({ s0 with inputs := [.wait] } : State).inputs = .wait :: [] ∧ s0.status.busy = false) ∧
    ({ busyWith 0 with inputs := [.wait], wait := 1 } : State).wait ≠ 0 ∧ s0.quiescent := by
  refine ⟨by decide, by decide, by decide, by decide, rfl, rfl⟩
theorem witness_IllegalWordsCompleteWithIllegal :
    (∀ r ∈ opcodeTable, OpRow.matches r 0x000000FF = false) ∧ (∃ r ∈ opcodeTable, r.matches 0x00000000 = true) := by decide
theorem witness_ErrorsReportedByPriority :
    decode 0x000000FF = .error .reservedOpcode ∧
    Instr.firstError (.segWrite 1) { s0 with inLen := 300, baLen := 4000 } = some .ccOverflow ∧
    Instr.firstError (.qrAssemble 0 .low) { s0 with inLen := 600 } = some .range ∧
    Instr.firstError (.qrAssemble 1 .low) { s0 with inLen := 17 } = none ∧
    Instr.firstError (.qrAssemble 1 .low) { s0 with inLen := 18 } = some .payloadTooLarge := by decide +kernel
theorem witness_ErrorsArePrecise :
    s0.status.busy = false ∧ ∃ t, (s0.accept 0x00000012).completeCommand = .next t ∧ t.status.err = true :=
  ⟨rfl, _, rfl, rfl⟩
theorem witness_Inv : Inv s0 ∧ Inv drawn1 := by decide
theorem witness_Inv_busy : Inv (busyWith 0x5F) := by decide
theorem witness_Inv_bounds :
    Inv { s0 with baLen := 4096, cwLen := 346, barCount := 250, barWidth := 915, c128CwLen := 83 } := by decide
theorem witness_CommandsWriteOnlyWhatTheTableLists :
    (Inv s0 ∧ ∃ t, exec .nop s0 = .next t) ∧ ∃ t, exec (.gfLog 0) s0 = .next t ∧ t.status.err = true :=
  ⟨⟨witness_Inv.1, _, rfl⟩, _, rfl, rfl⟩
theorem witness_BaAppendWritesTheBitsMsbFirst :
    (16 ≤ 16 ∧ ({ s0 with baLen := 4080 } : State).baLen.toNat + 16 ≤ 4096) ∧
    (0 ≤ 16 ∧ ({ s0 with baLen := 4096 } : State).baLen.toNat + 0 ≤ 4096) := by decide
theorem witness_BaPadZeroesToTheByteBoundary :
    ({ s0 with baLen := 4096 } : State).baLen.toNat ≤ 4096 ∧ ({ s0 with baLen := 4089 } : State).baLen.toNat ≤ 4096 := by decide
theorem witness_GfCommandsWriteRes0 : (0x80 : Byte) = gfExp 7 ∧ (0x8E : Byte) = gfExp 254 ∧ (0x1D : Byte) ≠ 0 := by decide +kernel
theorem witness_GfTablesAndFieldLaws : 253 ≤ 253 ∧ 254 ≤ 254 ∧ (0xFF : Byte) ≠ 0 ∧ (0x01 : Byte) ≠ 0 := by decide
theorem witness_RsGenIsMonicWithItsRoots : 255 ≤ 255 ∧ 254 < 255 ∧ 0 < 255 := by decide
theorem witness_RsEccMakesAMultipleOfTheGenerator : 255 ≤ 255 ∧ 254 < 255 := by decide
theorem witness_TableCommandsReturnTheirEntries : (1 ≤ 1 ∧ 1 ≤ 10) ∧ (1 ≤ 10 ∧ 10 ≤ 10) := by decide
theorem witness_CapacityTablesAgreeWithTheGrid : (1 ≤ 1 ∧ 1 ≤ 10) ∧ (1 ≤ 10 ∧ 10 ≤ 10) := by decide
theorem witness_RsCommandsStoreAtArg2 :
    ({ s0 with arg := ⟨0, 0, 768⟩ } : State).arg.a2.toNat + 255 + 1 ≤ 1024 ∧
    ({ s0 with arg := ⟨1024, 0, 769⟩ } : State).arg.a0.toNat + (0 : Word).toNat ≤ 1024 ∧
    ({ s0 with arg := ⟨1024, 0, 769⟩ } : State).arg.a2.toNat + 255 ≤ 1024 := by decide
theorem witness_SegmentQueriesReturnTheirCounts :
    ({ s0 with inLen := 512 } : State).inLen.toNat ≤ 512 ∧ (9 ≤ 9 ∧ 255 < ({ s0 with inLen := 256 } : State).inLen.toNat) ∧
    ({ s0 with inLen := 255 } : State).inLen.toNat ≤ 255 ∧ 1 ≤ 40 ∧ 40 ≤ 40 := by decide
theorem witness_Utf8PutAppendsTheExpansion :
    ({ s0 with inLen := 509 } : State).inLen.toNat + [0xE2#8, 0x82#8, 0xAC#8].length ≤ 512 ∧
    [0b1110#4 ++ (0x20AC#16).extractLsb' 12 4, 0b10#2 ++ (0x20AC#16).extractLsb' 6 6, 0b10#2 ++ (0x20AC#16).extractLsb' 0 6] =
      [0xE2#8, 0x82#8, 0xAC#8] ∧
    [0b110#3 ++ (0xE9#16).extractLsb' 6 5, 0b10#2 ++ (0xE9#16).extractLsb' 0 6] = [0xC3#8, 0xA9#8] := by decide
theorem witness_SegWriteAppendsTheSegment :
    (255 ≤ 2 ^ 8 - 1 ∧ 2044 + 4 + 8 + 8 * 255 ≤ 4096) ∧ (509 ≤ 2 ^ 16 - 1 ∧ 4 + 4 + 16 + 8 * 509 ≤ 4096) ∧
    ({ s0 with inLen := 509, baLen := 4 } : State).inLen.toNat = 509 := by decide
theorem witness_QrSelectFindsTheSmallestVersion :
    Inv { s0 with inLen := 271 } ∧ ({ s0 with inLen := 271 } : State).inLen.toNat ≤ 512 ∧
    (1 ≤ 10 ∧ 10 ≤ s0.params.maxVersion ∧ fits 271 10 .low = true) := by decide
theorem witness_QrEncodeCapacityBoundary :
    s0.params.maxVersion = 10 ∧ ({ s0 with inLen := 272 } : State).inLen.toNat ≤ 512 ∧
    perLevel 271 213 151 119 .low < ({ s0 with inLen := 272 } : State).inLen.toNat ∧
    ({ s0 with inLen := 119 } : State).inLen.toNat ≤ perLevel 271 213 151 119 .high := by decide
theorem witness_QrAssembleBuildsTheDataCodewords :
    (17 ≤ 2 ^ 8 - 1 ∧ 4 + 8 + 8 * 17 ≤ 8 * dataCodewords 1 .low ∧
      (min (8 * dataCodewords 1 .low) (4 + 8 + 8 * 17 + 4) + 7) / 8 = 19) ∧
    (271 ≤ 2 ^ 16 - 1 ∧ 4 + 16 + 8 * 271 ≤ 8 * dataCodewords 10 .low) := by decide
theorem witness_QrInterleavePlacesEveryCodeword :
    (blockSplit 5 .quartile).nShort = 2 ∧ numBlocks 5 .quartile = 4 ∧ (blockSplit 5 .quartile).shortData = 15 ∧
    eccPerBlock 5 .quartile = 18 ∧ blockStart 5 .quartile 3 = 46 := by decide
theorem witness_QrFuncDrawsByVersionAlone : (1 ≤ 1 ∧ 1 ≤ 10) ∧ (10 ≤ 10 ∧ 57 < 64 ∧ 4 * 10 + 17 ≤ 57) := by decide
theorem witness_QrFuncDrawsThePatterns :
    (0, 0).1 < 21 ∧ cheb 0 0 3 3 = 3 ∧ cheb 7 7 3 3 = 4 ∧ (8 ≤ 8 ∧ 8 + 8 < 21) ∧ (8 ≤ 12 ∧ 12 + 8 < 21) ∧
    (22, 22) ∈ alignmentCentres 7 ∧ cheb 24 20 22 22 = 2 ∧ (38, 6) ∉ alignmentCentres 7 := by decide
theorem witness_QrPlaceWritesTheMaskedStream :
    Inv drawn1 ∧ drawn1.qrInfo.funcValid = true ∧ 21 = drawn1.qrInfo.size.toNat ∧ 7 < 8 ∧
    Inv { s0 with qrInfo := QrInfo.drawn 10 57 .low } := by decide
theorem witness_QrFormatWritesBothCopies :
    Inv drawn1 ∧ drawn1.qrInfo.funcValid = true ∧ 21 = drawn1.qrInfo.size.toNat ∧ 7 < 8 ∧ 14 ≤ 14 := by decide
theorem witness_MaskAndBchCommandsReturnTheirWords : 7 ≤ 7 ∧ 0 ≤ 7 ∧ 63 < 64 := by decide
theorem witness_FunctionCellsAreInvariantUnderMasking :
    (1 ≤ 10 ∧ 10 ≤ 10 ∧ 57 = 4 * 10 + 17) ∧ (∀ i, i ≤ 14 → (0, 0) ≠ fmt1 i ∧ (0, 0) ≠ fmt2 i 57) ∧
    (functionPlane 10).func 0 0 = true ∧ [0, 7].getLast? = some 7 := by decide +kernel
theorem witness_QrPenaltyScoresTheDarkBits :
    Inv drawn1 ∧ drawn1.qrInfo.funcValid = true ∧ ({ drawn1 with inLen := 1 } : State).qrInfo = drawn1.qrInfo ∧
    ∃ t, exec .qrPenalty { drawn1 with inLen := 1 } = .next t := ⟨by decide, rfl, rfl, _, rfl⟩
theorem witness_QrEncodeCompletesWithItsSymbol :
    Inv { s0 with inLen := 18 } ∧ ({ s0 with inLen := 18 } : State).inLen.toNat ≤ 512 ∧ 2 ≤ s0.params.maxVersion ∧
    fits 18 2 .low = true ∧ (∀ u, u < 2 → 1 ≤ u → fits 18 u .low = false) := by decide
theorem witness_QrEncodeChoosesTheLeastPenalty : ∃ t, exec (.qrEncode .low) s0 = .next t ∧ t.status.err = false :=
  ⟨_, rfl, rfl⟩
theorem witness_QrEncodeMatchesTheSingleCommands :
    Inv s0 ∧ ∃ t, exec (.qrEncode .low) s0 = .next t ∧ t.status.err = false := ⟨by decide, _, rfl, rfl⟩
theorem witness_QrEncodeDependsOnItsInputOnly :
    Inv s0 ∧ Inv { s0 with baLen := 9 } ∧ s0.inBytes = ({ s0 with baLen := 9 } : State).inBytes ∧
    (∃ t, exec (.qrEncode .low) s0 = .next t) ∧ ∃ t, exec (.qrEncode .low) { s0 with baLen := 9 } = .next t :=
  ⟨by decide, by decide, rfl, ⟨_, rfl⟩, _, rfl⟩
theorem witness_C128LookupsReturnTheirEntries :
    (0x20 ≤ (0x20 : Half).toNat ∧ (0x20 : Half).toNat ≤ 0x7E) ∧ (0x20 ≤ (0x7E : Half).toNat ∧ (0x7E : Half).toNat ≤ 0x7E) ∧
    (0x1F : Half).toNat < 0x20 ∧ 0x7E < (0x7F : Half).toNat ∧ 106 ≤ 106 := by decide
theorem witness_C128ChecksumIsTheWeightedSum : ({ s0 with chrLen := 80 } : State).chrLen.toNat ≤ 80 := by decide
theorem witness_C128EncodeStoresCodewordsAndBars :
    ({ s0 with chrLen := 80 } : State).chrLen.toNat = 80 ∧ 80 ≤ 80 ∧ s0.params.stopTerm.toNat = 0 ∧ s0.chrLen.toNat = 0 ∧
    2 * 3 < (c128Pattern true 106).length := by decide
theorem witness_HardwareResetGivesTheResetState : s0.params.legal = true := by decide
theorem witness_SoftResetAbortsAndResets :
    Inv s0 ∧ (2#32).getLsbD 1 = true ∧ s0.status.busy = false ∧ (busyWith 0x5F).status.busy = true ∧
    decode (busyWith 0x5F).lastCmd = .ok (.qrEncode .low) ∧ decode (busyWith 0xFF).lastCmd = .error .reservedOpcode ∧
    Region.bits.holds 0x05FF = true ∧ Region.grid.holds 0x1FFF = true := by decide
theorem witness_ResetsLeaveUnspecifiedBytesFree :
    0x20FF < lmEnd ∧ (busyWith 0x6F).status.busy = true ∧ decode (busyWith 0x6F).lastCmd = .ok .c128Encode ∧
    (∃ r ∈ Instr.lmRegions .c128Encode, r.holds 0x20FF = true) ∧ ∃ r ∈ Instr.lmRegions .c128Encode, r.holds 0x0C00 = true := by
  decide
theorem witness_CmdWriteIsAcceptedOrDropped :
    s0.status.busy = false ∧ (busyWith 0).status.busy = true ∧ decode 0x0000005F = .ok (.qrEncode .low) := by decide
theorem witness_RegisterWritesReadBack : s0.status.busy = false ∧ (0xFFFFFFFD#32).getLsbD 1 = false := by decide
theorem witness_IrqFollowsDoneAndEnable :
    (∃ t, (busyWith 0).completeCommand = .next t) ∧ (1#32).getLsbD 1 = false ∧ (2#32).getLsbD 1 = true ∧
    s0.status.busy = false := ⟨⟨_, rfl⟩, rfl, rfl, rfl⟩
theorem witness_WritesWhileBusyAreDropped :
    (busyWith 0).status.busy = true ∧ (busyWith 0).params.legal = true ∧
    (0x3FFC < 0x4000 ∧ 0x3FFC % Width.bytes .w32 = 0) ∧ (0x0FC % 4 = 0 ∧ ∀ r ∈ droppable, 0x0FC ≠ r.offset) ∧
    (1#32).getLsbD 1 = false ∧ (3#32).getLsbD 1 = true := by decide
theorem witness_NothingChangesBeforeCompletion :
    ∃ t, step { busyWith 0 with inputs := [.wait], wait := 1 } = .next t ∧ t.status.busy = true := ⟨_, rfl, rfl⟩
theorem witness_ReservedOffsetsAndBitsReadZero :
    (0x018 < 4096 ∧ 0x018 % 4 = 0 ∧ ∀ r ∈ Reg.all, r.offset ≠ 0x018) ∧ (0xFFC < 4096 ∧ 0xFFC % 4 = 0 ∧ ∀ r ∈ Reg.all, r.offset ≠ 0xFFC) ∧
    (0x400#32 &&& Reg.implemented .inLen = 0#32 &&& Reg.implemented .inLen) := by decide
theorem witness_BusErrorsAreExactlyTheBadAccesses :
    s0.params.legal = true ∧ (4095 < 4096 ∧ ¬ (Width.w32 = .w32 ∧ 4095 % 4 = 0)) ∧ (4092 < 4096 ∧ 4092 % 4 = 0) ∧
    (0x3FFF < 0x4000 ∧ 0x3FFF % Width.bytes .w16 ≠ 0) ∧ (0x3FFF < 0x4000 ∧ 0x3FFF % Width.bytes .w8 = 0) := by decide
theorem witness_LmAccessesAreLittleEndian :
    s0.params.legal = true ∧ s0.status.busy = false ∧ (0x20FC < 0x2100 ∧ 0x20FC % Width.bytes .w32 = 0) ∧
    (0x2100 ≤ 0x2100 ∧ 0x2100 % Width.bytes .w32 = 0) := by decide
theorem witness_RunningCommandsComplete :
    let s := { busyWith 0x5F with inputs := [.wait, wr Params.default 0x008 1], wait := 5 }
    s.status.busy = true ∧ (∀ i ∈ s.inputs, HostInput.answered s.params i = true) ∧
      (∀ i ∈ s.inputs, HostInput.resets s.params i = false) := by decide
theorem witness_ResultsDoNotDependOnLatency : ∃ t, exec (.gfMul 2 3) s0 = .next t := ⟨_, rfl⟩
theorem witness_NoStepChangesTheParameters : ∃ t, step s0 = .next t := ⟨_, rfl⟩
theorem witness_AnsweredHostsNeverFault :
    ∀ i ∈ [HostInput.wait, .hardwareReset, rd8 Params.default 0x3FFF], i.answered Params.default = true := by decide
theorem witness_InvHoldsAtReset : Params.default.legal = true ∧ (⟨0x4000, 0, 1, true⟩ : Params).legal = true := by decide
theorem witness_EveryStepKeepsTheInvariant : Inv (busyWith 0) ∧ ∃ t, step (busyWith 0) = .next t := ⟨by decide, _, rfl⟩

end Sys2Proof.Tests
end

section
/-! SUPPORT. What an update of the state leaves as it was: a frame, its rules, and one frame per shared operation. -/

namespace Sys2Proof.Machine

/-! ## Frames and outcomes -/

/-- What happens to the state before a command completes: no register but the named ones changes, no LM byte but the
named ones, and nothing that no command writes (10_state.md R56). -/
structure Frame (s t : State) (written : List Reg) (stored : Nat → Prop) : Prop where
  status : t.status = s.status
  regs   : RegsKept s t written
  lm     : LmKept s t stored
  own    : OwnKept s t

/-- The offsets of some regions. -/
def inRegions (rs : List Region) : Nat → Prop := fun a => ∃ r ∈ rs, r.holds a = true

/-- A command either raises an error, or completes after a change that keeps to the named registers and offsets
(60_exceptions.md R414, R415). -/
def WritesOnly (s : State) (written : List Reg) (stored : Nat → Prop) (o : Host.Outcome State Fault Refusal) : Prop :=
  (∃ c, o = s.raise c) ∨ ∃ u, Frame s u written stored ∧ o = u.succeed

section Rules

variable {s t u : State} {W : List Reg} {P : Nat → Prop}

theorem frame_refl (s : State) : Frame s s W P :=
  ⟨rfl, fun _ _ _ => rfl, fun _ _ => rfl, ownKept_refl s⟩

theorem Frame.trans (h : Frame s t W P) (h' : Frame t u W P) : Frame s u W P := by
  obtain ⟨p, e, d, w, i, r⟩ := h.own
  obtain ⟨p', e', d', w', i', r'⟩ := h'.own
  exact ⟨h'.status.trans h.status, fun r hs hw => (h'.regs r hs hw).trans (h.regs r hs hw),
    fun a ha => (h'.lm a ha).trans (h.lm a ha),
    p'.trans p, e'.trans e, d'.trans d, w'.trans w, i'.trans i, r'.trans r⟩

/-- No register is held in LM. -/
theorem frame_of_lm (s : State) (m : List Host.Cell) (h : LmKept s { s with lm := m } P) :
    Frame s { s with lm := m } W P :=
  ⟨rfl, fun r _ _ => by cases r <;> rfl, h, rfl, rfl, rfl, rfl, rfl, rfl⟩

/-- No register but STATUS shows STATUS. -/
theorem readReg_setStatus (s : State) (st : Status) {r : Reg} (hr : r ≠ .status) :
    State.readReg { s with status := st } r = s.readReg r := by
  cases r with
  | status => exact absurd rfl hr
  | _ => rfl

/-- A command that completes after a change keeps the frame of the change: completion writes STATUS alone. -/
theorem Frame.completes {i : Instr} (h : Frame s u W P) (hx : exec i s = u.succeed) :
    Completes i s { u with status := u.status.completed } W P where
  next := hx
  status := congrArg Status.completed h.status
  regs := fun r hs hw => (readReg_setStatus u _ hs).trans (h.regs r hs hw)
  lm := h.lm
  own := h.own

theorem WritesOnly.raise (c : ErrCode) : WritesOnly s W P (s.raise c) := .inl ⟨c, rfl⟩

theorem WritesOnly.succeed (h : Frame s u W P) : WritesOnly s W P u.succeed := .inr ⟨u, h, rfl⟩

theorem WritesOnly.ite {p : Prop} [Decidable p] {a b : Host.Outcome State Fault Refusal}
    (ha : p → WritesOnly s W P a) (hb : ¬ p → WritesOnly s W P b) : WritesOnly s W P (if p then a else b) := by
  split
  · exact ha ‹_›
  · exact hb ‹_›

/-! ## Registers -/

/-- The RES registers outside the written ones hold the same. -/
def ResKept (written : List Reg) (old new : ResRegs) : Prop :=
  (.res0 ∉ written → new.r0 = old.r0) ∧ (.res1 ∉ written → new.r1 = old.r1) ∧ (.res2 ∉ written → new.r2 = old.r2) ∧
    (.res3 ∉ written → new.r3 = old.r3) ∧ (.res4 ∉ written → new.r4 = old.r4)

theorem Frame.setRes (h : Frame s t W P) (rs : ResRegs) (hrs : ResKept W t.res rs := by simp [ResKept]) :
    Frame s { t with res := rs } W P := by
  obtain ⟨h0, h1, h2, h3, h4⟩ := hrs
  refine h.trans ⟨rfl, fun r _ hw => ?_, fun _ _ => rfl, ownKept_refl t⟩
  cases r with
  | res0 => exact h0 hw
  | res1 => exact h1 hw
  | res2 => exact h2 hw
  | res3 => exact h3 hw
  | res4 => exact h4 hw
  | _ => rfl

/-! Every other register is a field of its own. -/

theorem frame_setInLen (s : State) (n : BitVec 10) (h : .inLen ∈ W) : Frame s { s with inLen := n } W P :=
  ⟨rfl, fun r _ hw => by
    cases r with
    | inLen => exact absurd h hw
    | _ => rfl, fun _ _ => rfl, ownKept_refl s⟩

theorem frame_setBaLen (s : State) (n : BitVec 13) (h : .baLen ∈ W) : Frame s { s with baLen := n } W P :=
  ⟨rfl, fun r _ hw => by
    cases r with
    | baLen => exact absurd h hw
    | _ => rfl, fun _ _ => rfl, ownKept_refl s⟩

theorem frame_setCwLen (s : State) (n : BitVec 10) (h : .cwLen ∈ W) : Frame s { s with cwLen := n } W P :=
  ⟨rfl, fun r _ hw => by
    cases r with
    | cwLen => exact absurd h hw
    | _ => rfl, fun _ _ => rfl, ownKept_refl s⟩

theorem frame_setQrInfo (s : State) (q : QrInfo) (h : .qrInfo ∈ W) : Frame s { s with qrInfo := q } W P :=
  ⟨rfl, fun r _ hw => by
    cases r with
    | qrInfo => exact absurd h hw
    | _ => rfl, fun _ _ => rfl, ownKept_refl s⟩

theorem frame_setPen (s : State) (p : PenRegs)
    (h : ∀ r ∈ [Reg.pen0, .pen1, .pen2, .pen3, .pen4, .pen5, .pen6, .pen7], r ∈ W) : Frame s { s with pen := p } W P :=
  ⟨rfl, fun r _ hw => by
    cases r with
    | pen0 | pen1 | pen2 | pen3 | pen4 | pen5 | pen6 | pen7 => exact absurd (h _ (by decide)) hw
    | _ => rfl, fun _ _ => rfl, ownKept_refl s⟩

/-- The registers QR_ENCODE sets last (47_qr_penalty.md R358, step 9). -/
theorem Frame.setSymbol (h : Frame s t W P) (p : PenRegs) (q : QrInfo) (rs : ResRegs)
    (hw : ∀ r ∈ [Reg.qrInfo, .pen0, .pen1, .pen2, .pen3, .pen4, .pen5, .pen6, .pen7], r ∈ W)
    (hrs : ResKept W t.res rs := by simp [ResKept]) : Frame s { t with pen := p, qrInfo := q, res := rs } W P :=
  ((h.trans (frame_setPen t p fun r hr => hw r (List.mem_cons_of_mem _ hr))).trans
    (frame_setQrInfo _ q (hw _ List.mem_cons_self))).setRes rs hrs

/-- The registers C128_ENCODE sets (48_code128.md R379). -/
theorem Frame.setBars (h : Frame s t W P) (k n : BitVec 9) (w : BitVec 16) (rs : ResRegs)
    (hw : ∀ r ∈ [Reg.c128CwLen, .barCount, .barWidth], r ∈ W) (hrs : ResKept W t.res rs := by simp [ResKept]) :
    Frame s { t with c128CwLen := k, barCount := n, barWidth := w, res := rs } W P := by
  have hb : Frame t { t with c128CwLen := k, barCount := n, barWidth := w } W P :=
    ⟨rfl, fun r _ hr => by
      cases r with
      | c128CwLen | barCount | barWidth => exact absurd (hw _ (by decide)) hr
      | _ => rfl, fun _ _ => rfl, ownKept_refl t⟩
  exact (h.trans hb).setRes rs hrs

/-! ## Local memory -/

/-- An offset inside a region. -/
theorem Region.holds_iff (r : Region) (a : Nat) : r.holds a = true ↔ r.base ≤ a ∧ a < r.base + r.size := by
  simp [Region.holds]

theorem holds_inRegions {rs : List Region} {r : Region} (hr : r ∈ rs) : ∀ x, r.holds x = true → inRegions rs x :=
  fun _ hx => ⟨r, hr, hx⟩

/-- A range of offsets that a listed region contains. -/
theorem range_inRegions {rs : List Region} {r : Region} {a n : Nat} (hr : r ∈ rs) (hlo : r.base ≤ a)
    (hhi : a + n ≤ r.base + r.size) : ∀ x, a ≤ x → x < a + n → inRegions rs x := by
  intro x h1 h2
  refine ⟨r, hr, (r.holds_iff x).mpr ?_⟩
  omega

theorem frame_lmStore (s : State) (a : Nat) (bs : List Byte) (h : ∀ x, a ≤ x → x < a + bs.length → P x) :
    Frame s (s.lmStore a bs) W P :=
  frame_of_lm s _ fun x hx => lmByte_lmStore_of_not_mem s a bs x fun hr => hx (h x hr.1 hr.2)

theorem frame_clearBits (s : State) (hw : .baLen ∈ W) (hp : ∀ x, Region.bits.holds x = true → P x) :
    Frame s s.clearBits W P :=
  (frame_lmStore s _ _ fun x h1 h2 =>
    hp x ((Region.holds_iff _ x).mpr ⟨h1, by rwa [List.length_replicate] at h2⟩)).trans (frame_setBaLen _ 0 hw)

theorem frame_appendBits (s : State) (bs : List Bool) (hfit : s.baLen.toNat + bs.length ≤ 4096) (hw : .baLen ∈ W)
    (hp : ∀ x, Region.bits.holds x = true → P x) : Frame s (s.appendBits bs) W P := by
  have hl : LmKept s (s.appendBits bs) P := fun x hx => lmByte_appendBits s bs hfit x (by
    rw [← Bool.not_eq_true]
    exact fun h => hx (hp x h))
  obtain ⟨m, k, h⟩ := appendBits_only s bs
  rw [h] at hl ⊢
  exact (frame_of_lm s m hl).trans (frame_setBaLen _ k hw)

/-- A cell of the 64 by 64 grid lies in GRID (20_memory.md R81). -/
theorem grid_holds_cellOffset {x y : Nat} (hx : x < 64) (hy : y < 64) : Region.grid.holds (cellOffset x y) = true := by
  simp only [Region.holds_iff, Region.base, Region.size, cellOffset]
  omega

theorem frame_writeCells (s : State) (cs : List ((Nat × Nat) × Byte)) (hcs : ∀ c ∈ cs, c.1.1 < 64 ∧ c.1.2 < 64)
    (hp : ∀ x, Region.grid.holds x = true → P x) : Frame s (s.writeCells cs) W P := by
  have hl : LmKept s (s.writeCells cs) P := fun x hx => lmByte_writeCells_of_not_mem s cs x fun c hc he =>
    hx (hp x (he ▸ grid_holds_cellOffset (hcs c hc).1 (hcs c hc).2))
  obtain ⟨m, h⟩ := writeCells_only s cs
  rw [h] at hl ⊢
  exact frame_of_lm s m hl

end Rules
end Sys2Proof.Machine
end

section
/-! SUPPORT. The lengths of what the commands store, and the cells they write. -/

namespace Sys2Proof.Machine

/-! ## Reed–Solomon -/

theorem length_mulRoot (g : List Byte) (r : Byte) : (mulRoot g r).length = g.length + 1 := by
  simp [mulRoot, gfAddAll]

theorem length_foldl_mulRoot (f : Nat → Byte) (l : List Nat) (g : List Byte) :
    (l.foldl (fun g i => mulRoot g (f i)) g).length = g.length + l.length := by
  induction l generalizing g with
  | nil => rfl
  | cons i l ih =>
    rw [List.foldl_cons, ih, length_mulRoot, List.length_cons]
    omega

/-- The generator of degree `d` has `d + 1` coefficients (42_gf_rs.md R176). -/
@[simp] theorem length_rsGen (d : Nat) : (rsGen d).length = d + 1 := by
  simp [rsGen, length_foldl_mulRoot, Nat.add_comm]

/-- One step of the division keeps as many coefficients as the generator has below its leading one
(42_gf_rs.md R178). -/
theorem length_rsStep {g rem : List Byte} (h : g.length = rem.length + 1) (d : Byte) :
    (rsStep g rem d).length = rem.length := by
  simp only [rsStep, gfAddAll, List.length_zipWith, List.length_append, List.length_tail, List.length_map,
    List.length_singleton, h]
  omega

theorem length_foldl_rsStep {g : List Byte} (data rem : List Byte) (h : g.length = rem.length + 1) :
    (data.foldl (rsStep g) rem).length = rem.length := by
  induction data generalizing rem with
  | nil => rfl
  | cons d data ih =>
    have hs := length_rsStep h d
    rw [List.foldl_cons, ih _ (by rw [hs, h]), hs]

/-- `rsEcc(data, e)` has `e` bytes (42_gf_rs.md R178). -/
@[simp] theorem length_rsEcc (data : List Byte) (e : Nat) : (rsEcc data e).length = e := by
  simp [rsEcc, length_foldl_rsStep]

/-! ## Segments and codewords -/

theorem length_flatMap_bitsOf (bs : List Byte) : (bs.flatMap (fun b => bitsOf 8 b.toNat)).length = 8 * bs.length := by
  simp [List.length_flatMap, Nat.mul_comm]

/-- A byte segment has the bits that `totalBits` counts (44_segment.md R230, R233). -/
theorem length_segmentBits (v : Nat) (data : List Byte) :
    (segmentBits v data).length = 4 + ccBits v + 8 * data.length := by
  simp only [segmentBits, List.length_append, length_bitsOf, length_flatMap_bitsOf]

@[simp] theorem length_inBytes (s : State) : s.inBytes.length = s.inLen.toNat := length_lmBytes s _ _

/-- All that `totalBits` can answer when it answers a number. -/
theorem eq_of_totalBits_eq_some {n v t : Nat} (h : totalBits n v = some t) : t = 4 + ccBits v + 8 * n := by
  simp only [totalBits, Option.ite_none_left_eq_some, Option.some.injEq] at h
  exact h.2.symm

/-- The largest capacity is that of version 10 at level L (43_capacity.md R200). -/
theorem dataCapacityBits_le (v : Nat) (e : Ecc) : dataCapacityBits v e ≤ 2192 := by
  simp only [dataCapacityBits, dataCodewords]
  split <;> cases e <;> decide

theorem length_padBytes (n : Nat) : (padBytes n).length = n := by simp [padBytes]

/-- Bytes appended one after the other are one append of their bits. -/
theorem foldl_append_bytes (s : State) (ps : List Byte) :
    ps.foldl (fun s p => s.append p.toNat 8) s = s.appendBits (ps.flatMap (fun p => bitsOf 8 p.toNat)) := by
  induction ps generalizing s with
  | nil => rfl
  | cons p ps ih => rw [List.foldl_cons, ih, List.flatMap_cons, appendBits_append, State.append]

theorem length_splitBlocks (data : List Byte) (lens : List Nat) : (splitBlocks data lens).length = lens.length := by
  induction lens generalizing data with
  | nil => rfl
  | cons n lens ih => rw [splitBlocks, List.length_cons, ih, List.length_cons]

/-- A column takes at most one byte from each block (45_qr_codewords.md R267). -/
theorem length_columns_le (n : Nat) (blocks : List (List Byte)) : (columns n blocks).length ≤ n * blocks.length := by
  simp only [columns, List.length_flatMap]
  have h := List.sum_le_card_nsmul ((List.range n).map fun i => (blocks.filterMap fun b => b[i]?).length) blocks.length
    (by
      intro x hx
      obtain ⟨i, -, rfl⟩ := List.mem_map.mp hx
      exact List.length_filterMap_le _ _)
  simpa using h

/-- Room for one byte of every block in every column fits CW (43_capacity.md R200, R209). -/
theorem interleave_room {v : Nat} (e : Ecc) (hv : tableVersion v = true) :
    ((blockSplit v e).shortData + (if 0 < (blockSplit v e).nLong then 1 else 0)) * numBlocks v e +
      eccPerBlock v e * numBlocks v e ≤ 512 := by
  simp only [tableVersion, Bool.and_eq_true, decide_eq_true_eq] at hv
  obtain ⟨h1, h2⟩ := hv
  interval_cases v <;> cases e <;> decide

/-- The codeword stream fits CW (45_qr_codewords.md R267, R268). -/
theorem length_interleave_le {v : Nat} (e : Ecc) (data : List Byte) (hv : tableVersion v = true) :
    (interleave v e data).length ≤ 512 := by
  have hd : (dataBlocks v e data).length = numBlocks v e := by simp [dataBlocks, length_splitBlocks]
  have h1 := length_columns_le ((blockSplit v e).shortData + (if 0 < (blockSplit v e).nLong then 1 else 0))
    (dataBlocks v e data)
  have h2 := length_columns_le (eccPerBlock v e) ((dataBlocks v e data).map (fun blk => rsEcc blk (eccPerBlock v e)))
  rw [List.length_map] at h2
  rw [hd] at h1 h2
  simp only [interleave, List.length_append]
  exact (Nat.add_le_add h1 h2).trans (interleave_room e hv)

/-! ## Version selection -/

/-- All that the search for a version can find. -/
theorem selectFrom_eq_some {n v count u : Nat} {e : Ecc} (h : selectFrom n e v count = some u) :
    v ≤ u ∧ u < v + count ∧ fits n u e = true := by
  induction count generalizing v with
  | zero => simp [selectFrom] at h
  | succ count ih =>
    rw [selectFrom] at h
    split at h
    · cases h
      exact ⟨Nat.le_refl _, by omega, ‹_›⟩
    · obtain ⟨hlo, hhi, hfit⟩ := ih h
      exact ⟨by omega, by omega, hfit⟩

/-- A fitting version has room for the segment (45_qr_codewords.md R260). -/
theorem le_of_fits {n v : Nat} {e : Ecc} (h : fits n v e = true) : 4 + ccBits v + 8 * n ≤ dataCapacityBits v e := by
  simp only [fits] at h
  split at h
  · cases h
  · rename_i t ht
    rw [← eq_of_totalBits_eq_some ht]
    simpa using h

/-! ## Cells of the matrix -/

theorem length_gridBytes (g : Drawing) : g.gridBytes.length = 4096 := by simp [Drawing.gridBytes]

/-- The cells of a strip lie in the symbol (46_qr_matrix.md R310). -/
theorem lt_of_mem_stripCells {n right : Nat} {p : Nat × Nat} (hr : right < n) (h : p ∈ stripCells n right) :
    p.1 < n ∧ p.2 < n := by
  simp only [stripCells, List.mem_flatMap, List.mem_range, List.mem_cons, List.not_mem_nil, or_false] at h
  obtain ⟨vert, hv, h⟩ := h
  have hy : (if ((right + 1) &&& 2 == 0) = true then n - 1 - vert else vert) < n := by split <;> omega
  rcases h with rfl | rfl
  · exact ⟨hr, hy⟩
  · exact ⟨by omega, hy⟩

/-- Column 6 is skipped by going left, so no strip leaves the symbol (46_qr_matrix.md R310). -/
theorem lt_of_mem_stripsFrom {n right fuel : Nat} {p : Nat × Nat} (hr : right < n) (h : p ∈ stripsFrom n right fuel) :
    p.1 < n ∧ p.2 < n := by
  induction fuel generalizing right with
  | zero => simp [stripsFrom] at h
  | succ fuel ih =>
    have h5 : (if right = 6 then 5 else right) < n := by split <;> omega
    simp only [stripsFrom] at h
    split at h
    · rcases List.mem_append.mp h with h | h
      · exact lt_of_mem_stripCells h5 h
      · exact ih (Nat.lt_of_le_of_lt (Nat.sub_le _ _) h5) h
    · cases h

/-- The placement order visits cells of the symbol only (46_qr_matrix.md R310). -/
theorem lt_of_mem_cellOrder {n : Nat} {p : Nat × Nat} (h : p ∈ cellOrder n) : p.1 < n ∧ p.2 < n := by
  cases n with
  | zero => cases h
  | succ n => exact lt_of_mem_stripsFrom (by omega) h

/-- Masking keeps the cells and their order. -/
theorem map_fst_maskedCells (m : Nat) (stream : List Bool) (cells : List (Nat × Nat)) :
    (maskedCells m stream cells).map Prod.fst = cells := by
  induction cells generalizing stream with
  | nil => rfl
  | cons c cells ih => rw [maskedCells, List.map_cons, ih]

/-- The format cells lie in the 64 by 64 grid for every size up to it (46_qr_matrix.md R322, R323). -/
theorem lt_of_mem_formatCells {n : Nat} {c : (Nat × Nat) × Nat} (hn : n ≤ 64) (h : c ∈ formatCells n) :
    c.1.1 < 64 ∧ c.1.2 < 64 := by
  simp only [formatCells, List.mem_flatMap, List.mem_range, List.mem_cons, List.not_mem_nil, or_false] at h
  obtain ⟨i, hi, rfl | rfl⟩ := h
  · simp only [fmt1]
    split_ifs <;> simp only <;> omega
  · simp only [fmt2]
    split_ifs <;> simp only <;> omega

/-! ## Code128 -/

theorem length_decimalDigits (n v : Nat) : (decimalDigits n v).length = n := by
  induction n with
  | zero => rfl
  | succ n ih => rw [decimalDigits, List.length_cons, ih]

/-- Only the stop pattern can have a seventh digit (48_code128.md R372). -/
theorem length_c128Pattern_le (stopTerm : Bool) (v : Nat) :
    (c128Pattern stopTerm v).length ≤ 6 + if v == 106 then 1 else 0 := by
  simp only [c128Pattern]
  split
  · simp_all [length_decimalDigits]
  · simp [length_decimalDigits]

/-- Every second element of a pattern is a bar (48_code128.md R373). -/
theorem length_patternBars (x : Nat) (isBar : Bool) (p : List Nat) :
    (patternBars x isBar p).1.length = (p.length + isBar.toNat) / 2 := by
  induction p generalizing x isBar with
  | nil => cases isBar <;> rfl
  | cons w p ih =>
    cases isBar
    · simp [patternBars, ih]
    · simp only [patternBars, ih, Bool.not_true, if_true, List.length_cons, Bool.toNat_false, Bool.toNat_true]
      omega

/-- Three bars to a codeword, and one more to a stop pattern (48_code128.md R372, R378). -/
theorem length_sequenceBars_le (stopTerm : Bool) (x : Nat) (cws : List Nat) :
    (sequenceBars stopTerm x cws).1.length ≤ 3 * cws.length + cws.count 106 := by
  induction cws generalizing x with
  | nil => exact Nat.le_refl _
  | cons cw cws ih =>
    have hb := length_patternBars x true (c128Pattern stopTerm cw)
    have hp := length_c128Pattern_le stopTerm cw
    have hs := ih (patternBars x true (c128Pattern stopTerm cw)).2
    simp only [sequenceBars, List.length_append, List.length_cons, List.count_cons, Bool.toNat_true] at *
    split at hp <;> split <;> omega

theorem c128Map_le (u : Nat) : c128Map u ≤ 94 := by
  simp only [c128Map, c128Substituted, Bool.or_eq_true, decide_eq_true_eq]
  split <;> omega

@[simp] theorem length_c128Values (s : State) : s.c128Values.length = s.chrLen.toNat := by
  simp [State.c128Values, State.chrUnits]

@[simp] theorem length_c128Sequence (vals : List Nat) : (c128Sequence vals).length = vals.length + 3 := by
  simp [c128Sequence]

/-- The stop pattern stands at the end of the sequence only (48_code128.md R378). -/
theorem count_stop_c128Sequence (s : State) : (c128Sequence s.c128Values).count 106 = 1 := by
  have hv : s.c128Values.count 106 = 0 := by
    rw [List.count_eq_zero]
    intro h
    obtain ⟨u, -, hu⟩ := List.mem_map.mp h
    have := c128Map_le u
    omega
  have hc : c128Check s.c128Values ≠ 106 := by
    have : c128Check s.c128Values < 103 := Nat.mod_lt _ (by decide)
    omega
  simp [c128Sequence, hv, hc]

/-- The bars of the units in CHR, at most 250 of them (10_state.md R44, 48_code128.md R378). -/
theorem length_bars_le (s : State) (stopTerm : Bool) (h : s.chrLen.toNat ≤ 80) :
    (sequenceBars stopTerm 0 (c128Sequence s.c128Values)).1.length ≤ 250 := by
  have hl := length_sequenceBars_le stopTerm 0 (c128Sequence s.c128Values)
  rw [count_stop_c128Sequence, length_c128Sequence, length_c128Values] at hl
  omega

theorem length_flatMap_barEntry (bars : List (Nat × Nat)) : (bars.flatMap barEntry).length = 4 * bars.length := by
  simp [List.length_flatMap, barEntry, Nat.mul_comm]

end Sys2Proof.Machine
end

section
/-! SUPPORT. What each shared operation and each command writes (10_state.md R56). -/

namespace Sys2Proof.Machine

/-! ## The operations that commands share -/

section Operations

variable {s : State} {W : List Reg} {P : Nat → Prop}

theorem frame_append (s : State) (v n : Nat) (hfit : s.baLen.toNat + n ≤ 4096) (hw : .baLen ∈ W)
    (hp : ∀ x, Region.bits.holds x = true → P x) : Frame s (s.append v n) W P :=
  frame_appendBits s _ (by rwa [length_bitsOf]) hw hp

theorem baLen_append (s : State) (v n : Nat) (hfit : s.baLen.toNat + n ≤ 4096) :
    (s.append v n).baLen.toNat = s.baLen.toNat + n := by
  rw [State.append, baLen_appendBits _ _ (by rwa [length_bitsOf]), length_bitsOf]

/-- A payload that fits its version is assembled inside BITS: the segment stays below the capacity, the terminator and the
bits to the byte boundary add at most 11, the pad bytes end less than a byte past the capacity or add nothing
(45_qr_codewords.md R263). -/
theorem frame_assemble (s : State) (v : Nat) (e : Ecc) (hfit : 4 + ccBits v + 8 * s.inLen.toNat ≤ dataCapacityBits v e)
    (hw : .baLen ∈ W) (hp : ∀ x, Region.bits.holds x = true → P x) : Frame s (s.assemble v e).1 W P := by
  have hcap := dataCapacityBits_le v e
  have h0 : s.clearBits.baLen.toNat = 0 := rfl
  have hseg : s.clearBits.baLen.toNat + (segmentBits v s.inBytes).length ≤ dataCapacityBits v e := by
    rwa [h0, Nat.zero_add, length_segmentBits, length_inBytes]
  have h1 := hseg.trans (hcap.trans (by decide : 2192 ≤ 4096))
  have k1 := baLen_appendBits _ _ h1
  have f1 := Frame.trans (frame_clearBits s hw hp) (frame_appendBits _ _ h1 hw hp)
  rw [← k1] at hseg
  simp only [State.assemble, foldl_append_bytes]
  generalize s.clearBits.appendBits (segmentBits v s.inBytes) = s1 at *
  have h2 : s1.baLen.toNat + min 4 (dataCapacityBits v e - s1.baLen.toNat) ≤ 4096 := by omega
  have k2 := baLen_append s1 0 _ h2
  have f2 := f1.trans (frame_append s1 0 _ h2 hw hp)
  generalize s1.append 0 _ = s2 at *
  have hpad : padLength s2.baLen.toNat ≤ 7 := by
    simp only [padLength]
    omega
  have h3 : s2.baLen.toNat + padLength s2.baLen.toNat ≤ 4096 := by omega
  have k3 := baLen_append s2 0 _ h3
  have f3 := f2.trans (frame_append s2 0 _ h3 hw hp)
  generalize s2.append 0 _ = s3 at *
  refine f3.trans (frame_appendBits s3 _ ?_ hw hp)
  rw [length_flatMap_bitsOf, length_padBytes, padCount]
  omega

theorem frame_interleaveToCw (s : State) {v : Nat} (e : Ecc) (hv : tableVersion v = true) (hw : .cwLen ∈ W)
    (hp : ∀ x, Region.cw.holds x = true → P x) : Frame s (s.interleaveToCw v e).1 W P :=
  (frame_lmStore s _ _ fun x h1 h2 => hp x ((Region.holds_iff _ x).mpr
    ⟨h1, Nat.lt_of_lt_of_le h2 (Nat.add_le_add_left (length_interleave_le e _ hv) _)⟩)).trans (frame_setCwLen _ _ hw)

theorem frame_drawFunctions (s : State) (v : Nat) (e : Ecc) (hw : .qrInfo ∈ W)
    (hp : ∀ x, Region.grid.holds x = true → P x) : Frame s (s.drawFunctions v e) W P :=
  (frame_lmStore s _ _ fun x h1 h2 => hp x ((Region.holds_iff _ x).mpr
    ⟨h1, by rwa [length_gridBytes] at h2⟩)).trans (frame_setQrInfo _ _ hw)

theorem frame_place (s : State) (m : Nat) {n : Nat} (hn : n ≤ 64) (hp : ∀ x, Region.grid.holds x = true → P x) :
    Frame s (s.place m n) W P := by
  rw [place_eq_writeCells]
  refine frame_writeCells s _ (fun c hc => ?_) hp
  obtain ⟨d, hd, rfl⟩ := List.mem_map.mp hc
  have hm : d.1 ∈ s.dataCells n := map_fst_maskedCells m s.streamBits (s.dataCells n) ▸ List.mem_map_of_mem hd
  obtain ⟨hx, hy⟩ := lt_of_mem_cellOrder (List.mem_filter.mp hm).1
  exact ⟨hx.trans_le hn, hy.trans_le hn⟩

theorem frame_writeFormat (s : State) {n : Nat} (w : Nat) (hn : n ≤ 64) (hp : ∀ x, Region.grid.holds x = true → P x) :
    Frame s (s.writeFormat n w) W P := by
  rw [writeFormat_eq_writeCells]
  refine frame_writeCells s _ (fun c hc => ?_) hp
  obtain ⟨d, hd, rfl⟩ := List.mem_map.mp hc
  exact lt_of_mem_formatCells hn hd

theorem frame_candidate (s : State) (e : Ecc) {n : Nat} (m : Nat) (hn : n ≤ 64)
    (hp : ∀ x, Region.grid.holds x = true → P x) : Frame s (s.candidate e n m) W P :=
  (frame_place s m hn hp).trans (frame_writeFormat _ _ hn hp)

theorem frame_tryMasks (s : State) (e : Ecc) {n : Nat} (masks : List Nat) (hn : n ≤ 64)
    (hp : ∀ x, Region.grid.holds x = true → P x) : Frame s (s.tryMasks e n masks).1 W P := by
  induction masks generalizing s with
  | nil => exact frame_refl s
  | cons m masks ih => exact (frame_candidate s e m hn hp).trans (ih _)

end Operations

section Commands

variable (s : State) {P : Nat → Prop}

/-! ## Commands that write RES registers alone -/

theorem execGfMul_writesOnly (x y : Byte) : WritesOnly s [.res0] P (execGfMul x y s) :=
  .succeed ((frame_refl s).setRes _)

theorem execGfExp_writesOnly (n : Nat) : WritesOnly s [.res0] P (execGfExp n s) :=
  .succeed ((frame_refl s).setRes _)

theorem execGfLog_writesOnly (x : Byte) : WritesOnly s [.res0] P (execGfLog x s) :=
  .ite (fun _ => .raise _) fun _ => .succeed ((frame_refl s).setRes _)

theorem execCapLookup_writesOnly (v : Nat) (e : Ecc) :
    WritesOnly s [.res0, .res1, .res2, .res3, .res4] P (execCapLookup v e s) :=
  .ite (fun _ => .raise _) fun _ => .succeed ((frame_refl s).setRes _)

theorem execAlignPos_writesOnly (v : Nat) : WritesOnly s [.res0, .res1] P (execAlignPos v s) :=
  .ite (fun _ => .raise _) fun _ => .succeed ((frame_refl s).setRes _)

theorem execBlockInfo_writesOnly (v : Nat) (e : Ecc) :
    WritesOnly s [.res0, .res1, .res2, .res3, .res4] P (execBlockInfo v e s) :=
  .ite (fun _ => .raise _) fun _ => .succeed ((frame_refl s).setRes _)

theorem execCcBits_writesOnly (v : Nat) : WritesOnly s [.res0] P (execCcBits v s) :=
  .ite (fun _ => .raise _) fun _ => .succeed ((frame_refl s).setRes _)

theorem execQrPenalty_writesOnly : WritesOnly s [.res0, .res1, .res2, .res3, .res4] P (execQrPenalty s) :=
  .ite (fun _ => .raise _) fun _ => .succeed ((frame_refl s).setRes _)

theorem execMaskEval_writesOnly (m x y : Nat) : WritesOnly s [.res0] P (execMaskEval m x y s) :=
  .ite (fun _ => .raise _) fun _ => .succeed ((frame_refl s).setRes _)

theorem execFmtBch_writesOnly (e : Ecc) (m : Nat) : WritesOnly s [.res0, .res1, .res2] P (execFmtBch e m s) :=
  .succeed ((frame_refl s).setRes _)

theorem execVerBch_writesOnly (v : Nat) : WritesOnly s [.res0, .res1] P (execVerBch v s) :=
  .succeed ((frame_refl s).setRes _)

theorem execC128Map_writesOnly (u : Half) : WritesOnly s [.res0, .res1] P (execC128Map u s) :=
  .succeed ((frame_refl s).setRes _)

theorem execC128Pattern_writesOnly (v : Nat) : WritesOnly s [.res0, .res1, .res2] P (execC128Pattern v s) :=
  .ite (fun _ => .raise _) fun _ => .succeed ((frame_refl s).setRes _)

theorem execC128Checksum_writesOnly : WritesOnly s [.res0, .res1] P (execC128Checksum s) :=
  .ite (fun _ => .raise _) fun _ => .succeed ((frame_refl s).setRes _)

theorem execTotalBits_writesOnly (v : Nat) : WritesOnly s [.res0, .res1] P (execTotalBits v s) :=
  .ite (fun _ => .raise _) fun _ => .ite (fun _ => .raise _) fun _ => by
    split
    · exact .succeed ((frame_refl s).setRes _)
    · exact .succeed ((frame_refl s).setRes _)

theorem execQrSelect_writesOnly (e : Ecc) :
    WritesOnly s [.res0, .res1, .res2] P (execQrSelect e s) :=
  .ite (fun _ => .raise _) fun _ => by
    split
    · exact .raise _
    · exact .succeed ((frame_refl s).setRes _)

/-! ## Commands that write local memory -/

theorem execBaClear_writesOnly : WritesOnly s [.baLen] (inRegions [.bits]) (execBaClear s) :=
  .succeed (frame_clearBits s (by simp) (holds_inRegions (by simp)))

theorem execBaAppend_writesOnly (len : Nat) (val : Half) :
    WritesOnly s [.baLen] (inRegions [.bits]) (execBaAppend len val s) :=
  .ite (fun _ => .raise _) fun _ => .ite (fun _ => .raise _) fun h =>
    .succeed (frame_append s _ _ (Nat.le_of_not_lt h) (by simp) (holds_inRegions (by simp)))

/-- The accumulator's capacity is a multiple of 8, so the padding fits where BA_LEN does. -/
theorem execBaPad_writesOnly (h : s.baLen.toNat ≤ 4096) :
    WritesOnly s [.baLen] (inRegions [.bits]) (execBaPad s) :=
  .succeed (frame_append s _ _ (by simp only [padLength]; omega) (by simp) (holds_inRegions (by simp)))

theorem execRsGen_writesOnly (d : Nat) : WritesOnly s [.res0] (inRegions [.work]) (execRsGen d s) :=
  .ite (fun _ => .raise _) fun h => .succeed (Frame.setRes (frame_lmStore s _ _ (range_inRegions (r := .work) (by simp)
    (Nat.le_add_right _ _) (by simp only [length_rsGen, Region.base, Region.size, workSize] at h ⊢; omega))) _)

theorem execRsEcc_writesOnly (e : Nat) : WritesOnly s [.res0] (inRegions [.work]) (execRsEcc e s) :=
  .ite (fun _ => .raise _) fun _ => .ite (fun _ => .raise _) fun h =>
    .succeed (Frame.setRes (frame_lmStore s _ _ (range_inRegions (r := .work) (by simp)
      (Nat.le_add_right _ _) (by simp only [length_rsEcc, Region.base, Region.size, workSize] at h ⊢; omega))) _)

theorem execUtf8Put_writesOnly (u : Half) : WritesOnly s [.res0, .inLen] (inRegions [.inp]) (execUtf8Put u s) :=
  .ite (fun _ => .raise _) fun _ => .ite (fun _ => .raise _) fun h =>
    .succeed (Frame.setRes (Frame.trans (frame_lmStore s _ _ (range_inRegions (r := .inp) (by simp)
      (Nat.le_add_right _ _) (by simp only [Region.base, Region.size, inCapacity] at h ⊢; omega)))
      (frame_setInLen _ (BitVec.ofNat 10 (s.inLen.toNat + (utf8 u.toNat).length)) (by simp))) _)

theorem execSegWrite_writesOnly (v : Nat) : WritesOnly s [.res0, .baLen] (inRegions [.bits]) (execSegWrite v s) :=
  .ite (fun _ => .raise _) fun _ => .ite (fun _ => .raise _) fun _ => .ite (fun _ => .raise _) fun _ =>
    .ite (fun _ => .raise _) fun h =>
      .succeed (Frame.setRes (frame_appendBits s _
        (by simp only [length_segmentBits, length_inBytes, baCapacity] at h ⊢; omega)
        (by simp) (holds_inRegions (by simp))) _)

theorem execQrAssemble_writesOnly (v : Nat) (e : Ecc) :
    WritesOnly s [.res0, .res1, .baLen] (inRegions [.bits]) (execQrAssemble v e s) :=
  .ite (fun _ => .raise _) fun _ => by
    split
    · exact .raise _
    · rename_i t ht
      exact .ite (fun _ => .raise _) fun h => .succeed (Frame.setRes (frame_assemble s v e
        (eq_of_totalBits_eq_some ht ▸ Nat.le_of_not_lt h) (by simp) (holds_inRegions (by simp))) _)

theorem execQrInterleave_writesOnly (v : Nat) (e : Ecc) :
    WritesOnly s [.res0, .cwLen] (inRegions [.cw]) (execQrInterleave v e s) :=
  .ite (fun _ => .raise _) fun hv => .succeed (Frame.setRes
    (frame_interleaveToCw s e (eq_true_of_ne_false hv) (by simp) (holds_inRegions (by simp))) _)

theorem execQrFunc_writesOnly (v : Nat) (e : Ecc) :
    WritesOnly s [.res0, .qrInfo] (inRegions [.grid]) (execQrFunc v e s) :=
  .ite (fun _ => .raise _) fun _ => .succeed (Frame.setRes
    (frame_drawFunctions s v e (by simp) (holds_inRegions (by simp))) _)

theorem execQrPlace_writesOnly (m : Nat) :
    WritesOnly s [.res0, .res1, .qrInfo] (inRegions [.grid]) (execQrPlace m s) :=
  .ite (fun _ => .raise _) fun _ => .succeed (Frame.setRes (Frame.trans
    (frame_place s m (Nat.le_of_lt s.qrInfo.size.isLt) (holds_inRegions (by simp)))
    (frame_setQrInfo _ ((s.place m s.qrInfo.size.toNat).qrInfo.placed m) (by simp))) _)

theorem execQrFormat_writesOnly (m : Nat) : WritesOnly s [.res0] (inRegions [.grid]) (execQrFormat m s) :=
  .ite (fun _ => .raise _) fun _ => .succeed (Frame.setRes (frame_writeFormat s _ (Nat.le_of_lt s.qrInfo.size.isLt)
    (holds_inRegions (by simp))) _)

/-- The steps of QR_ENCODE for a version that fits, one after the other (47_qr_penalty.md R358). -/
theorem frame_encodeVersion {v : Nat} (e : Ecc) (hv : tableVersion v = true) (hfit : fits s.inLen.toNat v e = true) :
    Frame s (s.encodeVersion v e)
      [.res0, .res1, .res2, .res3, .baLen, .cwLen, .qrInfo, .pen0, .pen1, .pen2, .pen3, .pen4, .pen5, .pen6, .pen7]
      (inRegions [.bits, .cw, .grid]) := by
  have hn : gridSize v ≤ 64 := by
    simp only [tableVersion, Bool.and_eq_true, decide_eq_true_eq] at hv
    simp only [gridSize]
    omega
  have hgrid := holds_inRegions (rs := [.bits, .cw, .grid]) (r := .grid) (by simp)
  exact Frame.setSymbol
    (.trans (frame_assemble s v e (le_of_fits hfit) (by simp) (holds_inRegions (by simp)))
    (.trans (frame_interleaveToCw _ e hv (by simp) (holds_inRegions (by simp)))
    (.trans (frame_drawFunctions _ v e (by simp) hgrid)
    (.trans (frame_tryMasks _ e (List.range 8) hn hgrid)
    (frame_candidate _ e _ hn hgrid))))) _ _ _ (by simp)

theorem execQrEncode_writesOnly (e : Ecc) (h : s.params.legal = true) :
    WritesOnly s
      [.res0, .res1, .res2, .res3, .baLen, .cwLen, .qrInfo, .pen0, .pen1, .pen2, .pen3, .pen4, .pen5, .pen6, .pen7]
      (inRegions [.bits, .cw, .grid]) (execQrEncode e s) :=
  .ite (fun _ => .raise _) fun _ => by
    split
    · exact .raise _
    · rename_i v hsel
      obtain ⟨hlo, hhi, hfit⟩ := selectFrom_eq_some hsel
      simp only [Params.legal, Bool.and_eq_true, decide_eq_true_eq] at h
      have hv : tableVersion v = true := by
        simp only [tableVersion, Bool.and_eq_true, decide_eq_true_eq]
        omega
      exact .succeed (frame_encodeVersion s e hv hfit)

/-- The sequence fits C128CW and the bars fit BARS (20_memory.md R74, R82). -/
theorem execC128Encode_writesOnly :
    WritesOnly s [.res0, .res1, .res2, .barCount, .barWidth, .c128CwLen] (inRegions [.bars, .c128Cw])
      (execC128Encode s) :=
  .ite (fun _ => .raise _) fun h => by
    have hlen : s.chrLen.toNat ≤ 80 := Nat.le_of_not_lt h
    have hbars := length_bars_le s s.params.stopTerm hlen
    refine .succeed (Frame.setBars (.trans
      (frame_lmStore s _ _ (range_inRegions (r := .c128Cw) (by simp) (Nat.le_refl _) ?_))
      (frame_lmStore _ _ _ (range_inRegions (r := .bars) (by simp) (Nat.le_refl _) ?_))) _ _ _ _ (by simp))
    · simp only [List.length_map, length_c128Sequence, length_c128Values, Region.base, Region.size]
      omega
    · simp only [length_flatMap_barEntry, Region.base, Region.size]
      omega

/-- 10_state.md R56, row by row: each command raises an error, or completes writing what its row lists. -/
theorem exec_writesOnly (i : Instr) (h : Inv s) :
    WritesOnly s (Instr.regsWritten i) (inRegions (Instr.lmRegions i)) (exec i s) := by
  obtain ⟨hparams, -, -, -, hba, -⟩ := h
  cases i with
  | nop => exact .succeed (frame_refl s)
  | baClear => exact execBaClear_writesOnly s
  | baAppend len val => exact execBaAppend_writesOnly s len val
  | baPad => exact execBaPad_writesOnly s hba
  | gfMul x y => exact execGfMul_writesOnly s x y
  | gfExp n => exact execGfExp_writesOnly s n
  | gfLog x => exact execGfLog_writesOnly s x
  | rsGen d => exact execRsGen_writesOnly s d
  | rsEcc e => exact execRsEcc_writesOnly s e
  | capLookup v e => exact execCapLookup_writesOnly s v e
  | alignPos v => exact execAlignPos_writesOnly s v
  | blockInfo v e => exact execBlockInfo_writesOnly s v e
  | ccBits v => exact execCcBits_writesOnly s v
  | totalBits v => exact execTotalBits_writesOnly s v
  | utf8Put u => exact execUtf8Put_writesOnly s u
  | segWrite v => exact execSegWrite_writesOnly s v
  | qrSelect e => exact execQrSelect_writesOnly s e
  | qrAssemble v e => exact execQrAssemble_writesOnly s v e
  | qrInterleave v e => exact execQrInterleave_writesOnly s v e
  | qrFunc v e => exact execQrFunc_writesOnly s v e
  | qrPlace m => exact execQrPlace_writesOnly s m
  | qrFormat m => exact execQrFormat_writesOnly s m
  | qrPenalty => exact execQrPenalty_writesOnly s
  | maskEval m x y => exact execMaskEval_writesOnly s m x y
  | fmtBch e m => exact execFmtBch_writesOnly s e m
  | verBch v => exact execVerBch_writesOnly s v
  | qrEncode e => exact execQrEncode_writesOnly s e hparams
  | c128Map u => exact execC128Map_writesOnly s u
  | c128Pattern n => exact execC128Pattern_writesOnly s n
  | c128Checksum => exact execC128Checksum_writesOnly s
  | c128Encode => exact execC128Encode_writesOnly s

end Commands

/-- Settles O10: every command writes what its row of the table lists, and on error STATUS alone. -/
theorem commandsWriteOnlyWhatTheTableLists : Obligations.CommandsWriteOnlyWhatTheTableLists := by
  intro i s t hinv hx
  obtain ⟨c, hc⟩ | ⟨u, hu, hc⟩ := exec_writesOnly s i hinv
  · obtain rfl := raise_eq_next.mp (hc ▸ hx)
    have hr (W : List Reg) : RegsKept s { s with status := s.status.failed c } W :=
      fun _ hs _ => readReg_setStatus s _ hs
    exact ⟨hr _, fun _ _ => rfl, ownKept_refl s, fun _ => ⟨hr _, fun _ _ => rfl⟩⟩
  · obtain rfl := succeed_eq_next.mp (hc ▸ hx)
    have hC := hu.completes hc
    exact ⟨hC.regs, hC.lm, hC.own, fun herr => by cases herr⟩

end Sys2Proof.Machine
end

section
/-! SUPPORT. The register window: reserved offsets and bits, the acceptance of a CMD write. -/

namespace Sys2Proof.Machine

/-! ## Reserved offsets -/

/-- No register is found at a reserved offset (10_state.md R48). -/
theorem Reg.at?_eq_none {off : Nat} (h : ∀ r : Reg, r.offset ≠ off) : Reg.at? off = none := by
  simp [Reg.at?, List.find?_eq_none, h]

theorem regRead_reserved (s : State) {off : Nat} (h : ∀ r : Reg, r.offset ≠ off) : s.regRead off = 0 := by
  simp [State.regRead, Reg.at?_eq_none h]

theorem regWrite_reserved (s : State) {off : Nat} (v : Word) (h : ∀ r : Reg, r.offset ≠ off) :
    s.regWrite off v = s := by
  simp [State.regWrite, Reg.at?_eq_none h]

/-! ## Reserved bits -/

/-- The mask of the `n` low bits of a register. -/
def lowMask (n : Nat) : Word := (BitVec.allOnes n).setWidth 32

theorem getLsbD_lowMask (n i : Nat) : (lowMask n).getLsbD i = (decide (i < 32) && decide (i < n)) := by
  simp [lowMask]

theorem setWidth_and_not_lowMask {n : Nat} (x : BitVec n) : x.setWidth 32 &&& ~~~lowMask n = 0 := by
  refine BitVec.eq_of_getLsbD_eq fun i hi => ?_
  by_cases h : i < n
  · simp [getLsbD_lowMask, h, hi]
  · simp [BitVec.getLsbD_of_ge x i (Nat.le_of_not_lt h)]

/-- Words that agree under a mask agree at each of its bits. -/
theorem getLsbD_eq_of_and_eq {v v' m : Word} {i : Nat} (h : v &&& m = v' &&& m) (hm : m.getLsbD i = true) :
    v.getLsbD i = v'.getLsbD i := by
  simpa [hm] using congrArg (·.getLsbD i) h

theorem setWidth_eq_of_and_lowMask_eq {n : Nat} {v v' : Word} (hn : n ≤ 32) (h : v &&& lowMask n = v' &&& lowMask n) :
    v.setWidth n = v'.setWidth n := by
  refine BitVec.eq_of_getLsbD_eq fun i hi => ?_
  have hm : (lowMask n).getLsbD i = true := by
    simp only [getLsbD_lowMask, Bool.and_eq_true, decide_eq_true_eq]
    omega
  simp [getLsbD_eq_of_and_eq h hm]

/-- A word keeps to a mask when its number has 0 at every bit outside the mask. -/
theorem word_and_not_eq_zero {n : Nat} {m : Word} (h : ∀ i < 32, m.getLsbD i = false → n / 2 ^ i % 2 = 0) :
    word n &&& ~~~m = 0 := by
  refine BitVec.eq_of_getLsbD_eq fun i hi => ?_
  cases hm : m.getLsbD i
  · have hn : (word n).getLsbD i = false := by
      rw [BitVec.getLsbD_ofNat, Nat.testBit_eq_decide_div_mod_eq, h i hi hm]
      simp
    simp [hn]
  · simp [hm]

theorem ErrCode.code_le (c : ErrCode) : c.code ≤ 9 := by cases c <;> decide

theorem eccCode_le (e : Ecc) : e.code ≤ 3 := by cases e <;> decide

theorem cfgWord_reserved (p : Params) : cfgWord p &&& ~~~Reg.implemented .cfg = 0 := by
  refine word_and_not_eq_zero fun i hi hm => ?_
  have h1 := p.stopTerm.toNat_le
  interval_cases i <;> simp [Reg.implemented] at hm <;> omega

theorem ctrlWord_reserved (irqEn : Bool) : word irqEn.toNat &&& ~~~Reg.implemented .ctrl = 0 := by
  cases irqEn <;> decide

theorem Status.word_reserved (s : Status) : s.word &&& ~~~Reg.implemented .status = 0 := by
  refine word_and_not_eq_zero fun i hi hm => ?_
  have h0 := s.busy.toNat_le
  have h1 := s.done.toNat_le
  have h2 := s.err.toNat_le
  have h3 := s.drop.toNat_le
  have h4 := s.errCode.code_le
  interval_cases i <;> simp [Reg.implemented] at hm <;> omega

theorem QrInfo.word_reserved (q : QrInfo) : q.word &&& ~~~Reg.implemented .qrInfo = 0 := by
  refine word_and_not_eq_zero fun i hi hm => ?_
  have h0 := q.version.isLt
  have h1 := q.size.isLt
  have h2 := eccCode_le q.ecc
  have h3 := q.mask.isLt
  have h4 := q.funcValid.toNat_le
  have h5 := q.maskValid.toNat_le
  interval_cases i <;> simp [Reg.implemented] at hm <;> omega

/-- Reserved bits read 0: a register is a field of its width, or a word whose fields leave gaps (10_state.md R48). -/
theorem readReg_reserved (s : State) (r : Reg) : s.readReg r &&& ~~~Reg.implemented r = 0 := by
  cases r with
  | cfg => exact cfgWord_reserved s.params
  | ctrl => exact ctrlWord_reserved s.irqEn
  | status => exact s.status.word_reserved
  | qrInfo => exact s.qrInfo.word_reserved
  | inLen => exact setWidth_and_not_lowMask s.inLen
  | chrLen => exact setWidth_and_not_lowMask s.chrLen
  | baLen => exact setWidth_and_not_lowMask s.baLen
  | cwLen => exact setWidth_and_not_lowMask s.cwLen
  | barCount => exact setWidth_and_not_lowMask s.barCount
  | barWidth => exact setWidth_and_not_lowMask s.barWidth
  | c128CwLen => exact setWidth_and_not_lowMask s.c128CwLen
  | _ => exact BitVec.and_zero

/-- A write of STATUS depends on the bits of DONE, ERR and DROP (10_state.md R34). -/
theorem writeOneToClear_congr (s : Status) {v v' : Word} (h1 : v.getLsbD 1 = v'.getLsbD 1)
    (h2 : v.getLsbD 2 = v'.getLsbD 2) (h3 : v.getLsbD 3 = v'.getLsbD 3) :
    s.writeOneToClear v = s.writeOneToClear v' := by
  simp only [Status.writeOneToClear, h1, h2, h3]

/-- Reserved bits ignore writes: a write of a register depends on its implemented bits alone (10_state.md R48). -/
theorem writeReg_congr (s : State) (r : Reg) {v v' : Word} (h : v &&& Reg.implemented r = v' &&& Reg.implemented r) :
    s.writeReg r v = s.writeReg r v' := by
  have bit (i : Nat) (hi : (Reg.implemented r).getLsbD i = true) : v.getLsbD i = v'.getLsbD i :=
    getLsbD_eq_of_and_eq h hi
  have full (hr : Reg.implemented r = BitVec.allOnes 32) : v = v' := by
    simpa only [hr, BitVec.and_allOnes] using h
  cases r with
  | ctrl => simp only [State.writeReg, State.writeCtrl, bit 0 rfl, bit 1 rfl]
  | status => simp only [State.writeReg, writeOneToClear_congr s.status (bit 1 rfl) (bit 2 rfl) (bit 3 rfl)]
  | inLen => simp only [State.writeReg, setWidth_eq_of_and_lowMask_eq (n := 10) (by decide) h]
  | chrLen => simp only [State.writeReg, setWidth_eq_of_and_lowMask_eq (n := 9) (by decide) h]
  | cmd | arg0 | arg1 | arg2 => rw [full rfl]
  | _ => rfl

/-- Settles O50: reserved offsets and reserved bits of the register window read 0 and ignore writes. -/
theorem reservedOffsetsAndBitsReadZero : Obligations.ReservedOffsetsAndBitsReadZero := by
  refine ⟨fun s off v hlt hal hoff => ⟨?_, ?_⟩, readReg_reserved, fun s r _ _ h => writeReg_congr s r h⟩
  · rw [hostStep_rd s hlt hal, regRead_reserved s hoff]
    rfl
  · rw [hostStep_wr s v hlt hal, regWrite_reserved s v hoff]

/-! ## CMD writes -/

/-- A CMD write is accepted while idle and dropped while busy (10_state.md R35). -/
theorem hostStep_cmd (s : State) (w : Word) :
    s.hostStep (wr s.params 0x010 w) = .next (if s.status.busy then s.dropWrite else s.accept w) := by
  rw [hostStep_wr s w (by decide) (by decide)]
  exact congrArg _ (regWrite_offset s .cmd w)

theorem regsKept_accept (s : State) (w : Word) : RegsKept s (s.accept w) [.lastCmd] := fun r hs hw => by
  cases r with
  | status => exact absurd rfl hs
  | lastCmd => exact absurd List.mem_cons_self hw
  | _ => rfl

theorem completeCommand_of_decode {s : State} {i : Instr} (h : decode s.lastCmd = .ok i) :
    s.completeCommand = exec i s := by
  simp only [State.completeCommand, h]

/-- Settles O46: while idle a CMD write is an acceptance, while busy a dropped write. -/
theorem cmdWriteIsAcceptedOrDropped : Obligations.CmdWriteIsAcceptedOrDropped := by
  refine fun s w => ⟨fun hidle => ⟨s.accept w, ?_, rfl, rfl, regsKept_accept s w, fun _ _ => rfl,
    fun _ hd => completeCommand_of_decode hd⟩, fun hbusy => ?_, regRead_offset s .cmd⟩
  · simp [hostStep_cmd, hidle]
  · rw [hostStep_cmd, if_pos hbusy]
    rfl

end Sys2Proof.Machine
end

section
/-! SUPPORT. The host's accesses to the two windows: the bus errors, and the bytes of an LM access. -/

namespace Sys2Proof.Machine

/-! ## Bus errors -/

theorem accessOk_registers (off : Nat) (w : Width) :
    accessOk .registers off w = true ↔ w = .w32 ∧ off % 4 = 0 := by
  simp [accessOk]

theorem accessOk_localMemory (off : Nat) (w : Width) : accessOk .localMemory off w = true ↔ off % w.bytes = 0 := by
  simp [accessOk]

section Accesses

variable {s : State} {addr off : Nat} {win : Window} {w : Width} (hd : busDecode s.params addr = some (win, off))

include hd

/-- An access of a window gives a next state where it is allowed there (20_memory.md R87, R88). -/
theorem hostStep_of_accessOk (h : accessOk win off w = true) (v : Word) :
    (∃ t, s.hostStep (.write addr w v) = .next t) ∧ ∃ t, s.hostStep (.read addr w) = .next t := by
  simp only [State.hostStep, hd, h, if_true]
  exact ⟨⟨_, rfl⟩, ⟨_, rfl⟩⟩

/-- Any other access of a window is a bus error (20_memory.md R87, R88). -/
theorem hostStep_of_not_accessOk (h : ¬ accessOk win off w = true) (v : Word) :
    s.hostStep (.write addr w v) = .fault (.busError (.write addr w v)) ∧
      s.hostStep (.read addr w) = .fault (.busError (.read addr w)) := by
  simp only [State.hostStep, hd, if_neg h, and_self]

end Accesses

/-- Settles O52: an access of a window is a bus error exactly where the window does not allow it. -/
theorem busErrorsAreExactlyTheBadAccesses : Obligations.BusErrorsAreExactlyTheBadAccesses := by
  intro s off w v hp
  refine ⟨fun hlt hbad => ?_, fun hlt hw hal => ?_, fun hlt hbad => ?_, fun hlt hal => ?_⟩
  · exact hostStep_of_not_accessOk (busDecode_register _ hlt) (mt (accessOk_registers off w).mp hbad) v
  · exact hostStep_of_accessOk (busDecode_register _ hlt) ((accessOk_registers off w).mpr ⟨hw, hal⟩) v
  · exact hostStep_of_not_accessOk (busDecode_lm hp hlt) (mt (accessOk_localMemory off w).mp hbad) v
  · exact hostStep_of_accessOk (busDecode_lm hp hlt) ((accessOk_localMemory off w).mpr hal) v

/-! ## The bytes of a little-endian number -/

/-- Byte `k` of a word, least significant first (20_memory.md R85). -/
theorem extractLsb'_eq_byte (v : Word) (k : Nat) : v.extractLsb' (8 * k) 8 = byte (v.toNat / 256 ^ k) := by
  rw [BitVec.extractLsb', Nat.shiftRight_eq_div_pow, Nat.pow_mul]

theorem getD_leBytes {n k : Nat} (v : Nat) (h : k < n) : (leBytes n v).getD k 0 = byte (v / 256 ^ k) := by
  simp [leBytes, h]

theorem getD_lmBytes (s : State) (a : Nat) {n k : Nat} (h : k < n) : (s.lmBytes a n).getD k 0 = s.lmByte (a + k) := by
  simp [State.lmBytes, h]

theorem leNat_lt (bs : List Byte) : leNat bs < 256 ^ bs.length := by
  induction bs with
  | nil => simp [leNat]
  | cons b bs ih =>
    have hb : b.toNat < 256 := b.isLt
    rw [leNat, List.length_cons, Nat.pow_succ]
    omega

/-- Dividing by 256 drops the lowest byte. -/
theorem byte_leNat_div (bs : List Byte) (k : Nat) : byte (leNat bs / 256 ^ k) = bs.getD k 0 := by
  induction bs generalizing k with
  | nil => simp [leNat]
  | cons b bs ih =>
    have hb : b.toNat < 256 := b.isLt
    cases k with
    | zero =>
      refine BitVec.eq_of_toNat_eq ?_
      simp only [leNat, BitVec.toNat_ofNat, Nat.pow_zero, Nat.div_one, List.getD_cons_zero]
      omega
    | succ k =>
      have hdrop : leNat (b :: bs) / 256 = leNat bs := by
        rw [leNat]
        omega
      rw [Nat.pow_succ', ← Nat.div_div_eq_div_mul, hdrop, ih, List.getD_cons_succ]

/-! ## LM accesses -/

theorem Width.bytes_le (w : Width) : w.bytes ≤ 4 := by cases w <;> decide

/-- No aligned access crosses from the storage into the reserved range (20_memory.md R75). -/
theorem Width.aligned_fits {a : Nat} (w : Width) (hal : a % w.bytes = 0) (h : a < lmEnd) : a + w.bytes ≤ lmEnd := by
  simp only [lmEnd] at h ⊢
  cases w <;> simp only [Width.bytes] at hal ⊢ <;> omega

/-- A write to the storage while idle stores the bytes of the value (20_memory.md R86). -/
theorem lmHostWrite_storage {s : State} {a : Nat} (hidle : s.status.busy = false) (h : a < lmEnd) (w : Width)
    (v : Word) : s.lmHostWrite a w v = s.lmStore a (leBytes w.bytes v.toNat) := by
  simp [State.lmHostWrite, hidle, Nat.not_le.mpr h, State.memWrite]

/-- The reserved range ignores a write while idle (20_memory.md R75). -/
theorem lmHostWrite_reserved {s : State} {a : Nat} (hidle : s.status.busy = false) (h : lmEnd ≤ a) (w : Width)
    (v : Word) : s.lmHostWrite a w v = s := by
  simp [State.lmHostWrite, hidle, h]

/-- What `memWrite` stores reads back byte by byte. -/
theorem lmByte_lmStore_leBytes (s : State) {a n k : Nat} (v : Word) (hfit : a + n ≤ lmEnd) (hk : k < n) :
    (s.lmStore a (leBytes n v.toNat)).lmByte (a + k) = v.extractLsb' (8 * k) 8 := by
  rw [lmByte_lmStore _ _ _ (by simpa using hfit), if_pos (by simpa using hk), Nat.add_sub_cancel_left,
    getD_leBytes _ hk, extractLsb'_eq_byte]

theorem memRead_lt (s : State) (a n : Nat) : s.memRead a n < 256 ^ n := by
  simpa only [State.memRead, length_lmBytes] using leNat_lt (s.lmBytes a n)

/-- The data of a read is zero-extended (20_memory.md R86). -/
theorem toNat_word_memRead (s : State) (a : Nat) (w : Width) :
    (word (s.memRead a w.bytes)).toNat = s.memRead a w.bytes := by
  have h32 : 256 ^ w.bytes ≤ 256 ^ 4 := Nat.pow_le_pow_right (by decide) w.bytes_le
  exact Nat.mod_eq_of_lt (Nat.lt_of_lt_of_le (memRead_lt s a w.bytes) h32)

/-- Byte `k` of the data of a read is the LM byte at offset `a + k`. -/
theorem extractLsb'_word_memRead (s : State) (a : Nat) (w : Width) {k : Nat} (hk : k < w.bytes) :
    (word (s.memRead a w.bytes)).extractLsb' (8 * k) 8 = s.lmByte (a + k) := by
  rw [extractLsb'_eq_byte, toNat_word_memRead, State.memRead, byte_leNat_div, getD_lmBytes s a hk]

theorem leNat_eq_zero {bs : List Byte} (h : ∀ b ∈ bs, b = 0) : leNat bs = 0 := by
  induction bs with
  | nil => rfl
  | cons b bs ih =>
    rw [leNat, h b List.mem_cons_self, ih fun c hc => h c (List.mem_cons_of_mem _ hc)]
    rfl

/-- The reserved range reads 0 (20_memory.md R75). -/
theorem memRead_reserved (s : State) {a : Nat} (n : Nat) (h : lmEnd ≤ a) : s.memRead a n = 0 := by
  refine leNat_eq_zero fun b hb => ?_
  obtain ⟨k, -, rfl⟩ := List.mem_map.mp hb
  exact lmByte_reserved s (by omega)

/-- Settles O53: a write stores the bytes of its value at the offsets it spans and keeps everything else, a read
returns the bytes of those offsets. -/
theorem lmAccessesAreLittleEndian : Obligations.LmAccessesAreLittleEndian := by
  intro s a w v hp hlt hal
  rw [hostStep_lm_write s hp w v hlt hal, hostStep_lm_read s hp w hlt hal]
  refine ⟨fun hidle hst => ?_, fun hidle hres => ?_, word (s.memRead a w.bytes), rfl, ?_, ?_, fun hres => ?_⟩
  · have hframe : Frame s (s.lmStore a (leBytes w.bytes v.toNat)) [] (span a w.bytes) :=
      frame_lmStore s _ _ fun x hlo hhi => ⟨hlo, by rwa [length_leBytes] at hhi⟩
    exact ⟨_, congrArg _ (lmHostWrite_storage hidle hst w v),
      fun k hk => lmByte_lmStore_leBytes s v (w.aligned_fits hal hst) hk, hframe.lm, hframe.status, hframe.regs⟩
  · rw [lmHostWrite_reserved hidle hres]
  · exact fun k hk => extractLsb'_word_memRead s a w hk
  · exact (toNat_word_memRead s a w).symm ▸ memRead_lt s a w.bytes
  · exact congrArg word (memRead_reserved s w.bytes hres)

end Sys2Proof.Machine
end

section
/-! SUPPORT. The decoder and the opcode table: a row's mask is the opcode field and the bits its format has zero. -/

namespace Sys2Proof
open Machine

/-! ## A field is zero where its mask selects nothing -/

/-- The mask of the bits `[hi:lo]`. -/
def fieldMask (hi lo : Nat) : Word := lowMask (hi + 1 - lo) <<< lo

/-- The mask of the bits `[hi:lo]` where a row does not use them as a field (30_encoding.md R107). -/
def unusedMask (used : Bool) (hi lo : Nat) : Word := if used then 0 else fieldMask hi lo

theorem getLsbD_fieldMask {i : Nat} (h : i < 32) (hi lo : Nat) :
    (fieldMask hi lo).getLsbD i = decide (lo ≤ i ∧ i ≤ hi) := by
  simp only [fieldMask, BitVec.getLsbD_shiftLeft, getLsbD_lowMask]
  grind

theorem field_eq_toNat (w : Word) (hi lo : Nat) : field w hi lo = (w.extractLsb' lo (hi + 1 - lo)).toNat := by
  rw [field, BitVec.extractLsb'_toNat, Nat.shiftRight_eq_div_pow]

theorem and_fieldMask_eq_zero_iff (w : Word) (hi lo : Nat) : w &&& fieldMask hi lo = 0#32 ↔ field w hi lo = 0 := by
  rw [field_eq_toNat, BitVec.toNat_eq_nat]
  constructor
  · intro h
    refine ⟨Nat.two_pow_pos _, BitVec.eq_of_getLsbD_eq fun k hk => ?_⟩
    have hbit : w.getLsbD (lo + k) = false := by
      by_cases h32 : lo + k < 32
      · have hm : (fieldMask hi lo).getLsbD (lo + k) = true := by
          rw [getLsbD_fieldMask h32, decide_eq_true_iff]
          omega
        simpa using getLsbD_eq_of_and_eq (h.trans BitVec.zero_and.symm) hm
      · exact BitVec.getLsbD_of_ge w _ (Nat.le_of_not_lt h32)
    simp [hbit]
  · rintro ⟨-, h⟩
    refine BitVec.eq_of_getLsbD_eq fun k hk => ?_
    by_cases hin : lo ≤ k ∧ k ≤ hi
    · have hbit := congrArg (·.getLsbD (k - lo)) h
      have hlt : k - lo < hi + 1 - lo := by omega
      simp only [BitVec.getLsbD_extractLsb', hlt, Nat.add_sub_cancel' hin.1, decide_true, Bool.true_and,
        BitVec.getLsbD_zero] at hbit
      simp [hbit]
    · simp [getLsbD_fieldMask hk, hin]

theorem and_unusedMask_eq_zero_iff (w : Word) (used : Bool) (hi lo : Nat) :
    w &&& unusedMask used hi lo = 0#32 ↔ used = true ∨ field w hi lo = 0 := by
  cases used <;> simp [unusedMask, and_fieldMask_eq_zero_iff]

/-- Words have the same opcode when they agree in bits [7:0] (30_encoding.md R101). -/
theorem opcField_eq_iff (w v : Word) : opcField w = opcField v ↔ w &&& 0xFF#32 = v &&& 0xFF#32 := by
  have low (u : Word) : (u &&& 0xFF#32).toNat = opcField u := by
    rw [opcField, field, BitVec.toNat_and, Nat.pow_zero, Nat.div_one]
    exact Nat.and_two_pow_sub_one_eq_mod u.toNat 8
  rw [← low, ← low, BitVec.toNat_inj]

/-! ## A format is a mask of zero bits -/

/-- The command of a word whose opcode is known: the bits of `zeros` must be zero (30_encoding.md R102, R107). -/
def checkZeros (w zeros : Word) (i : Instr) : Except DecodeError Instr :=
  if w &&& zeros = 0#32 then .ok i else .error .mustBeZero

theorem checkZeros_eq_ok_iff {w zeros : Word} {i j : Instr} :
    checkZeros w zeros i = .ok j ↔ w &&& zeros = 0#32 ∧ i = j := by
  unfold checkZeros
  split <;> simp [*]

theorem formatN_eq (w : Word) (i : Instr) : formatN w i = checkZeros w (fieldMask 31 8) i := by
  simp only [formatN, checkZeros, and_fieldMask_eq_zero_iff]

theorem formatQ_eq (w : Word) (useVer useEcc useMask : Bool) (i : Instr) :
    formatQ w useVer useEcc useMask i = checkZeros w (fieldMask 31 19 ||| (unusedMask useMask 18 16 |||
      (unusedMask useEcc 15 14 ||| unusedMask useVer 13 8))) i := by
  simp only [formatQ, checkZeros, BitVec.and_or_distrib_left, BitVec.or_eq_zero_iff, and_fieldMask_eq_zero_iff,
    and_unusedMask_eq_zero_iff]

theorem formatB_eq (w : Word) (useB useC : Bool) (i : Instr) :
    formatB w useB useC i = checkZeros w (unusedMask useC 31 24 ||| unusedMask useB 23 16) i := by
  simp only [formatB, checkZeros, BitVec.and_or_distrib_left, BitVec.or_eq_zero_iff, and_unusedMask_eq_zero_iff]

theorem formatH_eq (w : Word) (useLen : Bool) (i : Instr) :
    formatH w useLen i = checkZeros w (fieldMask 15 13 ||| unusedMask useLen 12 8) i := by
  simp only [formatH, checkZeros, BitVec.and_or_distrib_left, BitVec.or_eq_zero_iff, and_fieldMask_eq_zero_iff,
    and_unusedMask_eq_zero_iff]

/-! ## The rows of the table -/

/-- The bits above the opcode that a row's words have zero (30_encoding.md R107). -/
def OpRow.zeros (r : OpRow) : Word := r.mask &&& ~~~0xFF#32

theorem opcodeTable_mask : ∀ r ∈ opcodeTable, r.mask &&& 0xFF#32 = 0xFF#32 := by decide

theorem opcodeTable_pattern : ∀ r ∈ opcodeTable, r.pattern &&& 0xFF#32 = r.pattern := by decide

theorem opcodeTable_opcode_injective : ∀ r ∈ opcodeTable, ∀ r' ∈ opcodeTable,
    opcField r.pattern = opcField r'.pattern → r = r' := by decide

/-- A word matches a row when it has the row's opcode and the row's zero bits (30_encoding.md R112). -/
theorem OpRow.matches_iff (r : OpRow) (hr : r ∈ opcodeTable) (w : Word) :
    r.matches w = true ↔ opcField w = opcField r.pattern ∧ w &&& r.zeros = 0#32 := by
  have hm := opcodeTable_mask r hr
  have hp := opcodeTable_pattern r hr
  rw [opcField_eq_iff, hp, OpRow.matches, beq_iff_eq, OpRow.zeros]
  constructor
  · intro h
    constructor
    · rw [← hm, ← BitVec.and_assoc, h, hp]
    · rw [← BitVec.and_assoc, h, ← hp, BitVec.and_assoc, BitVec.and_not_self]
      exact BitVec.and_zero
  · rintro ⟨ho, hz⟩
    calc w &&& r.mask
        = w &&& (r.mask &&& 0xFF#32 ||| r.mask &&& ~~~0xFF#32) := by
          rw [← BitVec.and_or_distrib_left, BitVec.or_not_self, BitVec.and_allOnes]
      _ = r.pattern := by rw [hm, BitVec.and_or_distrib_left, ho, hz, BitVec.or_zero]

/-- A word with a row's opcode is the row's command, or has a bit set that must be zero. -/
theorem decode_of_row {r : OpRow} (hr : r ∈ opcodeTable) {w : Word} (h : opcField w = opcField r.pattern) :
    ∃ i, decode w = checkZeros w r.zeros i ∧ i.mnemonic = r.mnemonic := by
  simp only [opcodeTable, opcodeTableLow, opcodeTableHigh] at hr
  fin_cases hr
  all_goals
    simp only [decode, h, formatN_eq, formatQ_eq, formatB_eq, formatH_eq]
    exact ⟨_, rfl, rfl⟩

/-- An opcode in no row is reserved (30_encoding.md R111). -/
theorem decode_of_no_row {w : Word} (h : ¬ ∃ r ∈ opcodeTable, opcField w = opcField r.pattern) :
    decode w = .error .reservedOpcode := by
  unfold decode
  generalize opcField w = opc at h
  split
  case h_32 => rfl
  all_goals exact absurd (by decide) h

/-- Settles O3: a row is its opcode and its zero bits, and so is the decoder's case for that opcode. -/
theorem decodeFollowsOpcodeTable : Obligations.DecodeFollowsOpcodeTable := by
  have opcode {r : OpRow} (hr : r ∈ opcodeTable) {w : Word} (h : r.matches w = true) :
      opcField w = opcField r.pattern := ((r.matches_iff hr w).mp h).1
  refine ⟨opcodeTable_mask, fun w r r' hr hr' h h' => ?_, fun w i hd => ?_, fun w r hr h => ?_, fun w hnone => ?_⟩
  · exact opcodeTable_opcode_injective r hr r' hr' ((opcode hr h).symm.trans (opcode hr' h'))
  · by_cases hrow : ∃ r ∈ opcodeTable, opcField w = opcField r.pattern
    · obtain ⟨r, hr, ho⟩ := hrow
      obtain ⟨j, hj, hname⟩ := decode_of_row hr ho
      obtain ⟨hz, rfl⟩ := checkZeros_eq_ok_iff.mp (hj.symm.trans hd)
      exact ⟨r, hr, (r.matches_iff hr w).mpr ⟨ho, hz⟩, hname.symm⟩
    · simp [decode_of_no_row hrow] at hd
  · obtain ⟨ho, hz⟩ := (r.matches_iff hr w).mp h
    obtain ⟨i, hi, hname⟩ := decode_of_row hr ho
    exact ⟨i, hi.trans (checkZeros_eq_ok_iff.mpr ⟨hz, rfl⟩), hname⟩
  · split
    next hrow =>
      obtain ⟨r, hr, ho⟩ := hrow
      obtain ⟨i, hi, -⟩ := decode_of_row hr ho
      have hz : w &&& r.zeros ≠ 0#32 := fun hz =>
        Bool.false_ne_true ((hnone r hr).symm.trans ((r.matches_iff hr w).mpr ⟨ho, hz⟩))
      rw [hi, checkZeros, if_neg hz]
    next hrow => exact decode_of_no_row hrow

end Sys2Proof
end

section
/-! SUPPORT. GF(256): every nonzero byte is a power of α, the product of two powers is the power of the sum of the
exponents, and multiplying by a power is repeated doubling, which distributes over exclusive or. -/

namespace Sys2Proof.Machine

/-! ## Doubling -/

/-- Doubling is a shift, reduced where the bit shifted out is 1 (42_gf_rs.md R170). -/
theorem gfDouble_eq (x : Byte) : gfDouble x = x <<< 1 ^^^ if x.msb then 0x1D else 0 := by
  revert x
  decide +kernel

theorem toNat_gfDouble (x : Byte) : (gfDouble x).toNat =
    if 0x100 ≤ x.toNat <<< 1 then (x.toNat <<< 1) ^^^ 0x11D else x.toNat <<< 1 := by
  revert x
  decide +kernel

theorem gfDouble_xor (x y : Byte) : gfDouble (x ^^^ y) = gfDouble x ^^^ gfDouble y := by
  have hreduction : ∀ b c : Bool, (if b ^^ c then (0x1D : Byte) else 0) =
      (if b then 0x1D else 0) ^^^ if c then 0x1D else 0 := by decide
  simp only [gfDouble_eq, BitVec.shiftLeft_xor_distrib, BitVec.msb_xor, hreduction]
  ac_rfl

theorem iterate_gfDouble_xor (i : Nat) (x y : Byte) :
    gfDouble^[i] (x ^^^ y) = gfDouble^[i] x ^^^ gfDouble^[i] y := by
  induction i generalizing x y with
  | zero => rfl
  | succ i ih => simp only [Function.iterate_succ_apply, gfDouble_xor, ih]

/-- Doubling sends only 0 to 0. -/
theorem gfDouble_ne_zero {x : Byte} : x ≠ 0 → gfDouble x ≠ 0 := by
  revert x
  decide +kernel

theorem iterate_gfDouble_zero (i : Nat) : gfDouble^[i] 0#8 = 0#8 := Function.iterate_fixed (by decide) i

/-! ## The exponent table -/

theorem gfExp_eq_iterate (i : Nat) : gfExp i = gfDouble^[i] 1 := by
  induction i with
  | zero => rfl
  | succ i ih => rw [gfExp, ih, Function.iterate_succ_apply']

theorem gfExp_add (i j : Nat) : gfExp (i + j) = gfDouble^[i] (gfExp j) := by
  simp only [gfExp_eq_iterate, Function.iterate_add_apply]

@[simp] theorem gfExp_ne_zero (i : Nat) : gfExp i ≠ 0#8 := by
  induction i with
  | zero => decide
  | succ i ih => exact gfDouble_ne_zero ih

/-- α has order 255: its power 255 is 1, and no power with another divisor of 255 is. -/
theorem minimalPeriod_gfDouble : Function.minimalPeriod gfDouble 1 = 255 := by
  have hper : gfDouble^[255] 1 = 1 := by decide +kernel
  have hdiv : ∀ n ∈ Nat.divisors 255, gfDouble^[n] 1 = 1 → n = 255 := by decide +kernel
  have hdvd : Function.minimalPeriod gfDouble 1 ∣ 255 := Function.IsPeriodicPt.minimalPeriod_dvd hper
  exact hdiv _ (Nat.mem_divisors.mpr ⟨hdvd, by decide⟩) Function.iterate_minimalPeriod

@[simp] theorem gfExp_mod (i : Nat) : gfExp (i % 255) = gfExp i := by
  simp only [gfExp_eq_iterate, ← minimalPeriod_gfDouble, Function.iterate_mod_minimalPeriod_eq]

theorem gfExp_injective {i j : Nat} (hi : i < 255) (hj : j < 255) (h : gfExp i = gfExp j) : i = j := by
  rw [← minimalPeriod_gfDouble] at hi hj
  rw [gfExp_eq_iterate, gfExp_eq_iterate] at h
  exact Function.iterate_injOn_Iio_minimalPeriod hi hj h

/-- The 255 powers of α are 255 of the 255 nonzero bytes. -/
theorem exists_gfExp_eq {x : Byte} (hx : x ≠ 0) : ∃ i < 255, gfExp i = x := by
  have hsub : (Finset.range 255).image gfExp ⊆ Finset.univ.erase 0#8 := by
    intro y hy
    obtain ⟨i, -, rfl⟩ := Finset.mem_image.mp hy
    simp
  have hcard : ((Finset.range 255).image gfExp).card = 255 := by
    rw [Finset.card_image_of_injOn, Finset.card_range]
    exact fun i hi j hj => gfExp_injective (Finset.mem_range.mp hi) (Finset.mem_range.mp hj)
  have himage := Finset.eq_of_subset_of_card_le hsub (by rw [hcard]; decide +kernel)
  have hmem : x ∈ (Finset.range 255).image gfExp := by simpa [himage] using hx
  simpa using hmem

/-- A byte is 0 or a power of α. -/
theorem eq_zero_or_gfExp (x : Byte) : x = 0#8 ∨ ∃ i, x = gfExp i := by
  by_cases hx : x = 0
  · exact .inl hx
  · obtain ⟨i, -, hi⟩ := exists_gfExp_eq hx
    exact .inr ⟨i, hi.symm⟩

/-! ## The logarithm table -/

/-- The search finds a power of `x` where one lies in its range. -/
theorem gfLogFrom_spec {x : Byte} {k : Nat} (hx : gfExp k = x) (i fuel : Nat) (hi : i ≤ k) (hk : k < i + fuel) :
    gfLogFrom x (gfExp i) i fuel < i + fuel ∧ gfExp (gfLogFrom x (gfExp i) i fuel) = x := by
  induction fuel generalizing i with
  | zero => omega
  | succ fuel ih =>
    rw [gfLogFrom]
    split
    next h => exact ⟨by omega, h⟩
    next h =>
      have hne : i ≠ k := fun he => h (he ▸ hx)
      obtain ⟨hlt, hexp⟩ := ih (i + 1) (by omega) (by omega)
      exact ⟨by rw [gfExp] at hlt; omega, hexp⟩

/-- `LOG` inverts `EXP` on the nonzero bytes (42_gf_rs.md R171). -/
theorem gfLog_spec {x : Byte} (hx : x ≠ 0) : gfLog x < 255 ∧ gfExp (gfLog x) = x := by
  obtain ⟨k, hk, he⟩ := exists_gfExp_eq hx
  exact gfLogFrom_spec he 0 255 k.zero_le (by omega)

@[simp] theorem gfLog_gfExp (i : Nat) : gfLog (gfExp i) = i % 255 := by
  obtain ⟨hlt, hexp⟩ := gfLog_spec (gfExp_ne_zero i)
  exact gfExp_injective hlt (by omega) (by rw [hexp, gfExp_mod])

/-! ## Multiplication -/

@[simp] theorem gfMul_zero (x : Byte) : gfMul x 0#8 = 0#8 := by simp [gfMul]

@[simp] theorem zero_gfMul (x : Byte) : gfMul 0#8 x = 0#8 := by simp [gfMul]

/-- The product of powers of α is the power of the sum (42_gf_rs.md R172). -/
@[simp] theorem gfMul_gfExp (i j : Nat) : gfMul (gfExp i) (gfExp j) = gfExp (i + j) := by
  have hne : ¬ (gfExp i = 0 ∨ gfExp j = 0) := by simp
  rw [gfMul, if_neg hne, gfLog_gfExp, gfLog_gfExp, ← Nat.add_mod, gfExp_mod]

theorem gfMul_comm (x y : Byte) : gfMul x y = gfMul y x := by
  simp only [gfMul, or_comm, Nat.add_comm]

/-- Multiplying by α to the `i` is doubling `i` times. -/
theorem gfExp_gfMul (i : Nat) (y : Byte) : gfMul (gfExp i) y = gfDouble^[i] y := by
  obtain rfl | ⟨j, rfl⟩ := eq_zero_or_gfExp y
  · rw [gfMul_zero, iterate_gfDouble_zero]
  · rw [gfMul_gfExp, gfExp_add]

theorem gfMul_assoc (x y z : Byte) : gfMul (gfMul x y) z = gfMul x (gfMul y z) := by
  obtain rfl | ⟨i, rfl⟩ := eq_zero_or_gfExp x
  · simp
  obtain rfl | ⟨j, rfl⟩ := eq_zero_or_gfExp y
  · simp
  obtain rfl | ⟨k, rfl⟩ := eq_zero_or_gfExp z
  · simp
  simp [Nat.add_assoc]

theorem gfMul_xor (x y z : Byte) : gfMul x (y ^^^ z) = gfMul x y ^^^ gfMul x z := by
  obtain rfl | ⟨i, rfl⟩ := eq_zero_or_gfExp x
  · simp
  · simp only [gfExp_gfMul, iterate_gfDouble_xor]

theorem gfMul_one (x : Byte) : gfMul x 1 = x := by
  rw [gfMul_comm]
  exact gfExp_gfMul 0 x

/-- The inverse of a nonzero byte is the power of α with the opposite exponent. -/
theorem gfMul_inverse {x : Byte} (hx : x ≠ 0) : gfMul x (gfExp ((255 - gfLog x) % 255)) = 1 := by
  obtain ⟨hlt, hexp⟩ := gfLog_spec hx
  calc gfMul x (gfExp ((255 - gfLog x) % 255))
      = gfMul (gfExp (gfLog x)) (gfExp (255 - gfLog x)) := by rw [gfExp_mod, hexp]
    _ = gfExp (255 % 255) := by rw [gfMul_gfExp, gfExp_mod, Nat.add_sub_of_le hlt.le]
    _ = 1 := rfl

/-- Settles O14: on the powers of α the product is the sum of the exponents, and doubling distributes over exclusive
or. -/
theorem gfTablesAndFieldLaws : Obligations.GfTablesAndFieldLaws := by
  refine ⟨rfl, fun i _ => toNat_gfDouble (gfExp i), fun i hi => ?_, fun x hx => ?_, fun _ _ => rfl, gfMul_comm,
    gfMul_assoc, gfMul_xor, fun x => ⟨gfMul_one x, gfMul_zero x⟩, fun _ => gfMul_inverse⟩
  · rw [gfLog_gfExp, Nat.mod_eq_of_lt (by omega)]
  · obtain ⟨hlt, hexp⟩ := gfLog_spec hx
    exact ⟨by omega, hexp⟩

end Sys2Proof.Machine
end

section
/-! SUPPORT. The function plane (46_qr_matrix.md R300 to R309): which cells each pattern draws, and how many. -/

namespace Sys2Proof.Machine

/-! ## Which cells a drawing marks -/

@[simp] theorem func_nil (x y : Nat) : Drawing.func [] x y = false := rfl

@[simp] theorem func_setFunc (g : Drawing) (a b x y : Nat) (d : Bool) :
    (g.setFunc a b d).func x y = true ↔ (a = x ∧ b = y) ∨ g.func x y = true := by
  simp only [Drawing.func, Drawing.setFunc, List.lookup_cons]
  by_cases h : a = x ∧ b = y
  · obtain ⟨rfl, rfl⟩ := h
    simp
  · have hb : ((x, y) == (a, b)) = false := by
      simp only [beq_eq_false_iff_ne, ne_eq, Prod.mk.injEq]
      omega
    simp [hb, h]

/-- Drawing steps one after the other mark the cells that each of them marks. -/
theorem func_foldl {α : Type} {f : Drawing → α → Drawing} {P : α → Prop} {x y : Nat}
    (hf : ∀ g c, (f g c).func x y = true ↔ P c ∨ g.func x y = true) (l : List α) (g : Drawing) :
    (l.foldl f g).func x y = true ↔ (∃ c ∈ l, P c) ∨ g.func x y = true := by
  induction l generalizing g with
  | nil => simp
  | cons c l ih =>
    rw [List.foldl_cons, ih, hf, List.exists_mem_cons_iff, or_left_comm, or_assoc]

theorem mem_squareAround (cx cy r n x y : Nat) :
    (x, y) ∈ squareAround cx cy r n ↔
      x < n ∧ y < n ∧ x ≤ cx + r ∧ cx ≤ x + r ∧ y ≤ cy + r ∧ cy ≤ y + r := by
  simp only [squareAround, List.mem_flatMap, List.mem_filterMap, List.mem_range, Option.ite_none_right_eq_some,
    Option.some.injEq, Prod.mk.injEq]
  constructor
  · rintro ⟨dy, hdy, dx, hdx, hgrid, rfl, rfl⟩
    omega
  · intro h
    exact ⟨y + r - cy, by omega, x + r - cx, by omega, by omega, by omega, by omega⟩

theorem func_drawFinder (n cx cy : Nat) (g : Drawing) (x y : Nat) :
    (drawFinder n cx cy g).func x y = true ↔ (x, y) ∈ squareAround cx cy 4 n ∨ g.func x y = true := by
  rw [drawFinder, func_foldl (P := (· = (x, y))) fun g c => by simp [Prod.ext_iff]]
  simp

theorem func_drawAlignment (v : Nat) (g : Drawing) (x y : Nat) :
    (drawAlignment v g).func x y = true ↔
      (∃ c ∈ alignmentCentres v, (x, y) ∈ squareAround c.1 c.2 2 (gridSize v)) ∨ g.func x y = true := by
  refine func_foldl (fun g c => ?_) _ g
  rw [drawAlignmentAt, func_foldl (P := (· = (x, y))) fun g c => by simp [Prod.ext_iff]]
  simp

theorem func_drawTimingCell (g : Drawing) (a b i x y : Nat) :
    (drawTimingCell g a b i).func x y = true ↔ (a = x ∧ b = y) ∨ g.func x y = true := by
  rw [drawTimingCell]
  split
  next h =>
    refine ⟨.inr, ?_⟩
    rintro (⟨rfl, rfl⟩ | hg)
    · exact h
    · exact hg
  next => exact func_setFunc g a b x y _

theorem func_drawTiming (n : Nat) (g : Drawing) (x y : Nat) :
    (drawTiming n g).func x y = true ↔ (x < n ∧ 6 = y ∨ y < n ∧ 6 = x) ∨ g.func x y = true := by
  rw [drawTiming, func_foldl (P := fun i => (i = x ∧ 6 = y) ∨ 6 = x ∧ i = y) fun g i => by
    rw [func_drawTimingCell, func_drawTimingCell, or_left_comm, or_assoc]]
  simp [and_or_left, exists_or]

/-- The format bits around the top-left finder leave out the timing column and row (46_qr_matrix.md R322). -/
theorem exists_fmt1_eq (x y : Nat) :
    (∃ i < 15, fmt1 i = (x, y)) ↔ (x = 8 ∧ y ≤ 8 ∧ y ≠ 6) ∨ (y = 8 ∧ x ≤ 8 ∧ x ≠ 6) := by
  constructor
  · rintro ⟨i, hi, h⟩
    simp only [fmt1] at h
    split_ifs at h <;> simp only [Prod.mk.injEq] at h <;> omega
  · have hcol : ∀ y ≤ 8, y ≠ 6 → ∃ i < 15, fmt1 i = (8, y) := by decide
    have hrow : ∀ x ≤ 8, x ≠ 6 → ∃ i < 15, fmt1 i = (x, 8) := by decide
    rintro (⟨rfl, hy, h6⟩ | ⟨rfl, hx, h6⟩)
    · exact hcol y hy h6
    · exact hrow x hx h6

/-- The format bits beside the other finders (46_qr_matrix.md R323). -/
theorem exists_fmt2_eq {n : Nat} (hn : 15 ≤ n) (x y : Nat) :
    (∃ i < 15, fmt2 i n = (x, y)) ↔ (y = 8 ∧ n - 8 ≤ x ∧ x < n) ∨ (x = 8 ∧ n - 7 ≤ y ∧ y < n) := by
  constructor
  · rintro ⟨i, hi, h⟩
    simp only [fmt2] at h
    split_ifs at h <;> simp only [Prod.mk.injEq] at h <;> omega
  · rintro (⟨rfl, hlo, hhi⟩ | ⟨rfl, hlo, hhi⟩)
    · refine ⟨n - 1 - x, by omega, ?_⟩
      rw [fmt2, if_pos (by omega)]
      congr 1
      omega
    · refine ⟨y + 15 - n, by omega, ?_⟩
      rw [fmt2, if_neg (by omega)]
      congr 1
      omega

theorem exists_mem_formatCells (n : Nat) (p : Nat × Nat) :
    (∃ c ∈ formatCells n, c.1 = p) ↔ (∃ i < 15, fmt1 i = p) ∨ ∃ i < 15, fmt2 i n = p := by
  simp only [formatCells, List.mem_flatMap, List.mem_range, List.mem_cons, List.not_mem_nil, or_false]
  constructor
  · rintro ⟨c, ⟨i, hi, rfl | rfl⟩, rfl⟩
    · exact .inl ⟨i, hi, rfl⟩
    · exact .inr ⟨i, hi, rfl⟩
  · rintro (⟨i, hi, rfl⟩ | ⟨i, hi, rfl⟩)
    · exact ⟨_, ⟨i, hi, .inl rfl⟩, rfl⟩
    · exact ⟨_, ⟨i, hi, .inr rfl⟩, rfl⟩

theorem func_drawFormatArea (n : Nat) (g : Drawing) (x y : Nat) :
    (drawFormatArea n g).func x y = true ↔
      ((8 = x ∧ n - 8 = y) ∨ (∃ i < 15, fmt1 i = (x, y)) ∨ ∃ i < 15, fmt2 i n = (x, y)) ∨ g.func x y = true := by
  rw [drawFormatArea, func_setFunc, func_foldl (P := fun c => c.1 = (x, y)) fun g c => by simp [Prod.ext_iff],
    exists_mem_formatCells, ← or_assoc]

/-- The version information lies beside two finders (46_qr_matrix.md R308). -/
theorem func_drawVersion {n : Nat} (hn : 11 ≤ n) (v : Nat) (g : Drawing) (x y : Nat) :
    (drawVersion v n g).func x y = true ↔
      (7 ≤ v ∧ (n - 11 ≤ x ∧ x < n - 8 ∧ y < 6 ∨ n - 11 ≤ y ∧ y < n - 8 ∧ x < 6)) ∨ g.func x y = true := by
  rw [drawVersion]
  split
  next hv =>
    rw [func_foldl (P := fun i => (i / 3 = x ∧ n - 11 + i % 3 = y) ∨ n - 11 + i % 3 = x ∧ i / 3 = y) fun g i => by
      rw [func_setFunc, func_setFunc, or_assoc]]
    refine or_congr_left ?_
    simp only [List.mem_range, hv, true_and]
    constructor
    · rintro ⟨i, hi, h⟩
      omega
    · rintro (h | h)
      · exact ⟨3 * y + (x - (n - 11)), by omega⟩
      · exact ⟨3 * x + (y - (n - 11)), by omega⟩
  next hv => simp [hv]

/-! ## The cells of the function plane -/

/-- A rectangle of cells. -/
def box (x₀ x₁ y₀ y₁ : Nat) : Finset (Nat × Nat) := Finset.Ico x₀ x₁ ×ˢ Finset.Ico y₀ y₁

@[simp] theorem mem_box {x₀ x₁ y₀ y₁ x y : Nat} :
    (x, y) ∈ box x₀ x₁ y₀ y₁ ↔ (x₀ ≤ x ∧ x < x₁) ∧ y₀ ≤ y ∧ y < y₁ := by
  simp [box]

@[simp] theorem card_box (x₀ x₁ y₀ y₁ : Nat) : (box x₀ x₁ y₀ y₁).card = (x₁ - x₀) * (y₁ - y₀) := by
  simp [box]

/-- The three corners of the symbol that the finders, the separators, the format bits and the dark module fill, with
the timing modules in them. -/
def cornerCells (n : Nat) : Finset (Nat × Nat) := box 0 9 0 9 ∪ (box (n - 8) n 0 9 ∪ box 0 9 (n - 8) n)

/-- The timing modules between the corners. -/
def timingCells (n : Nat) : Finset (Nat × Nat) := box 9 (n - 8) 6 7 ∪ box 6 7 9 (n - 8)

/-- The version information where a version has it. -/
def versionCells (v n : Nat) : Finset (Nat × Nat) :=
  if 7 ≤ v then box (n - 11) (n - 8) 0 6 ∪ box 0 6 (n - 11) (n - 8) else ∅

/-- The cells of an alignment pattern in neither the timing column nor the timing row. -/
def alignmentSquare (c : Nat × Nat) : Finset (Nat × Nat) :=
  (Finset.Icc (c.1 - 2) (c.1 + 2)).erase 6 ×ˢ (Finset.Icc (c.2 - 2) (c.2 + 2)).erase 6

/-- The alignment patterns outside the timing column and row. -/
def alignmentCells (v : Nat) : Finset (Nat × Nat) := (alignmentCentres v).toFinset.biUnion alignmentSquare

/-- The function modules of a version, as disjoint parts. -/
def functionCells (v : Nat) : Finset (Nat × Nat) :=
  cornerCells (gridSize v) ∪ (timingCells (gridSize v) ∪ (versionCells v (gridSize v) ∪ alignmentCells v))

/-- An alignment pattern stays away from the corners and from the version information; only its middle row or column
meets the timing patterns (46_qr_matrix.md R305). -/
abbrev AlignmentClear (n : Nat) (c : Nat × Nat) : Prop :=
  (c.1 = 6 ∨ 11 ≤ c.1) ∧ (c.2 = 6 ∨ 11 ≤ c.2) ∧ c.1 + 2 < n ∧ c.2 + 2 < n ∧ (11 ≤ c.1 ∨ 11 ≤ c.2) ∧
    (c.1 + 2 < n - 11 ∨ 11 ≤ c.2) ∧ (c.2 + 2 < n - 11 ∨ 11 ≤ c.1)

theorem alignmentClear {v : Nat} (h1 : 1 ≤ v) (h10 : v ≤ 10) :
    ∀ c ∈ alignmentCentres v, AlignmentClear (gridSize v) c := by
  interval_cases v <;> decide

@[simp] theorem mem_alignmentSquare {c : Nat × Nat} {x y : Nat} :
    (x, y) ∈ alignmentSquare c ↔
      (x ≠ 6 ∧ c.1 - 2 ≤ x ∧ x ≤ c.1 + 2) ∧ y ≠ 6 ∧ c.2 - 2 ≤ y ∧ y ≤ c.2 + 2 := by
  simp [alignmentSquare]

/-- The number of those cells: a centre on the timing column or row loses a fifth to it. -/
def alignmentArea (c : Nat × Nat) : Nat := (if c.1 = 6 then 4 else 5) * (if c.2 = 6 then 4 else 5)

theorem card_alignmentSquare {n : Nat} {c : Nat × Nat} (h : AlignmentClear n c) :
    (alignmentSquare c).card = alignmentArea c := by
  have side : ∀ a : Nat, a = 6 ∨ 11 ≤ a → ((Finset.Icc (a - 2) (a + 2)).erase 6).card = if a = 6 then 4 else 5 := by
    rintro a (rfl | ha)
    · rfl
    · rw [Finset.erase_eq_of_notMem (by simp; omega), Nat.card_Icc, if_neg (by omega)]
      omega
  obtain ⟨hx, hy, -⟩ := h
  rw [alignmentSquare, Finset.card_product, side _ hx, side _ hy, alignmentArea]

/-- No symbol is smaller than version 1's (43_capacity.md R205). -/
theorem le_gridSize {v : Nat} (h1 : 1 ≤ v) : 21 ≤ gridSize v := by
  rw [gridSize]
  omega

theorem mem_versionCells {v n x y : Nat} :
    (x, y) ∈ versionCells v n ↔
      7 ≤ v ∧ (n - 11 ≤ x ∧ x < n - 8 ∧ y < 6 ∨ n - 11 ≤ y ∧ y < n - 8 ∧ x < 6) := by
  rw [versionCells]
  split
  next hv =>
    simp only [Finset.mem_union, mem_box]
    omega
  next hv => simp [hv]

/-- What an alignment pattern's cells keep away from. -/
theorem clear_of_mem_alignmentCells {v : Nat} (h1 : 1 ≤ v) (h10 : v ≤ 10) {x y : Nat} (h : (x, y) ∈ alignmentCells v) :
    (x ≠ 6 ∧ y ≠ 6 ∧ x < gridSize v ∧ y < gridSize v) ∧ (9 ≤ x ∨ 9 ≤ y) ∧ (x < gridSize v - 11 ∨ 9 ≤ y) ∧
      (y < gridSize v - 11 ∨ 9 ≤ x) := by
  simp only [alignmentCells, Finset.mem_biUnion, List.mem_toFinset] at h
  obtain ⟨c, hc, hxy⟩ := h
  have hclear := alignmentClear h1 h10 c hc
  rw [mem_alignmentSquare] at hxy
  omega

/-- Outside the timing patterns an alignment pattern is a whole square. -/
theorem mem_alignmentCells {v : Nat} (h1 : 1 ≤ v) (h10 : v ≤ 10) {x y : Nat}
    (ht : ¬ (x < gridSize v ∧ 6 = y ∨ y < gridSize v ∧ 6 = x)) :
    (x, y) ∈ alignmentCells v ↔ ∃ c ∈ alignmentCentres v, (x, y) ∈ squareAround c.1 c.2 2 (gridSize v) := by
  simp only [alignmentCells, Finset.mem_biUnion, List.mem_toFinset]
  refine exists_congr fun c => and_congr_right fun hc => ?_
  have hclear := alignmentClear h1 h10 c hc
  rw [mem_alignmentSquare, mem_squareAround]
  omega

/-- The finders, the timing patterns and the format area fill the corners and the timing between them. -/
theorem mem_corner_or_timing {n : Nat} (hn : 21 ≤ n) (x y : Nat) :
    (x, y) ∈ cornerCells n ∨ (x, y) ∈ timingCells n ↔
      (drawFormatArea n (drawTiming n (drawFinders n []))).func x y = true := by
  simp only [cornerCells, timingCells, Finset.mem_union, mem_box, func_drawFormatArea, exists_fmt1_eq,
    exists_fmt2_eq (show 15 ≤ n by omega), func_drawTiming, drawFinders, func_drawFinder, mem_squareAround, func_nil,
    Bool.false_eq_true, or_false]
  constructor
  · rintro (hcorner | htiming)
    · by_cases ht : x = 6 ∨ y = 6
      · exact .inr (.inl (by omega))
      · by_cases hf : x = 8 ∨ y = 8
        · exact .inl (by omega)
        · exact .inr (.inr (by omega))
    · exact .inr (.inl (by omega))
  · rintro ((hdark | hnear | hfar) | htiming | hfinder)
    · exact .inl (by omega)
    · exact .inl (by omega)
    · exact .inl (by omega)
    · omega
    · exact .inl (by omega)

theorem mem_functionCells {v : Nat} (h1 : 1 ≤ v) (h10 : v ≤ 10) (x y : Nat) :
    (x, y) ∈ functionCells v ↔ (functionPlane v).func x y = true := by
  have hn := le_gridSize h1
  have hcorner := mem_corner_or_timing hn x y
  rw [func_drawFormatArea, func_drawTiming] at hcorner
  rw [functionPlane, func_drawVersion (by omega), func_drawFormatArea, func_drawAlignment, func_drawTiming,
    ← mem_versionCells, functionCells, Finset.mem_union, Finset.mem_union, Finset.mem_union, ← or_assoc, hcorner]
  by_cases ht : x < gridSize v ∧ 6 = y ∨ y < gridSize v ∧ 6 = x
  · simp only [ht, true_or, or_true]
  · simp only [ht, false_or]
    rw [mem_alignmentCells h1 h10 ht]
    exact iff_of_eq (by ac_rfl)

/-- The count of the data cells and of the function modules of a symbol together is the count of its cells. -/
theorem countDataCells_add_card (s : State) (n : Nat) :
    s.countDataCells n + ((Finset.range n ×ˢ Finset.range n).filter (fun p => s.func p.1 p.2 = true)).card = n * n := by
  have hrow (y : Nat) : (List.range n).countP (fun x => !s.func x y) =
      ((Finset.range n).filter (fun x => ¬ s.func x y = true)).card := by
    rw [← Nat.count_eq_card_filter_range, Nat.count]
    simp
  have h : s.countDataCells n = ((Finset.range n ×ˢ Finset.range n).filter (fun p => ¬ s.func p.1 p.2 = true)).card := by
    rw [Finset.card_filter, Finset.sum_product_right]
    simp only [← Finset.card_filter, State.countDataCells, hrow]
    rfl
  rw [h, add_comm, Finset.card_filter_add_card_filter_not, Finset.card_product, Finset.card_range]

/-- GRID shows the function plane after its drawing (46_qr_matrix.md R309). -/
theorem lmByte_drawFunctions (s : State) (v : Nat) (e : Ecc) {x y : Nat} (hx : x < 64) (hy : y < 64) :
    (s.drawFunctions v e).lmByte (cellOffset x y) = ((functionPlane v).lookup (x, y)).elim 0 funcCell := by
  have hlm : (s.drawFunctions v e).lmByte = (s.lmStore gridBase (functionPlane v).gridBytes).lmByte := rfl
  have hin : gridBase ≤ cellOffset x y ∧ cellOffset x y < gridBase + 4096 := by
    simp only [cellOffset]
    omega
  have hcell : cellOffset x y - gridBase = 64 * y + x := by
    simp only [cellOffset]
    omega
  have hmod : (64 * y + x) % 64 = x := by omega
  have hdiv : (64 * y + x) / 64 = y := by omega
  rw [hlm, lmByte_lmStore _ _ _ (by rw [length_gridBytes]; decide), length_gridBytes, if_pos hin, hcell,
    Drawing.gridBytes, List.getD_eq_getElem _ _ (by rw [List.length_map, List.length_range]; omega), List.getElem_map,
    List.getElem_range, hmod, hdiv]
  cases (functionPlane v).lookup (x, y) with
  | none => rfl
  | some d => rfl

theorem func_drawFunctions (s : State) (v : Nat) (e : Ecc) {x y : Nat} (hx : x < 64) (hy : y < 64) :
    (s.drawFunctions v e).func x y = (functionPlane v).func x y := by
  rw [State.func, lmByte_drawFunctions s v e hx hy, Drawing.func]
  cases (functionPlane v).lookup (x, y) with
  | none => rfl
  | some d => cases d <;> rfl

/-! ## The number of function modules -/

theorem card_union_of_forall {s t : Finset (Nat × Nat)} (h : ∀ x y, (x, y) ∈ s → (x, y) ∉ t) :
    (s ∪ t).card = s.card + t.card :=
  Finset.card_union_of_disjoint (Finset.disjoint_left.mpr fun p => h p.1 p.2)

theorem card_cornerCells {n : Nat} (hn : 21 ≤ n) : (cornerCells n).card = 225 := by
  rw [cornerCells, card_union_of_forall, card_union_of_forall, card_box, card_box, card_box]
  · omega
  · intro x y
    simp only [mem_box]
    omega
  · intro x y
    simp only [Finset.mem_union, mem_box]
    omega

theorem card_timingCells (n : Nat) : (timingCells n).card = 2 * (n - 17) := by
  rw [timingCells, card_union_of_forall, card_box, card_box]
  · omega
  · intro x y
    simp only [mem_box]
    omega

theorem card_versionCells {n : Nat} (hn : 21 ≤ n) (v : Nat) : (versionCells v n).card = if 7 ≤ v then 36 else 0 := by
  rw [versionCells]
  split
  · rw [card_union_of_forall, card_box, card_box]
    · omega
    · intro x y
      simp only [mem_box]
      omega
  · rfl

/-- Two alignment patterns have no cell in common (46_qr_matrix.md R305). -/
theorem alignmentSquares_disjoint {v : Nat} (h1 : 1 ≤ v) (h10 : v ≤ 10) :
    ((alignmentCentres v).toFinset : Set (Nat × Nat)).PairwiseDisjoint alignmentSquare := by
  have hfar : ∀ c ∈ alignmentCentres v, ∀ d ∈ alignmentCentres v, c ≠ d →
      c.1 + 5 ≤ d.1 ∨ d.1 + 5 ≤ c.1 ∨ c.2 + 5 ≤ d.2 ∨ d.2 + 5 ≤ c.2 := by
    interval_cases v <;> decide
  intro c hc d hd hne
  have hcd := hfar c (by simpa using hc) d (by simpa using hd) hne
  refine Finset.disjoint_left.mpr ?_
  rintro ⟨x, y⟩
  simp only [mem_alignmentSquare]
  omega

theorem card_alignmentCells {v : Nat} (h1 : 1 ≤ v) (h10 : v ≤ 10) :
    (alignmentCells v).card = ((alignmentCentres v).map alignmentArea).sum := by
  have hnodup : (alignmentCentres v).Nodup := by interval_cases v <;> decide
  rw [alignmentCells, Finset.card_biUnion (alignmentSquares_disjoint h1 h10), List.sum_toFinset _ hnodup]
  exact congrArg List.sum (List.map_congr_left fun c hc => card_alignmentSquare (alignmentClear h1 h10 c hc))

theorem card_functionCells {v : Nat} (h1 : 1 ≤ v) (h10 : v ≤ 10) :
    (functionCells v).card = 225 + (2 * (gridSize v - 17) + ((if 7 ≤ v then 36 else 0) +
      ((alignmentCentres v).map alignmentArea).sum)) := by
  have hn := le_gridSize h1
  rw [functionCells, card_union_of_forall, card_union_of_forall, card_union_of_forall, card_cornerCells hn,
    card_timingCells, card_versionCells hn, card_alignmentCells h1 h10]
  · intro x y hx ha
    have hclear := clear_of_mem_alignmentCells h1 h10 ha
    rw [mem_versionCells] at hx
    omega
  · intro x y
    simp only [timingCells, Finset.mem_union, mem_box, mem_versionCells]
    rintro hx (hv | ha)
    · omega
    · have hclear := clear_of_mem_alignmentCells h1 h10 ha
      omega
  · intro x y
    simp only [cornerCells, timingCells, Finset.mem_union, mem_box, mem_versionCells]
    rintro hx (ht | hv | ha)
    · omega
    · omega
    · have hclear := clear_of_mem_alignmentCells h1 h10 ha
      omega

/-- The capacity of a version is what the function modules leave (43_capacity.md R204). -/
theorem totalRawDataModules_add_card {v : Nat} (h1 : 1 ≤ v) (h10 : v ≤ 10) :
    totalRawDataModules v + (functionCells v).card = gridSize v * gridSize v := by
  rw [card_functionCells h1 h10]
  interval_cases v <;> rfl

theorem functionCells_subset {v : Nat} (h1 : 1 ≤ v) (h10 : v ≤ 10) :
    functionCells v ⊆ Finset.range (gridSize v) ×ˢ Finset.range (gridSize v) := by
  have hn := le_gridSize h1
  rintro ⟨x, y⟩ h
  simp only [functionCells, cornerCells, timingCells, Finset.mem_union, mem_box, mem_versionCells] at h
  rw [Finset.mem_product, Finset.mem_range, Finset.mem_range]
  rcases h with hc | ht | hv | ha
  · omega
  · omega
  · omega
  · have hclear := clear_of_mem_alignmentCells h1 h10 ha
    omega

/-- The function modules of GRID after QR_FUNC's drawing are the cells of the function plane. -/
theorem filter_func_drawFunctions (s : State) {v : Nat} (e : Ecc) (h1 : 1 ≤ v) (h10 : v ≤ 10) :
    (Finset.range (gridSize v) ×ˢ Finset.range (gridSize v)).filter
      (fun p => (s.drawFunctions v e).func p.1 p.2 = true) = functionCells v := by
  have h64 : gridSize v ≤ 64 := by
    rw [gridSize]
    omega
  rw [← Finset.inter_eq_right.mpr (functionCells_subset h1 h10), ← Finset.filter_mem_eq_inter]
  refine Finset.filter_congr ?_
  rintro ⟨x, y⟩ hp
  rw [Finset.mem_product, Finset.mem_range, Finset.mem_range] at hp
  rw [mem_functionCells h1 h10, func_drawFunctions s v e (hp.1.trans_le h64) (hp.2.trans_le h64)]

theorem dataCodewords_add_ecc {v : Nat} (h1 : 1 ≤ v) (h10 : v ≤ 10) (e : Ecc) :
    dataCodewords v e + numBlocks v e * eccPerBlock v e = rawCodewords v := by
  interval_cases v <;> cases e <;> rfl

/-- Settles O20: the function modules fall into disjoint parts, whose sizes are what `totalRawDataModules` takes from
the cells of the symbol. -/
theorem capacityTablesAgreeWithTheGrid : Obligations.CapacityTablesAgreeWithTheGrid := by
  intro v h1 h10
  refine ⟨dataCodewords_add_ecc h1 h10, fun s e => ?_⟩
  have hcells := countDataCells_add_card (s.drawFunctions v e) (gridSize v)
  rw [filter_func_drawFunctions s e h1 h10, ← totalRawDataModules_add_card h1 h10] at hcells
  exact Nat.add_right_cancel hcells

end Sys2Proof.Machine
end

section
/-! SUPPORT. Version selection (45_qr_codewords.md R260 to R262): the search is the library's search of a range, so what it
finds is the smallest version that fits. -/

namespace Sys2Proof.Machine

theorem selectFrom_eq_find? (n : Nat) (e : Ecc) (v count : Nat) :
    selectFrom n e v count = (List.range' v count).find? (fits n · e) := by
  induction count generalizing v with
  | zero => rfl
  | succ count ih =>
    rw [selectFrom, List.range'_succ, List.find?_cons, ih]
    cases fits n v e <;> rfl

/-- The selected version fits, is in range, and no smaller version fits (45_qr_codewords.md R262). -/
theorem selectVersion_eq_some_iff {maxVersion n v : Nat} {e : Ecc} :
    selectVersion maxVersion n e = some v ↔
      fits n v e = true ∧ (1 ≤ v ∧ v ≤ maxVersion) ∧ ∀ u, 1 ≤ u → u < v → fits n u e = false := by
  rw [selectVersion, selectFrom_eq_find?, List.find?_range'_eq_some, List.mem_range'_1, Nat.lt_one_add_iff]
  simp only [Bool.not_eq_true']

/-- The search fails exactly where no version up to the cap fits (45_qr_codewords.md R261). -/
theorem selectVersion_eq_none_iff {maxVersion n : Nat} {e : Ecc} :
    selectVersion maxVersion n e = none ↔ ∀ u, 1 ≤ u → u ≤ maxVersion → fits n u e = false := by
  rw [selectVersion, selectFrom_eq_find?, List.find?_range'_eq_none]
  simp only [Nat.lt_one_add_iff, Bool.not_eq_true']

/-- The total of a fitting version is not null (44_segment.md R233, 45_qr_codewords.md R260). -/
theorem totalBits_of_fits {n v : Nat} {e : Ecc} (h : fits n v e = true) :
    totalBits n v = some (4 + ccBits v + 8 * n) := by
  cases ht : totalBits n v with
  | none => simp [fits, ht] at h
  | some t => rw [eq_of_totalBits_eq_some ht]

/-- QR_SELECT where the search finds a version (45_qr_codewords.md R261). -/
theorem execQrSelect_of_selectVersion {s : State} {e : Ecc} {v : Nat} (hn : s.inLen.toNat ≤ inCapacity)
    (hv : selectVersion s.params.maxVersion s.inLen.toNat e = some v) :
    execQrSelect e s =
      { s with res :=
          { s.res with r0 := word v, r1 := word (4 + ccBits v + 8 * s.inLen.toNat),
                       r2 := word (8 * dataCodewords v e) } }.succeed := by
  have ht := totalBits_of_fits (selectVersion_eq_some_iff.mp hv).1
  simp only [execQrSelect, if_neg (Nat.not_lt.mpr hn), hv, ht, Option.getD_some, dataCapacityBits]

/-- Settles O24: the search cannot fail where a version fits, what it finds is minimal, and its three results fit a
word. -/
theorem qrSelectFindsTheSmallestVersion : Obligations.QrSelectFindsTheSmallestVersion := by
  rintro s e ⟨hlegal, -⟩ hn ⟨u, hu1, humax, hufit⟩
  cases hsel : selectVersion s.params.maxVersion s.inLen.toNat e with
  | none =>
    have hnofit := selectVersion_eq_none_iff.mp hsel u hu1 humax
    rw [hufit] at hnofit
    cases hnofit
  | some v =>
    obtain ⟨hfit, ⟨hv1, hvmax⟩, hmin⟩ := selectVersion_eq_some_iff.mp hsel
    simp only [Params.legal, Bool.and_eq_true, decide_eq_true_eq] at hlegal
    have hroom := le_of_fits hfit
    have hcap := dataCapacityBits_le v e
    have hword (x : Nat) (hx : x ≤ 2192) : (word x).toNat = x := Nat.mod_eq_of_lt (by omega)
    exact ⟨_, v, Frame.completes ((frame_refl s).setRes _) (execQrSelect_of_selectVersion hn hsel), hword v (by omega),
      hv1, hvmax, hfit, hmin, hword _ (hroom.trans hcap), hword _ hcap⟩

end Sys2Proof.Machine
end

section
/-! SUPPORT. The tries of the masks (46_qr_matrix.md R328, 47_qr_penalty.md R355): the placement writes data modules alone,
the format write function modules alone, so no try moves a cell from one kind to the other. -/

namespace Sys2Proof.Machine

/-! ## The bytes of modules -/

@[simp] theorem funcCell_getLsbD_one (d : Bool) : (funcCell d).getLsbD 1 = true := by cases d <;> rfl

@[simp] theorem funcCell_getLsbD_zero (d : Bool) : (funcCell d).getLsbD 0 = d := by cases d <;> rfl

@[simp] theorem dataCell_getLsbD_one (d : Bool) : (dataCell d).getLsbD 1 = false := by cases d <;> rfl

/-! ## What a written cell can hold -/

/-- After a writing of cells a byte is as before, or what the last write to its cell gave it. -/
theorem lmByte_writeCells_cases (s : State) (cs : List ((Nat × Nat) × Byte)) (hcs : ∀ c ∈ cs, c.1.1 < 64 ∧ c.1.2 < 64)
    {x y : Nat} (hx : x < 64) :
    (s.writeCells cs).lmByte (cellOffset x y) = s.lmByte (cellOffset x y) ∨
      ∃ b, ((x, y), b) ∈ cs ∧ (s.writeCells cs).lmByte (cellOffset x y) = b := by
  induction cs generalizing s with
  | nil => exact .inl rfl
  | cons c cs ih =>
    obtain ⟨⟨u, v⟩, b⟩ := c
    obtain ⟨hu, hv⟩ := hcs _ List.mem_cons_self
    rw [writeCells_cons]
    rcases ih (s.lmStore (cellOffset u v) [b]) (fun c hc => hcs c (List.mem_cons_of_mem _ hc)) with hkept | ⟨b', hb', hlast⟩
    · rw [hkept, lmByte_lmStore_one _ _ _ (by simp only [cellOffset, gridBase, lmEnd] at *; omega)]
      split
      next heq =>
        obtain ⟨rfl, rfl⟩ := (cellOffset_inj hx hu).mp heq
        exact .inr ⟨b, List.mem_cons_self, rfl⟩
      next => exact .inl rfl
    · exact .inr ⟨b', List.mem_cons_of_mem _ hb', hlast⟩

/-- The placement writes no function module, and makes none (46_qr_matrix.md R312). -/
theorem lmByte_place_cases (s : State) (m : Nat) {n x y : Nat} (hn : n ≤ 64) (hx : x < 64) :
    (s.place m n).lmByte (cellOffset x y) = s.lmByte (cellOffset x y) ∨
      s.func x y = false ∧ ∃ d, (s.place m n).lmByte (cellOffset x y) = dataCell d := by
  have hcell {c : (Nat × Nat) × Bool} (hc : c ∈ maskedCells m s.streamBits (s.dataCells n)) : c.1 ∈ s.dataCells n :=
    map_fst_maskedCells m s.streamBits (s.dataCells n) ▸ List.mem_map_of_mem hc
  rw [place_eq_writeCells]
  refine (lmByte_writeCells_cases s _ (fun c hc => ?_) hx).imp_right ?_
  · obtain ⟨d, hd, rfl⟩ := List.mem_map.mp hc
    obtain ⟨h1, h2⟩ := lt_of_mem_cellOrder (List.mem_filter.mp (hcell hd)).1
    exact ⟨h1.trans_le hn, h2.trans_le hn⟩
  · rintro ⟨b, hb, hlast⟩
    obtain ⟨⟨p, d⟩, hd, heq⟩ := List.mem_map.mp hb
    obtain ⟨rfl, rfl⟩ := Prod.mk.inj heq
    exact ⟨by simpa using (List.mem_filter.mp (hcell hd)).2, d, hlast⟩

/-! ## The format cells -/

theorem exists_mem_formatCells_iff_le (n : Nat) (p : Nat × Nat) :
    (∃ c ∈ formatCells n, c.1 = p) ↔ ∃ i ≤ 14, p = fmt1 i ∨ p = fmt2 i n := by
  rw [exists_mem_formatCells, ← exists_or]
  refine exists_congr fun i => ?_
  rw [← and_or_left, eq_comm (a := p), eq_comm (a := p), ← Nat.lt_succ_iff]

/-- Each bit of the format word has a cell in both copies (46_qr_matrix.md R322, R323). -/
theorem mem_formatCells_of_le (n : Nat) {i : Nat} (hi : i ≤ 14) :
    (fmt1 i, i) ∈ formatCells n ∧ (fmt2 i n, i) ∈ formatCells n := by
  have hbit : i ∈ List.range 15 := List.mem_range.mpr (Nat.lt_succ_of_le hi)
  exact ⟨List.mem_flatMap.mpr ⟨i, hbit, by simp⟩, List.mem_flatMap.mpr ⟨i, hbit, by simp⟩⟩

/-- The format write writes function modules, in format cells alone (46_qr_matrix.md R324). -/
theorem lmByte_writeFormat_cases (s : State) (w : Nat) {n x y : Nat} (hn : n ≤ 64) (hx : x < 64) :
    (s.writeFormat n w).lmByte (cellOffset x y) = s.lmByte (cellOffset x y) ∨
      (∃ c ∈ formatCells n, c.1 = (x, y)) ∧ ∃ d, (s.writeFormat n w).lmByte (cellOffset x y) = funcCell d := by
  rw [writeFormat_eq_writeCells]
  refine (lmByte_writeCells_cases s _ (fun c hc => ?_) hx).imp_right ?_
  · obtain ⟨d, hd, rfl⟩ := List.mem_map.mp hc
    exact lt_of_mem_formatCells hn hd
  · rintro ⟨b, hb, hlast⟩
    obtain ⟨c, hc, heq⟩ := List.mem_map.mp hb
    obtain ⟨hp, rfl⟩ := Prod.mk.inj heq
    exact ⟨⟨c, hc, hp⟩, _, hlast⟩

/-- Every symbol fits the 64 by 64 grid (43_capacity.md R205). -/
theorem gridSize_le {v : Nat} (h10 : v ≤ 10) : gridSize v ≤ 64 := by
  rw [gridSize]
  omega

/-- The two copies of the format bits take 30 different cells (46_qr_matrix.md R322, R323). -/
theorem nodup_formatCells {v : Nat} (h1 : 1 ≤ v) (h10 : v ≤ 10) : ((formatCells (gridSize v)).map Prod.fst).Nodup := by
  interval_cases v <;> decide

/-- A format cell shows its bit of the written word (46_qr_matrix.md R324). -/
theorem dark_writeFormat (s : State) (w : Nat) {v : Nat} (h1 : 1 ≤ v) (h10 : v ≤ 10) {c : (Nat × Nat) × Nat}
    (hc : c ∈ formatCells (gridSize v)) : (s.writeFormat (gridSize v) w).dark c.1.1 c.1.2 = w.testBit c.2 := by
  have hbyte : (s.writeFormat (gridSize v) w).lmByte (cellOffset c.1.1 c.1.2) = funcCell (w.testBit c.2) := by
    rw [writeFormat_eq_writeCells]
    refine lmByte_writeCells_of_mem s _ (fun d hd => ?_) ?_ (c.1, funcCell (w.testBit c.2))
      (List.mem_map.mpr ⟨c, hc, rfl⟩)
    · obtain ⟨f, hf, rfl⟩ := List.mem_map.mp hd
      exact lt_of_mem_formatCells (gridSize_le h10) hf
    · rw [List.map_map]
      exact nodup_formatCells h1 h10
  rw [State.dark, hbyte, funcCell_getLsbD_zero]

/-- The format cells of a symbol of size `n` are function modules. -/
abbrev FormatReserved (n : Nat) (s : State) : Prop := ∀ c ∈ formatCells n, s.func c.1.1 c.1.2 = true

/-- QR_FUNC reserves the format cells as function modules (46_qr_matrix.md R307). -/
theorem formatReserved_drawFunctions (s : State) {v : Nat} (e : Ecc) (h1 : 1 ≤ v) (h10 : v ≤ 10) :
    FormatReserved (gridSize v) (s.drawFunctions v e) := by
  intro c hc
  have hn := le_gridSize h1
  obtain ⟨hx, hy⟩ := lt_of_mem_formatCells (gridSize_le h10) hc
  rw [func_drawFunctions s v e hx hy, functionPlane, func_drawVersion (by omega), func_drawFormatArea]
  exact .inr (.inl (.inr ((exists_mem_formatCells _ _).mp ⟨c, hc, rfl⟩)))

/-! ## The function modules from try to try -/

/-- The same cells are function modules, and those that are no format cells of a symbol of size `n` have the same colour
(46_qr_matrix.md R328). -/
structure SameFunctionCells (n : Nat) (s t : State) : Prop where
  func : ∀ x y, x < 64 → y < 64 → t.func x y = s.func x y
  dark : ∀ x y, x < 64 → y < 64 → s.func x y = true → (¬ ∃ c ∈ formatCells n, c.1 = (x, y)) → t.dark x y = s.dark x y

theorem SameFunctionCells.refl (n : Nat) (s : State) : SameFunctionCells n s s :=
  ⟨fun _ _ _ _ => rfl, fun _ _ _ _ _ _ => rfl⟩

theorem SameFunctionCells.trans {n : Nat} {s t u : State} (h : SameFunctionCells n s t) (h' : SameFunctionCells n t u) :
    SameFunctionCells n s u where
  func x y hx hy := (h'.func x y hx hy).trans (h.func x y hx hy)
  dark x y hx hy hf hc := (h'.dark x y hx hy ((h.func x y hx hy).trans hf) hc).trans (h.dark x y hx hy hf hc)

theorem sameFunctionCells_place (s : State) (m : Nat) {n : Nat} (hn : n ≤ 64) : SameFunctionCells n s (s.place m n) where
  func x y hx hy := by
    rcases lmByte_place_cases s m hn hx with hkept | ⟨hdata, d, hd⟩
    · rw [State.func, hkept, State.func]
    · rw [hdata, State.func, hd, dataCell_getLsbD_one]
  dark x y hx hy hf _ := by
    rcases lmByte_place_cases s m hn hx with hkept | ⟨hdata, -⟩
    · rw [State.dark, hkept, State.dark]
    · rw [hf] at hdata
      cases hdata

/-- The format write keeps the function modules where the format cells are reserved. -/
theorem sameFunctionCells_writeFormat {s : State} (w : Nat) {n : Nat} (hn : n ≤ 64)
    (hs : FormatReserved n s) : SameFunctionCells n s (s.writeFormat n w) where
  func x y hx hy := by
    rcases lmByte_writeFormat_cases s w hn hx with hkept | ⟨⟨c, hc, heq⟩, d, hd⟩
    · rw [State.func, hkept, State.func]
    · have hf := hs c hc
      rw [heq] at hf
      rw [hf, State.func, hd, funcCell_getLsbD_one]
  dark x y hx hy _ hc := by
    rcases lmByte_writeFormat_cases s w hn hx with hkept | ⟨hmem, -⟩
    · rw [State.dark, hkept, State.dark]
    · exact absurd hmem hc

theorem SameFunctionCells.reserved {n : Nat} {s t : State} (h : SameFunctionCells n s t) (hn : n ≤ 64)
    (hs : FormatReserved n s) : FormatReserved n t :=
  fun c hc => (h.func _ _ (lt_of_mem_formatCells hn hc).1 (lt_of_mem_formatCells hn hc).2).trans (hs c hc)

theorem sameFunctionCells_candidate {s : State} (e : Ecc) (m : Nat) {n : Nat} (hn : n ≤ 64)
    (hs : FormatReserved n s) : SameFunctionCells n s (s.candidate e n m) :=
  have hplace := sameFunctionCells_place s m hn
  hplace.trans (sameFunctionCells_writeFormat _ hn (hplace.reserved hn hs))

/-- The tries are one candidate after the other. -/
theorem tryMasks_fst_eq_foldl (s : State) (e : Ecc) (n : Nat) (masks : List Nat) :
    (s.tryMasks e n masks).1 = masks.foldl (fun t m => t.candidate e n m) s := by
  induction masks generalizing s with
  | nil => rfl
  | cons m masks ih => rw [State.tryMasks, List.foldl_cons, ih]

theorem sameFunctionCells_tryMasks {s : State} (e : Ecc) (masks : List Nat) {n : Nat} (hn : n ≤ 64)
    (hs : FormatReserved n s) : SameFunctionCells n s (s.tryMasks e n masks).1 := by
  rw [tryMasks_fst_eq_foldl]
  induction masks generalizing s with
  | nil => exact .refl n s
  | cons m masks ih =>
    have htry := sameFunctionCells_candidate e m hn hs
    exact htry.trans (ih (htry.reserved hn hs))

/-- What the tries leave is the symbol of the last mask, placed on what the tries before it left. -/
theorem exists_tryMasks_eq_candidate (s : State) (e : Ecc) (n : Nat) {masks : List Nat} {m : Nat}
    (hm : masks.getLast? = some m) : ∃ u : State, (s.tryMasks e n masks).1 = u.candidate e n m := by
  obtain ⟨before, rfl⟩ := List.getLast?_eq_some_iff.mp hm
  exact ⟨_, by rw [tryMasks_fst_eq_foldl, List.foldl_concat]⟩

/-- The format data stand in the word, so different masks give different words (46_qr_matrix.md R318, R319). -/
theorem fmtWord_inj (e : Ecc) : ∀ m < 8, ∀ m' < 8, fmtWord e m = fmtWord e m' → m = m' := by
  cases e <;> decide

/-- Settles O32: each try keeps the function modules, since the format cells are reserved from the start; the last format
write gives the format cells their colours. -/
theorem functionCellsAreInvariantUnderMasking : Obligations.FunctionCellsAreInvariantUnderMasking := by
  rintro s d t v n e masks h1 h10 (rfl : n = gridSize v) rfl rfl
  have hsame := sameFunctionCells_tryMasks e masks (gridSize_le h10) (formatReserved_drawFunctions s e h1 h10)
  refine ⟨fun x y hx hy => ⟨hsame.func x y hx hy, fun hf hno => hsame.dark x y hx hy hf ?_⟩, fun m hm i hi => ?_,
    fun m m' hm hm' hne heq => hne (fmtWord_inj e m hm m' hm' heq)⟩
  · rw [exists_mem_formatCells_iff_le]
    rintro ⟨i, hi, hfmt1 | hfmt2⟩
    · exact (hno i hi).1 hfmt1
    · exact (hno i hi).2 hfmt2
  · obtain ⟨u, hu⟩ := exists_tryMasks_eq_candidate (s.drawFunctions v e) e (gridSize v) hm
    obtain ⟨hfmt1, hfmt2⟩ := mem_formatCells_of_le (gridSize v) hi
    rw [hu, State.candidate]
    exact ⟨dark_writeFormat (c := (fmt1 i, i)) _ _ h1 h10 hfmt1,
      dark_writeFormat (c := (fmt2 i (gridSize v), i)) _ _ h1 h10 hfmt2⟩

end Sys2Proof.Machine
end

section
/-! SUPPORT. QR_ENCODE (47_qr_penalty.md R358): its three outcomes, the payloads it takes, and the mask it chooses. -/

namespace Sys2Proof.Machine

/-! ## The outcomes of QR_ENCODE -/

/-- Only the versions of the capacity tables have a capacity, so no other version fits (43_capacity.md R200). -/
theorem tableVersion_of_fits {n v : Nat} {e : Ecc} (h : fits n v e = true) : tableVersion v = true := by
  have hroom := le_of_fits h
  simp only [dataCapacityBits, dataCodewords] at hroom
  split at hroom
  case h_11 => cases e <;> simp only [perLevel] at hroom <;> omega
  all_goals rfl

/-- All that QR_ENCODE can do: the two errors, or the symbol of the version selected (47_qr_penalty.md R358). -/
theorem exec_qrEncode_cases (s : State) (e : Ecc) :
    (inCapacity < s.inLen.toNat ∧ exec (.qrEncode e) s = s.raise .range) ∨
    (s.inLen.toNat ≤ inCapacity ∧ selectVersion s.params.maxVersion s.inLen.toNat e = none ∧
      exec (.qrEncode e) s = s.raise .payloadTooLarge) ∨
    ∃ v, s.inLen.toNat ≤ inCapacity ∧ selectVersion s.params.maxVersion s.inLen.toNat e = some v ∧
      exec (.qrEncode e) s = .next { s.encodeVersion v e with status := s.status.completed } := by
  change _ ∧ execQrEncode e s = _ ∨ _ ∧ _ ∧ execQrEncode e s = _ ∨ ∃ v, _ ∧ _ ∧ execQrEncode e s = _
  by_cases hn : inCapacity < s.inLen.toNat
  · exact .inl ⟨hn, if_pos hn⟩
  rw [execQrEncode, if_neg hn]
  cases hsel : selectVersion s.params.maxVersion s.inLen.toNat e with
  | none => exact .inr (.inl ⟨Nat.le_of_not_lt hn, rfl, rfl⟩)
  | some v =>
    have hfit := (selectVersion_eq_some_iff.mp hsel).1
    have hstatus := (frame_encodeVersion s e (tableVersion_of_fits hfit) hfit).status
    exact .inr (.inr ⟨v, Nat.le_of_not_lt hn, rfl, by rw [← hstatus]; rfl⟩)

/-- Where QR_ENCODE ends without error, it leaves the symbol of the version selected. -/
theorem eq_encodeVersion_of_exec_qrEncode {s t : State} {e : Ecc} (hx : exec (.qrEncode e) s = .next t)
    (herr : t.status.err = false) :
    ∃ v, s.inLen.toNat ≤ inCapacity ∧ selectVersion s.params.maxVersion s.inLen.toNat e = some v ∧
      t = { s.encodeVersion v e with status := s.status.completed } := by
  rcases exec_qrEncode_cases s e with ⟨-, hr⟩ | ⟨-, -, hr⟩ | ⟨v, hn, hsel, hr⟩
  · obtain rfl := raise_eq_next.mp (hr ▸ hx)
    cases herr
  · obtain rfl := raise_eq_next.mp (hr ▸ hx)
    cases herr
  · exact ⟨v, hn, hsel, (Host.Outcome.next.inj (hr ▸ hx)).symm⟩

/-! ## The largest payload -/

/-- Version 10 has three bytes more than its largest payload: 20 bits before the data, and 4 left over. -/
theorem dataCodewords_ten (e : Ecc) : dataCodewords 10 e = perLevel 271 213 151 119 e + 3 := by cases e <;> rfl

/-- No version below 10 has room for a larger payload. -/
theorem dataCodewords_le_of_lt_ten {v : Nat} (hv : v < 10) (e : Ecc) :
    dataCodewords v e ≤ perLevel 271 213 151 119 e := by
  interval_cases v <;> cases e <;> decide

/-- Some version of the tables takes a payload exactly where version 10 has room for it (43_capacity.md R201). -/
theorem exists_fits_iff (n : Nat) (e : Ecc) :
    (∃ v, 1 ≤ v ∧ v ≤ 10 ∧ fits n v e = true) ↔ n ≤ perLevel 271 213 151 119 e := by
  have hten : dataCapacityBits 10 e = 8 * perLevel 271 213 151 119 e + 24 := by rw [dataCapacityBits, dataCodewords_ten]; rfl
  constructor
  · rintro ⟨v, -, h10, hfit⟩
    have hroom := le_of_fits hfit
    obtain rfl | hlt := Nat.eq_or_lt_of_le h10
    · have hcc : ccBits 10 = 16 := rfl
      omega
    · have hcap := dataCodewords_le_of_lt_ten hlt e
      rw [dataCapacityBits] at hroom
      omega
  · intro hn
    have hcount : ¬ 2 ^ ccBits 10 - 1 < n := by
      have hmax : perLevel 271 213 151 119 e ≤ 2 ^ ccBits 10 - 1 := by cases e <;> decide
      omega
    have htotal : totalBits n 10 = some (4 + 16 + 8 * n) := if_neg hcount
    refine ⟨10, by decide, le_rfl, ?_⟩
    simp only [fits, htotal, hten, decide_eq_true_eq]
    omega

/-- The search up to version 10 fails exactly above the largest payload of the level. -/
theorem selectVersion_ten_eq_none_iff (n : Nat) (e : Ecc) :
    selectVersion 10 n e = none ↔ perLevel 271 213 151 119 e < n := by
  rw [selectVersion_eq_none_iff, ← not_le, ← exists_fits_iff]
  push Not
  simp only [Bool.not_eq_true]

/-- Settles O25: the search for a version decides between the error and the symbol, and it fails exactly where version 10
has no room. -/
theorem qrEncodeCapacityBoundary : Obligations.QrEncodeCapacityBoundary := by
  intro s e hmax hn
  rw [← Nat.not_lt, ← selectVersion_ten_eq_none_iff]
  have hcases := exec_qrEncode_cases s e
  rw [hmax] at hcases
  rcases hcases with ⟨hlong, -⟩ | ⟨-, hsel, hr⟩ | ⟨v, -, hsel, hr⟩
  · exact absurd hn (Nat.not_le.mpr hlong)
  · exact ⟨iff_of_true hr hsel, fun hsome => absurd hsel hsome⟩
  · refine ⟨iff_of_false ?_ (by simp [hsel]), fun _ => ⟨_, hr, rfl⟩⟩
    rw [hr]
    intro h
    have herr := congrArg (·.status.err) (raise_eq_next.mp h.symm)
    cases herr

/-! ## The mask chosen -/

/-- The first index at which `f` is least, among the indices below `k` (47_qr_penalty.md R357). -/
def firstMin (f : Nat → Nat) (k : Nat) : Nat :=
  (List.range k).foldl (fun best m => if f m < f best then m else best) 0

theorem firstMin_succ (f : Nat → Nat) (k : Nat) :
    firstMin f (k + 1) = if f k < f (firstMin f k) then k else firstMin f k := by
  rw [firstMin, List.range_succ, List.foldl_concat, firstMin]

/-- The search keeps the first of the least values seen. -/
theorem firstMin_spec (f : Nat → Nat) (k : Nat) :
    firstMin f (k + 1) ≤ k ∧ (∀ m ≤ k, f (firstMin f (k + 1)) ≤ f m) ∧
      ∀ m < firstMin f (k + 1), f (firstMin f (k + 1)) < f m := by
  induction k with
  | zero => simp [firstMin]
  | succ k ih =>
    obtain ⟨hle, hmin, hfirst⟩ := ih
    rw [firstMin_succ f (k + 1)]
    split
    next hlt =>
      have hnew (m : Nat) (hm : m ≤ k) : f (k + 1) < f m := hlt.trans_le (hmin m hm)
      refine ⟨le_rfl, fun m hm => ?_, fun m hm => hnew m (Nat.le_of_lt_succ hm)⟩
      obtain rfl | hm := Nat.eq_or_lt_of_le hm
      · exact le_rfl
      · exact (hnew m (Nat.le_of_lt_succ hm)).le
    next hge =>
      refine ⟨hle.trans (Nat.le_succ k), fun m hm => ?_, hfirst⟩
      obtain rfl | hm := Nat.eq_or_lt_of_le hm
      · exact Nat.le_of_not_lt hge
      · exact hmin m (Nat.le_of_lt_succ hm)

theorem chooseMask_eq_firstMin (p : PenRegs) : chooseMask p = firstMin (fun m => (p.get m).toNat) 8 := rfl

theorem chooseMask_lt (p : PenRegs) : chooseMask p < 8 := by
  rw [chooseMask_eq_firstMin]
  exact Nat.lt_succ_of_le (firstMin_spec _ 7).1

/-- A mask fits its field of QR_INFO (10_state.md R43). -/
theorem toNat_placed_mask (q : QrInfo) {m : Nat} (hm : m < 8) : (q.placed m).mask.toNat = m := Nat.mod_eq_of_lt hm

/-- Settles O37: QR_INFO shows the mask chosen, which is the first with the least penalty. -/
theorem qrEncodeChoosesTheLeastPenalty : Obligations.QrEncodeChoosesTheLeastPenalty := by
  intro s t e hx herr m hm
  obtain ⟨v, -, -, rfl⟩ := eq_encodeVersion_of_exec_qrEncode hx herr
  have hmask : (s.encodeVersion v e).qrInfo.mask.toNat = chooseMask (s.encodeVersion v e).pen :=
    toNat_placed_mask _ (chooseMask_lt _)
  obtain ⟨-, hmin, hfirst⟩ := firstMin_spec (fun m => ((s.encodeVersion v e).pen.get m).toNat) 7
  rw [hmask, chooseMask_eq_firstMin]
  exact ⟨hmin m (Nat.le_of_lt_succ hm), hfirst m⟩

end Sys2Proof.Machine
end

section
/-! SUPPORT. QR_ENCODE and the single commands (47_qr_penalty.md R362): STATUS, QR_INFO and the RES registers are outputs that
no step of the encoding reads from the state, so the single commands do to the rest of it what QR_ENCODE does. -/

namespace Sys2Proof.Machine

/-! ## The outputs of a command -/

/-- The state with other values in STATUS, QR_INFO and the RES registers. -/
def State.withOutputs (s : State) (st : Status) (q : QrInfo) (r : ResRegs) : State :=
  { s with status := st, qrInfo := q, res := r }

section Operations

variable (s : State) (st : Status) (q : QrInfo) (r : ResRegs)

theorem appendBits_withOutputs (bs : List Bool) :
    (s.withOutputs st q r).appendBits bs = (s.appendBits bs).withOutputs st q r := by
  induction bs generalizing s with
  | nil => rfl
  | cons b bs ih => exact ih (s.appendBit b)

theorem assemble_withOutputs (v : Nat) (e : Ecc) :
    (s.withOutputs st q r).assemble v e = ((s.assemble v e).1.withOutputs st q r, (s.assemble v e).2) := by
  have hclear : (s.withOutputs st q r).clearBits = s.clearBits.withOutputs st q r := rfl
  have hdata : (s.withOutputs st q r).inBytes = s.inBytes := rfl
  have hlen (t : State) : (t.withOutputs st q r).baLen = t.baLen := rfl
  simp only [State.assemble, foldl_append_bytes]
  simp only [State.append, hclear, hdata, hlen, appendBits_withOutputs]

theorem interleaveToCw_withOutputs (v : Nat) (e : Ecc) :
    (s.withOutputs st q r).interleaveToCw v e =
      ((s.interleaveToCw v e).1.withOutputs st q r, (s.interleaveToCw v e).2) := rfl

theorem drawFunctions_withOutputs (v : Nat) (e : Ecc) :
    (s.withOutputs st q r).drawFunctions v e =
      (s.drawFunctions v e).withOutputs st (QrInfo.drawn v (gridSize v) e) r := rfl

theorem writeCells_withOutputs (cs : List ((Nat × Nat) × Byte)) :
    (s.withOutputs st q r).writeCells cs = (s.writeCells cs).withOutputs st q r := by
  induction cs generalizing s with
  | nil => rfl
  | cons c cs ih => exact ih (s.lmStore (cellOffset c.1.1 c.1.2) [c.2])

theorem place_withOutputs (m n : Nat) : (s.withOutputs st q r).place m n = (s.place m n).withOutputs st q r := by
  rw [place_eq_writeCells, place_eq_writeCells, ← writeCells_withOutputs]
  rfl

theorem writeFormat_withOutputs (n w : Nat) :
    (s.withOutputs st q r).writeFormat n w = (s.writeFormat n w).withOutputs st q r := by
  rw [writeFormat_eq_writeCells, writeFormat_eq_writeCells, writeCells_withOutputs]

/-- A command completes with new values in QR_INFO and the RES registers. -/
theorem succeed_withOutputs (q' : QrInfo) (r' : ResRegs) :
    State.succeed { s.withOutputs st q r with qrInfo := q', res := r' } = .next (s.withOutputs st.completed q' r') := rfl

end Operations

/-! ## The single commands -/

section Commands

variable {s : State} {st : Status} {q : QrInfo} {r : ResRegs} {v : Nat} {e : Ecc}

/-- QR_ASSEMBLE of a payload that fits (45_qr_codewords.md R265). -/
theorem exec_qrAssemble_withOutputs (hn : s.inLen.toNat ≤ inCapacity) (hfit : fits s.inLen.toNat v e = true) :
    ∃ r', exec (.qrAssemble v e) (s.withOutputs st q r) = .next ((s.assemble v e).1.withOutputs st.completed q r') := by
  have hrange : ¬ (tableVersion v = false ∨ inCapacity < s.inLen.toNat) := by
    rw [tableVersion_of_fits hfit]
    simpa using hn
  have hlen : (s.withOutputs st q r).inLen = s.inLen := rfl
  change ∃ r', execQrAssemble v e _ = _
  simp only [execQrAssemble, hlen, if_neg hrange, totalBits_of_fits hfit, if_neg (Nat.not_lt.mpr (le_of_fits hfit)),
    assemble_withOutputs]
  exact ⟨_, succeed_withOutputs _ _ q r q _⟩

/-- QR_INTERLEAVE (45_qr_codewords.md R268). -/
theorem exec_qrInterleave_withOutputs (hv : tableVersion v = true) :
    ∃ r', exec (.qrInterleave v e) (s.withOutputs st q r) =
      .next ((s.interleaveToCw v e).1.withOutputs st.completed q r') :=
  ⟨_, if_neg (by simp [hv])⟩

/-- QR_FUNC (46_qr_matrix.md R309). -/
theorem exec_qrFunc_withOutputs (hv : tableVersion v = true) :
    ∃ r', exec (.qrFunc v e) (s.withOutputs st q r) =
      .next ((s.drawFunctions v e).withOutputs st.completed (QrInfo.drawn v (gridSize v) e) r') :=
  ⟨_, if_neg (by simp [hv])⟩

theorem drawn_withOutputs (hf : q.funcValid = true) : ¬ (s.withOutputs st q r).qrInfo.funcValid = false := by
  simpa [State.withOutputs] using hf

/-- QR_PLACE once function patterns are drawn (46_qr_matrix.md R314). -/
theorem exec_qrPlace_withOutputs (hf : q.funcValid = true) (m : Nat) :
    ∃ r', exec (.qrPlace m) (s.withOutputs st q r) =
      .next ((s.place m q.size.toNat).withOutputs st.completed (q.placed m) r') := by
  have hinfo : (s.withOutputs st q r).qrInfo = q := rfl
  change ∃ r', execQrPlace m _ = _
  rw [execQrPlace, if_neg (drawn_withOutputs hf), hinfo]
  simp only [place_withOutputs]
  exact ⟨_, succeed_withOutputs _ _ q r _ _⟩

/-- QR_FORMAT once function patterns are drawn (46_qr_matrix.md R324). -/
theorem exec_qrFormat_withOutputs (hf : q.funcValid = true) (m : Nat) :
    ∃ r', exec (.qrFormat m) (s.withOutputs st q r) =
      .next ((s.writeFormat q.size.toNat (fmtWord q.ecc m)).withOutputs st.completed q r') := by
  have hinfo : (s.withOutputs st q r).qrInfo = q := rfl
  change ∃ r', execQrFormat m _ = _
  rw [execQrFormat, if_neg (drawn_withOutputs hf), hinfo]
  simp only [writeFormat_withOutputs]
  exact ⟨_, succeed_withOutputs _ _ q r q _⟩

/-- QR_PENALTY once function patterns are drawn: RES4 is the total (47_qr_penalty.md R356). -/
theorem exec_qrPenalty_withOutputs (hf : q.funcValid = true) :
    ∃ r', exec .qrPenalty (s.withOutputs st q r) = .next (s.withOutputs st.completed q r') ∧
      r'.r4 = word (s.penalties q.size.toNat).total :=
  ⟨_, if_neg (drawn_withOutputs hf), rfl⟩

/-! ## Sequences of commands -/

/-- A sequence of commands runs its first command, then the rest. -/
theorem runCommands_cons {i : Instr} {t : State} (h : exec i s = .next t) (is : List Instr) :
    runCommands (i :: is) s = runCommands is t := by
  rw [runCommands, h]

/-- The steps of QR_ENCODE before the masks (47_qr_penalty.md R358, steps 2 to 6). -/
def State.drawCodewords (s : State) (v : Nat) (e : Ecc) : State :=
  ((s.assemble v e).1.interleaveToCw v e).1.drawFunctions v e

/-- Steps 2 to 6 of QR_ENCODE as single commands. -/
theorem runCommands_drawCodewords (hn : s.inLen.toNat ≤ inCapacity) (hfit : fits s.inLen.toNat v e = true) :
    ∃ r', runCommands [.qrAssemble v e, .qrInterleave v e, .qrFunc v e] (s.withOutputs st q r) =
      some ((s.drawCodewords v e).withOutputs st.completed (QrInfo.drawn v (gridSize v) e) r') := by
  have hv := tableVersion_of_fits hfit
  obtain ⟨ra, ha⟩ := exec_qrAssemble_withOutputs (st := st) (q := q) (r := r) hn hfit
  obtain ⟨rb, hb⟩ := exec_qrInterleave_withOutputs (s := (s.assemble v e).1) (st := st.completed) (q := q) (r := ra)
    (e := e) hv
  obtain ⟨rc, hc⟩ := exec_qrFunc_withOutputs (s := ((s.assemble v e).1.interleaveToCw v e).1)
    (st := st.completed.completed) (q := q) (r := rb) (e := e) hv
  exact ⟨rc, by rw [runCommands_cons ha, runCommands_cons hb, runCommands_cons hc]; rfl⟩

/-- The function patterns that QR_INFO shows are those of version `v` and level `e`, whatever mask was placed last. -/
def QrInfo.ShowsDrawing (q : QrInfo) (v : Nat) (e : Ecc) : Prop :=
  ∀ m, q.placed m = (QrInfo.drawn v (gridSize v) e).placed m

theorem showsDrawing_drawn (v : Nat) (e : Ecc) : (QrInfo.drawn v (gridSize v) e).ShowsDrawing v e := fun _ => rfl

theorem QrInfo.ShowsDrawing.placed (hq : q.ShowsDrawing v e) (m : Nat) : (q.placed m).ShowsDrawing v e :=
  fun m' => hq m'

theorem QrInfo.ShowsDrawing.funcValid (hq : q.ShowsDrawing v e) : q.funcValid = true :=
  congrArg QrInfo.funcValid (hq 0)

theorem QrInfo.ShowsDrawing.ecc (hq : q.ShowsDrawing v e) : q.ecc = e := congrArg QrInfo.ecc (hq 0)

/-- The size of a symbol fits its field (10_state.md R43). -/
theorem QrInfo.ShowsDrawing.size (hq : q.ShowsDrawing v e) (hv : tableVersion v = true) : q.size.toNat = gridSize v := by
  have hsize : q.size = BitVec.ofNat 6 (gridSize v) := congrArg QrInfo.size (hq 0)
  simp only [tableVersion, Bool.and_eq_true, decide_eq_true_eq] at hv
  rw [hsize, BitVec.toNat_ofNat, Nat.mod_eq_of_lt (by rw [gridSize]; omega)]

section Trials

variable (hv : tableVersion v = true)

include hv

/-- The symbol of a mask as single commands (47_qr_penalty.md R355). -/
theorem runCommands_candidate (hq : q.ShowsDrawing v e) (m : Nat) (is : List Instr) :
    ∃ r', runCommands (.qrPlace m :: .qrFormat m :: is) (s.withOutputs st q r) =
      runCommands is ((s.candidate e (gridSize v) m).withOutputs st.completed (q.placed m) r') := by
  obtain ⟨ra, ha⟩ := exec_qrPlace_withOutputs (s := s) (st := st) (r := r) hq.funcValid m
  obtain ⟨rb, hb⟩ := exec_qrFormat_withOutputs (s := s.place m q.size.toNat) (st := st.completed) (r := ra)
    (hq.placed m).funcValid m
  refine ⟨rb, ?_⟩
  rw [runCommands_cons ha, runCommands_cons hb, (hq.placed m).size hv, (hq.placed m).ecc, hq.size hv]
  rfl

/-- One trial as single commands: RES4 is the total penalty of the mask's symbol. -/
theorem runCommands_trial (hq : q.ShowsDrawing v e) (m : Nat) :
    ∃ r', runCommands [.qrPlace m, .qrFormat m, .qrPenalty] (s.withOutputs st q r) =
        some ((s.candidate e (gridSize v) m).withOutputs st.completed (q.placed m) r') ∧
      r'.r4 = word ((s.candidate e (gridSize v) m).penalties (gridSize v)).total := by
  obtain ⟨ra, ha⟩ := runCommands_candidate (s := s) (st := st) (r := r) hv hq m [.qrPenalty]
  obtain ⟨rb, hb, hscore⟩ := exec_qrPenalty_withOutputs (s := s.candidate e (gridSize v) m) (st := st.completed)
    (r := ra) (hq.placed m).funcValid
  rw [(hq.placed m).size hv] at hscore
  exact ⟨rb, by rw [ha, runCommands_cons hb]; rfl, hscore⟩

/-- The trials as single commands (47_qr_penalty.md R358, steps 7 and 8). -/
theorem runTrials_withOutputs (hq : q.ShowsDrawing v e) (masks : List Nat) :
    ∃ q' r', q'.ShowsDrawing v e ∧ runTrials masks (s.withOutputs st.completed q r) =
      some ((s.tryMasks e (gridSize v) masks).1.withOutputs st.completed q' r', (s.tryMasks e (gridSize v) masks).2) := by
  induction masks generalizing s q r with
  | nil => exact ⟨q, r, hq, rfl⟩
  | cons m masks ih =>
    obtain ⟨ra, htrial, hscore⟩ := runCommands_trial (s := s) (st := st.completed) (r := r) hv hq m
    obtain ⟨q', rb, hq', hrest⟩ := ih (s := s.candidate e (gridSize v) m) (r := ra) (hq.placed m)
    refine ⟨q', rb, hq', ?_⟩
    have hnext : runTrials masks ((s.candidate e (gridSize v) m).withOutputs st.completed.completed (q.placed m) ra) = _ :=
      hrest
    simp only [runTrials, htrial, hnext, Option.bind_eq_bind, Option.bind_some, State.tryMasks, ← hscore]
    rfl

end Trials
end Commands

/-- Settles O39: the single commands do the steps of QR_ENCODE one after the other and leave the same state but for their
outputs; the last QR_PLACE sets QR_INFO as QR_ENCODE does. -/
theorem qrEncodeMatchesTheSingleCommands : Obligations.QrEncodeMatchesTheSingleCommands := by
  intro s t e _ hx herr
  obtain ⟨v, hn, hsel, rfl⟩ := eq_encodeVersion_of_exec_qrEncode hx herr
  have hfit := (selectVersion_eq_some_iff.mp hsel).1
  have hv := tableVersion_of_fits hfit
  have hword : (word v).toNat = v := by
    simp only [tableVersion, Bool.and_eq_true, decide_eq_true_eq] at hv
    exact Nat.mod_eq_of_lt (by omega)
  obtain ⟨rb, hdraw⟩ := runCommands_drawCodewords (st := s.status.completed) (q := s.qrInfo)
    (r := { s.res with r0 := word v, r1 := word (4 + ccBits v + 8 * s.inLen.toNat), r2 := word (8 * dataCodewords v e) })
    hn hfit
  obtain ⟨q, rc, hq, htrials⟩ := runTrials_withOutputs (s := s.drawCodewords v e) (st := s.status) (r := rb) hv
    (showsDrawing_drawn v e) (List.range 8)
  obtain ⟨ru, hlast⟩ := runCommands_candidate (s := ((s.drawCodewords v e).tryMasks e (gridSize v) (List.range 8)).1)
    (st := s.status.completed) (r := rc) hv hq
    (chooseMask (.ofList ((s.drawCodewords v e).tryMasks e (gridSize v) (List.range 8)).2)) []
  refine ⟨_, _, _, _, v, _, _, execQrSelect_of_selectVersion hn hsel, hword, hdraw, htrials, rfl, hlast, ?_⟩
  rw [hq]
  rfl

end Sys2Proof.Machine
end

section
/-! SUPPORT. What QR_ENCODE reads (47_qr_penalty.md R360): the steps read the input bytes, then only what the steps before
them wrote, so two states that agree on the input take the same symbol through every step. -/

namespace Sys2Proof.Machine

/-! ## The same bytes stored to two states -/

/-- After the same store to two states a byte is the same in both where the store wrote it, or where it was. -/
theorem lmByte_lmStore_congr {s t : State} (a : Nat) (bs : List Byte) {x : Nat}
    (h : ¬ (a ≤ x ∧ x < a + bs.length) → s.lmByte x = t.lmByte x) :
    (s.lmStore a bs).lmByte x = (t.lmStore a bs).lmByte x := by
  by_cases hx : a ≤ x ∧ x < a + bs.length
  · by_cases hlm : x < lmEnd
    · have hin : a ≤ x ∧ x < a + (bs.take (lmEnd - a)).length := by
        rw [List.length_take]
        omega
      have hlt : x - a < (bs.take (lmEnd - a)).length := by omega
      simp only [State.lmByte, State.lmStore, Memory.get?_store, if_pos hin, List.getElem?_eq_getElem hlt, Option.getD_some]
    · rw [lmByte_reserved _ (Nat.le_of_not_lt hlm), lmByte_reserved _ (Nat.le_of_not_lt hlm)]
  · rw [lmByte_lmStore_of_not_mem _ _ _ _ hx, lmByte_lmStore_of_not_mem _ _ _ _ hx, h hx]

theorem lmBytes_congr {s t : State} {a n : Nat} (h : ∀ k < n, s.lmByte (a + k) = t.lmByte (a + k)) :
    s.lmBytes a n = t.lmBytes a n :=
  List.map_congr_left fun k hk => h k (List.mem_range.mp hk)

/-! ## The same accumulator -/

/-- Two states hold the same bits in the accumulator (41_bit_accumulator.md R150). -/
structure SameBits (s t : State) : Prop where
  bits  : ∀ a, Region.bits.holds a = true → s.lmByte a = t.lmByte a
  baLen : s.baLen = t.baLen

theorem sameBits_clearBits (s t : State) : SameBits s.clearBits t.clearBits where
  bits a ha := lmByte_lmStore_congr bitsBase (List.replicate 512 0) fun hout => by
    rw [List.length_replicate] at hout
    exact absurd ((Region.holds_iff _ a).mp ha) hout
  baLen := rfl

section Accumulator

variable {s t : State} (h : SameBits s t)

include h

theorem SameBits.appendBit (b : Bool) : SameBits (s.appendBit b) (t.appendBit b) where
  bits a ha := by
    change (s.lmStore (bitsBase + s.baLen.toNat / 8)
        [setStreamBit (s.lmByte (bitsBase + s.baLen.toNat / 8)) (s.baLen.toNat % 8) b]).lmByte a =
      (t.lmStore (bitsBase + t.baLen.toNat / 8)
        [setStreamBit (t.lmByte (bitsBase + t.baLen.toNat / 8)) (t.baLen.toNat % 8) b]).lmByte a
    have hk : bitsBase + s.baLen.toNat / 8 < lmEnd := by
      have := s.baLen.isLt
      simp only [bitsBase, lmEnd]
      omega
    rw [← h.baLen, lmByte_lmStore_one _ _ _ hk, lmByte_lmStore_one _ _ _ hk]
    split
    next heq => rw [← heq, h.bits a ha]
    next => exact h.bits a ha
  baLen := by rw [appendBit_baLen, appendBit_baLen, h.baLen]

theorem SameBits.appendBits (bs : List Bool) : SameBits (s.appendBits bs) (t.appendBits bs) := by
  induction bs generalizing s t with
  | nil => exact h
  | cons b bs ih => exact ih (h.appendBit b)

theorem SameBits.append (v : Nat) {n n' : Nat} (hn : n = n') : SameBits (s.append v n) (t.append v n') :=
  hn ▸ h.appendBits _

/-- The data codewords are the same (45_qr_codewords.md R264). -/
theorem SameBits.bitsBytes {n : Nat} (hn : n ≤ 512) : s.bitsBytes n = t.bitsBytes n :=
  lmBytes_congr fun k hk => h.bits _ ((Region.holds_iff _ _).mpr ⟨Nat.le_add_right _ _, by
    simp only [Region.base, Region.size]
    omega⟩)

end Accumulator

/-- The assembly reads the input bytes and what it wrote itself (45_qr_codewords.md R263). -/
theorem sameBits_assemble {s t : State} (hin : s.inBytes = t.inBytes) (v : Nat) (e : Ecc) :
    SameBits (s.assemble v e).1 (t.assemble v e).1 := by
  simp only [State.assemble, foldl_append_bytes, hin]
  have hseg := (sameBits_clearBits s t).appendBits (segmentBits v t.inBytes)
  have hterm := hseg.append 0 (congrArg (fun k => min 4 (dataCapacityBits v e - k.toNat)) hseg.baLen)
  have hbyte := hterm.append 0 (congrArg (fun k => padLength k.toNat) hterm.baLen)
  rw [hbyte.baLen]
  exact hbyte.appendBits _

/-! ## The same symbol -/

theorem dataCodewords_le (v : Nat) (e : Ecc) : dataCodewords v e ≤ 274 := by
  have := dataCapacityBits_le v e
  simp only [dataCapacityBits] at this
  omega

/-- The same codewords give the same symbol before the masks, the function patterns (45_qr_codewords.md R268,
46_qr_matrix.md R309). -/
theorem SameBits.sameSymbol {s t : State} (h : SameBits s t) (v : Nat) (e : Ecc) :
    SameSymbol ((s.interleaveToCw v e).1.drawFunctions v e) ((t.interleaveToCw v e).1.drawFunctions v e) := by
  have hdata := h.bitsBytes ((dataCodewords_le v e).trans (by decide))
  simp only [State.interleaveToCw, hdata]
  generalize interleave v e (t.bitsBytes (dataCodewords v e)) = stream
  have hbyte (x : Nat) (hx : ¬ (cwBase ≤ x ∧ x < cwBase + stream.length) →
      ¬ (gridBase ≤ x ∧ x < gridBase + (functionPlane v).gridBytes.length) → s.lmByte x = t.lmByte x) :
      ((s.lmStore cwBase stream).lmStore gridBase (functionPlane v).gridBytes).lmByte x =
        ((t.lmStore cwBase stream).lmStore gridBase (functionPlane v).gridBytes).lmByte x :=
    lmByte_lmStore_congr _ _ fun hgrid => lmByte_lmStore_congr _ _ fun hcw => hx hcw hgrid
  exact
    { bits := fun a ha => hbyte a fun _ _ => h.bits a ha
      baLen := h.baLen
      cw := fun k hk => hbyte _ fun hcw _ => absurd ⟨Nat.le_add_right _ _,
        Nat.add_lt_add_left (hk.trans_le ((BitVec.toNat_ofNat _ _).trans_le (Nat.mod_le _ _))) _⟩ hcw
      cwLen := rfl
      grid := fun a ha => hbyte a fun _ hgrid => by
        rw [length_gridBytes] at hgrid
        exact absurd ((Region.holds_iff _ a).mp ha) hgrid
      qrInfo := rfl }

section Symbol

variable {s t : State} (h : SameSymbol s t)

include h

theorem SameSymbol.lmStore (a : Nat) (bs : List Byte) : SameSymbol (s.lmStore a bs) (t.lmStore a bs) where
  bits x hx := lmByte_lmStore_congr a bs fun _ => h.bits x hx
  baLen := h.baLen
  cw k hk := lmByte_lmStore_congr a bs fun _ => h.cw k hk
  cwLen := h.cwLen
  grid x hx := lmByte_lmStore_congr a bs fun _ => h.grid x hx
  qrInfo := h.qrInfo

theorem SameSymbol.writeCells (cs : List ((Nat × Nat) × Byte)) : SameSymbol (s.writeCells cs) (t.writeCells cs) := by
  induction cs generalizing s t with
  | nil => exact h
  | cons c cs ih => exact ih (h.lmStore _ _)

theorem SameSymbol.streamBits : s.streamBits = t.streamBits := by
  rw [State.streamBits, State.streamBits, ← h.cwLen, lmBytes_congr h.cw]

theorem SameSymbol.func {x y : Nat} (hx : x < 64) (hy : y < 64) : s.func x y = t.func x y := by
  rw [State.func, State.func, h.grid _ (grid_holds_cellOffset hx hy)]

theorem SameSymbol.dark {x y : Nat} (hx : x < 64) (hy : y < 64) : s.dark x y = t.dark x y := by
  rw [State.dark, State.dark, h.grid _ (grid_holds_cellOffset hx hy)]

variable {n : Nat} (hn : n ≤ 64)

include hn

theorem SameSymbol.dataCells : s.dataCells n = t.dataCells n :=
  List.filter_congr fun p hp => by
    obtain ⟨hx, hy⟩ := lt_of_mem_cellOrder hp
    rw [h.func (hx.trans_le hn) (hy.trans_le hn)]

/-- The symbol of a mask depends on the codewords and the function modules alone (47_qr_penalty.md R355). -/
theorem SameSymbol.candidate (e : Ecc) (m : Nat) : SameSymbol (s.candidate e n m) (t.candidate e n m) := by
  simp only [State.candidate, writeFormat_eq_writeCells, place_eq_writeCells, h.streamBits, h.dataCells hn]
  exact (h.writeCells _).writeCells _

/-- The penalties depend on the colours of the symbol alone (47_qr_penalty.md R354). -/
theorem SameSymbol.penalties : s.penalties n = t.penalties n := by
  have hdark {x y : Nat} (hx : x < n) (hy : y < n) : s.dark x y = t.dark x y :=
    h.dark (hx.trans_le hn) (hy.trans_le hn)
  have hrows : (List.range n).map (s.row n) = (List.range n).map (t.row n) :=
    List.map_congr_left fun y hy => List.map_congr_left fun x hx => hdark (List.mem_range.mp hx) (List.mem_range.mp hy)
  have hcolumns : (List.range n).map (s.column n) = (List.range n).map (t.column n) :=
    List.map_congr_left fun x hx => List.map_congr_left fun y hy => hdark (List.mem_range.mp hx) (List.mem_range.mp hy)
  have hlines : s.lines n = t.lines n := by rw [State.lines, State.lines, hrows, hcolumns]
  have hcount : s.darkCount n = t.darkCount n :=
    congrArg List.sum (List.map_congr_left fun y hy => List.countP_congr fun x hx => by
      rw [hdark (List.mem_range.mp hx) (List.mem_range.mp hy)])
  have hblocks : penaltyN2 s.dark n = penaltyN2 t.dark n :=
    congrArg (3 * List.sum ·) (List.map_congr_left fun y hy => List.countP_congr fun x hx => by
      rw [List.mem_range] at hx hy
      rw [hdark (by omega : x < n) (by omega : y < n), hdark (by omega : x + 1 < n) (by omega : y < n),
        hdark (by omega : x < n) (by omega : y + 1 < n), hdark (by omega : x + 1 < n) (by omega : y + 1 < n)])
  rw [State.penalties, State.penalties, hlines, hcount, hblocks]

/-- The tries of the masks leave the same symbol and the same penalties. -/
theorem SameSymbol.tryMasks (e : Ecc) (masks : List Nat) :
    SameSymbol (s.tryMasks e n masks).1 (t.tryMasks e n masks).1 ∧ (s.tryMasks e n masks).2 = (t.tryMasks e n masks).2 := by
  induction masks generalizing s t with
  | nil => exact ⟨h, rfl⟩
  | cons m masks ih =>
    have hm := h.candidate hn e m
    obtain ⟨hlast, hscores⟩ := ih hm
    exact ⟨hlast, by simp only [State.tryMasks, hm.penalties hn, hscores]⟩

end Symbol

/-! ## The whole encoding -/

/-- Two states show the same result of QR_ENCODE (47_qr_penalty.md R360). -/
structure SameResult (s t : State) : Prop where
  symbol : SameSymbol s t
  pen    : s.pen = t.pen
  res0   : s.res.r0 = t.res.r0
  res1   : s.res.r1 = t.res.r1
  res2   : s.res.r2 = t.res.r2
  res3   : s.res.r3 = t.res.r3

/-- The registers set last show the same values on the same symbol (47_qr_penalty.md R358, step 9). -/
theorem SameSymbol.setResult {s t : State} (h : SameSymbol s t) (p : PenRegs) (q : QrInfo) (r0 r1 r2 r3 : Word) :
    SameResult { s with pen := p, qrInfo := q, res := { s.res with r0 := r0, r1 := r1, r2 := r2, r3 := r3 } }
      { t with pen := p, qrInfo := q, res := { t.res with r0 := r0, r1 := r1, r2 := r2, r3 := r3 } } :=
  ⟨⟨h.bits, h.baLen, h.cw, h.cwLen, h.grid, rfl⟩, rfl, rfl, rfl, rfl, rfl⟩

/-- STATUS is no part of the result. -/
theorem SameResult.setStatus {s t : State} (h : SameResult s t) (st st' : Status) :
    SameResult { s with status := st } { t with status := st' } :=
  ⟨⟨h.symbol.bits, h.symbol.baLen, h.symbol.cw, h.symbol.cwLen, h.symbol.grid, h.symbol.qrInfo⟩, h.pen, h.res0, h.res1,
    h.res2, h.res3⟩

/-- The encoding of the same input bytes for the same version and level gives the same result. -/
theorem sameResult_encodeVersion {s t : State} (hin : s.inBytes = t.inBytes) {v : Nat} (hv : tableVersion v = true)
    (e : Ecc) : SameResult (s.encodeVersion v e) (t.encodeVersion v e) := by
  have hn : gridSize v ≤ 64 := by
    simp only [tableVersion, Bool.and_eq_true, decide_eq_true_eq] at hv
    exact gridSize_le hv.2
  obtain ⟨hsame, hscores⟩ := ((sameBits_assemble hin v e).sameSymbol v e).tryMasks hn e (List.range 8)
  simp only [State.encodeVersion, hscores]
  exact (hsame.candidate hn e _).setResult _ _ _ _ _ _

/-- Settles O38: the length and the version cap decide between the errors and the version; the version, the level and the
input bytes decide the result. -/
theorem qrEncodeDependsOnItsInputOnly : Obligations.QrEncodeDependsOnItsInputOnly := by
  intro s s' t t' e _ _ hmax hlen hin hx hx'
  have hcases := exec_qrEncode_cases s' e
  rw [← hmax, ← hlen] at hcases
  rcases exec_qrEncode_cases s e with ⟨hlong, hr⟩ | ⟨hn, hsel, hr⟩ | ⟨v, hn, hsel, hr⟩
  · simp only [hlong, Nat.not_le.mpr hlong, true_and, false_and, exists_false, or_false] at hcases
    obtain rfl := raise_eq_next.mp (hr ▸ hx)
    obtain rfl := raise_eq_next.mp (hcases ▸ hx')
    exact ⟨rfl, fun herr => by cases herr⟩
  · simp only [hn, hsel, Nat.not_lt.mpr hn, true_and, false_and, false_or, reduceCtorEq, exists_false, or_false] at hcases
    obtain rfl := raise_eq_next.mp (hr ▸ hx)
    obtain rfl := raise_eq_next.mp (hcases ▸ hx')
    exact ⟨rfl, fun herr => by cases herr⟩
  · simp only [hn, hsel, Nat.not_lt.mpr hn, true_and, false_and, false_or, reduceCtorEq, Option.some.injEq,
      exists_eq_left'] at hcases
    obtain rfl := Host.Outcome.next.inj (hr ▸ hx)
    obtain rfl := Host.Outcome.next.inj (hcases ▸ hx')
    have hv := tableVersion_of_fits (selectVersion_eq_some_iff.mp hsel).1
    obtain ⟨hsymbol, hpen, h0, h1, h2, h3⟩ :=
      (sameResult_encodeVersion hin hv e).setStatus s.status.completed s'.status.completed
    exact ⟨rfl, fun _ => ⟨hsymbol, hpen, h0, h1, h2, h3⟩⟩

end Sys2Proof.Machine
end

section
/-! SUPPORT. The error a command reports (60_exceptions.md R410 to R415): the conditions of a command, listed from the last
in the order of priority to the first, are the branches of its meaning, read from the innermost to the outermost. -/

namespace Sys2Proof.Machine

/-! ## The first error in the order of priority -/

/-- Where each code stands once in an order, and the conditions are listed in that order, the first code with a condition
that holds is that of the first condition that holds. -/
theorem find?_any_eq_map_find? {codes : List ErrCode} {conds : List (ErrCode × Bool)}
    (h : (conds.map Prod.fst).Sublist codes) (hd : codes.Nodup) :
    codes.find? (fun c => conds.any (fun p => p.1 == c && p.2)) = (conds.find? Prod.snd).map Prod.fst := by
  induction codes generalizing conds with
  | nil =>
    obtain rfl : conds = [] := by simpa using h
    rfl
  | cons c codes ih =>
    obtain ⟨hc, hcodes⟩ := List.nodup_cons.mp hd
    have hother {ps : List (ErrCode × Bool)} (hs : (ps.map Prod.fst).Sublist codes) :
        ps.any (fun p => p.1 == c && p.2) = false := by
      refine List.any_eq_false.mpr fun p hp => ?_
      have hne : p.1 ≠ c := fun he => hc (he ▸ hs.subset (List.mem_map_of_mem hp))
      simp [hne]
    rcases List.sublist_cons_iff.mp h with hs | ⟨cs, hcs, hs⟩
    · rw [List.find?_cons_of_neg (by simp [hother hs]), ih hs hcodes]
    · obtain ⟨⟨c', b⟩, ps, rfl, rfl, rfl⟩ := List.map_eq_cons_iff.mp hcs
      cases b
      · simpa [hother hs] using ih hs hcodes
      · simp

/-- Every command lists its conditions from the last in the order of priority to the first, none of them ILLEGAL. -/
theorem errors_sublist (i : Instr) (s : State) :
    ((Instr.errors i s).map Prod.fst).reverse.Sublist errorPriority.tail := by
  cases i <;> (simp only [Instr.errors, List.map]; decide)

/-- The code of the last condition listed that holds. -/
def lastHolding (conds : List (ErrCode × Bool)) : Option ErrCode :=
  conds.foldl (fun r p => if p.2 then some p.1 else r) none

theorem lastHolding_eq_map_find? (conds : List (ErrCode × Bool)) :
    lastHolding conds = (conds.reverse.find? Prod.snd).map Prod.fst := by
  induction conds using List.reverseRecOn with
  | nil => rfl
  | append_singleton conds p ih =>
    obtain ⟨c, b⟩ := p
    rw [lastHolding, List.foldl_append, ← lastHolding, ih]
    cases b
    · simp
    · simp

theorem firstError_eq_lastHolding (i : Instr) (s : State) : Instr.firstError i s = lastHolding (Instr.errors i s) := by
  have h : ((Instr.errors i s).reverse.map Prod.fst).Sublist errorPriority := by
    rw [List.map_reverse]
    exact (errors_sublist i s).trans (List.tail_sublist _)
  have hfind := find?_any_eq_map_find? h (by decide)
  simp only [List.any_reverse] at hfind
  rw [Instr.firstError, hfind, lastHolding_eq_map_find?]

/-- No command reports the code 0, nor ILLEGAL, which concerns words (60_exceptions.md R412). -/
theorem firstError_ne {i : Instr} {s : State} {c : ErrCode} (h : Instr.firstError i s = some c) :
    c ≠ .noError ∧ c ≠ .illegal := by
  obtain ⟨⟨c', b⟩, hp, hc⟩ := List.any_eq_true.mp (List.find?_some (p := fun c => (Instr.errors i s).any _) h)
  have hmem : c' ∈ errorPriority.tail := (errors_sublist i s).subset (List.mem_reverse.mpr (List.mem_map_of_mem hp))
  have hcodes : ∀ c ∈ errorPriority.tail, c ≠ .noError ∧ c ≠ .illegal := by decide
  obtain ⟨rfl, -⟩ : c' = c ∧ b = true := by simpa using hc
  exact hcodes _ hmem

/-! ## What an outcome reports -/

/-- STATUS and IRQ_EN are as before. -/
def SameControl (s t : State) : Prop := t.status = s.status ∧ t.irqEn = s.irqEn

/-- An outcome that reports `r`: the raising of an error, or the completion without error of a state that has kept STATUS
and IRQ_EN (60_exceptions.md R414). -/
def Reports (s : State) (r : Option ErrCode) (o : Host.Outcome State Fault Refusal) : Prop :=
  match r with
  | some c => o = s.raise c
  | none => ∃ u, SameControl s u ∧ o = u.succeed

section Rules

variable {s u : State} {r : Option ErrCode} {c : ErrCode} {b : Bool} {p : Prop} {o : Host.Outcome State Fault Refusal}

theorem sameControl_refl (s : State) : SameControl s s := ⟨rfl, rfl⟩

theorem SameControl.setOutputs (h : SameControl s u) (q : QrInfo) (rs : ResRegs) :
    SameControl s { u with qrInfo := q, res := rs } := h

theorem Reports.succeed (h : SameControl s u) : Reports s none u.succeed := ⟨u, h, rfl⟩

theorem Reports.raise (hb : b = true) : Reports s (if b then some c else r) (s.raise c) := by
  rw [if_pos hb]
  rfl

theorem Reports.skip (hb : b = false) (h : Reports s r o) : Reports s (if b then some c else r) o := by
  rwa [if_neg (ne_true_of_eq_false hb)]

/-- A branch of a meaning that raises `c` is the condition of `c`. -/
theorem Reports.ite [Decidable p] (hb : b = true ↔ p) (h : ¬ p → Reports s r o) :
    Reports s (if b then some c else r) (if p then s.raise c else o) := by
  by_cases hp : p
  · rw [if_pos hp]
    exact .raise (hb.mpr hp)
  · rw [if_neg hp]
    exact .skip (eq_false_of_ne_true (mt hb.mp hp)) (h hp)

end Rules

/-! ## STATUS and IRQ_EN while a command runs -/

theorem Frame.sameControl {s t : State} {W : List Reg} {P : Nat → Prop} (h : Frame s t W P) (hw : .ctrl ∉ W) :
    SameControl s t := by
  have hctrl : word t.irqEn.toNat = word s.irqEn.toNat := h.regs .ctrl (by decide) hw
  have hinj : ∀ x y : Bool, word x.toNat = word y.toNat → x = y := by decide
  exact ⟨h.status, hinj _ _ hctrl⟩

theorem sameControl_appendBits (s : State) (bs : List Bool) : SameControl s (s.appendBits bs) := by
  obtain ⟨m, k, h⟩ := appendBits_only s bs
  rw [h]
  exact sameControl_refl s

theorem sameControl_place (s : State) (m n : Nat) : SameControl s (s.place m n) := by
  obtain ⟨l, h⟩ := place_only s m n
  rw [h]
  exact sameControl_refl s

theorem sameControl_writeFormat (s : State) (n w : Nat) : SameControl s (s.writeFormat n w) := by
  obtain ⟨l, h⟩ := writeFormat_only s n w
  rw [h]
  exact sameControl_refl s

/-! ## The conditions of the rules -/

theorem versionOutside_ten_iff (v : Nat) : versionOutside 10 v = true ↔ tableVersion v = false := by
  simp only [versionOutside, tableVersion, Bool.or_eq_true, Bool.and_eq_false_iff, decide_eq_true_eq,
    decide_eq_false_iff_not, Nat.not_le]

theorem versionOutside_forty_iff (v : Nat) : versionOutside 40 v = true ↔ segmentVersion v = false := by
  simp only [versionOutside, segmentVersion, Bool.or_eq_true, Bool.and_eq_false_iff, decide_eq_true_eq,
    decide_eq_false_iff_not, Nat.not_le]

theorem inLenTooLong_iff (s : State) : s.inLenTooLong = true ↔ inCapacity < s.inLen.toNat := decide_eq_true_iff

theorem length_utf8 (u : Nat) : (utf8 u).length = if u < 0x80 then 1 else if u < 0x800 then 2 else 3 := by
  simp only [utf8]
  split
  · rfl
  · split <;> rfl

/-- The total is null exactly where the count overflows its field (44_segment.md R233). -/
theorem totalBits_eq (n v : Nat) :
    totalBits n v = if 2 ^ ccBits v - 1 < n then none else some (4 + ccBits v + 8 * n) := rfl

theorem fits_eq_false_iff (n v : Nat) (e : Ecc) :
    fits n v e = false ↔ 2 ^ ccBits v - 1 < n ∨ 8 * dataCodewords v e < 4 + ccBits v + 8 * n := by
  rw [fits, totalBits_eq]
  by_cases h : 2 ^ ccBits v - 1 < n
  · simp [h]
  · rw [if_neg h, or_iff_right h]
    exact decide_eq_false_iff_not.trans Nat.not_le

/-- The condition of PAYLOAD_TOO_LARGE is the failure of the search (45_qr_codewords.md R261). -/
theorem noVersionFits_iff (s : State) (e : Ecc) :
    s.noVersionFits e = true ↔ selectVersion s.params.maxVersion s.inLen.toNat e = none := by
  simp only [selectVersion_eq_none_iff, fits_eq_false_iff, State.noVersionFits, List.all_eq_true, List.mem_range,
    Bool.or_eq_true, decide_eq_true_eq]
  constructor
  · rintro h (_ | k) hlo hhi
    · omega
    · exact h k hhi
  · exact fun h k hk => h (k + 1) (by omega) hk

/-! ## The commands with several conditions -/

section Commands

variable (s : State)

theorem execRsGen_reports (d : Nat) : Reports s (lastHolding (Instr.errors (.rsGen d) s)) (execRsGen d s) := by
  refine .ite ?_ fun _ => .succeed (sameControl_refl s)
  simp only [decide_eq_true_eq, workSize]
  omega

theorem execRsEcc_reports (e : Nat) : Reports s (lastHolding (Instr.errors (.rsEcc e) s)) (execRsEcc e s) := by
  simp only [execRsEcc, ← ite_or]
  refine .ite ?_ fun _ => .succeed (sameControl_refl s)
  simp only [Bool.or_eq_true, decide_eq_true_eq, workSize]
  omega

theorem execTotalBits_reports (v : Nat) : Reports s (lastHolding (Instr.errors (.totalBits v) s)) (execTotalBits v s) := by
  simp only [execTotalBits, ← ite_or]
  refine .ite (by rw [Bool.or_eq_true, versionOutside_forty_iff, inLenTooLong_iff]) fun _ => ?_
  split
  · exact .succeed (sameControl_refl s)
  · exact .succeed (sameControl_refl s)

theorem execUtf8Put_reports (u : Half) : Reports s (lastHolding (Instr.errors (.utf8Put u) s)) (execUtf8Put u s) :=
  .ite (inLenTooLong_iff s) fun _ =>
    .ite (by rw [decide_eq_true_eq, length_utf8]) fun _ => .succeed (sameControl_refl s)

theorem execSegWrite_reports (v : Nat) : Reports s (lastHolding (Instr.errors (.segWrite v) s)) (execSegWrite v s) := by
  simp only [execSegWrite]
  rw [← ite_or]
  refine .ite (by rw [Bool.or_eq_true, versionOutside_forty_iff, inLenTooLong_iff]) fun _ =>
    .ite decide_eq_true_iff fun _ => .ite ?_ fun _ => .succeed ((sameControl_appendBits s _).setOutputs _ _)
  rw [decide_eq_true_eq, baCapacity, Nat.add_assoc, Nat.add_assoc, Nat.add_assoc]

/-- The search of QR_SELECT and QR_ENCODE: its failure is PAYLOAD_TOO_LARGE, what it finds fits. -/
theorem reports_select (e : Ecc) {f : Nat → Host.Outcome State Fault Refusal}
    (h : ∀ v, fits s.inLen.toNat v e = true → Reports s none (f v)) :
    Reports s (if s.noVersionFits e then some .payloadTooLarge else none)
      (match selectVersion s.params.maxVersion s.inLen.toNat e with
        | none => s.raise .payloadTooLarge
        | some v => f v) := by
  have hfail := noVersionFits_iff s e
  cases hsel : selectVersion s.params.maxVersion s.inLen.toNat e with
  | none => exact .raise (hfail.mpr hsel)
  | some v => exact .skip (by simpa [hsel] using hfail) (h v (selectVersion_eq_some_iff.mp hsel).1)

theorem execQrSelect_reports (e : Ecc) : Reports s (lastHolding (Instr.errors (.qrSelect e) s)) (execQrSelect e s) :=
  .ite (inLenTooLong_iff s) fun _ => reports_select s e fun _ _ => .succeed (sameControl_refl s)

theorem execQrAssemble_reports (v : Nat) (e : Ecc) :
    Reports s (lastHolding (Instr.errors (.qrAssemble v e) s)) (execQrAssemble v e s) := by
  refine .ite (by rw [Bool.or_eq_true, versionOutside_ten_iff, inLenTooLong_iff]) fun _ => ?_
  rw [totalBits_eq]
  by_cases hcount : 2 ^ ccBits v - 1 < s.inLen.toNat
  · rw [if_pos hcount]
    exact .raise (decide_eq_true hcount)
  · rw [if_neg hcount]
    refine .skip (decide_eq_false hcount) (.ite decide_eq_true_iff fun hroom => .succeed ?_)
    exact (frame_assemble s v e (W := [.baLen]) (P := fun _ => True) (Nat.le_of_not_lt hroom) List.mem_cons_self
      fun _ _ => trivial).sameControl (by decide)

theorem execQrEncode_reports (e : Ecc) : Reports s (lastHolding (Instr.errors (.qrEncode e) s)) (execQrEncode e s) :=
  .ite (inLenTooLong_iff s) fun _ => reports_select s e fun v hfit =>
    .succeed ((frame_encodeVersion s e (tableVersion_of_fits hfit) hfit).sameControl (by decide))

/-- Every command reports the first of its errors, and completes where it has none (60_exceptions.md R410, R413). -/
theorem exec_reports (i : Instr) : Reports s (Instr.firstError i s) (exec i s) := by
  rw [firstError_eq_lastHolding]
  have keep := sameControl_refl s
  have hdrawn : (!s.qrInfo.funcValid) = true ↔ s.qrInfo.funcValid = false := by simp
  cases i with
  | rsGen d => exact execRsGen_reports s d
  | rsEcc e => exact execRsEcc_reports s e
  | totalBits v => exact execTotalBits_reports s v
  | utf8Put u => exact execUtf8Put_reports s u
  | segWrite v => exact execSegWrite_reports s v
  | qrSelect e => exact execQrSelect_reports s e
  | qrAssemble v e => exact execQrAssemble_reports s v e
  | qrEncode e => exact execQrEncode_reports s e
  | nop => exact .succeed keep
  | baClear => exact .succeed keep
  | baAppend len val =>
    exact .ite decide_eq_true_iff fun _ => .ite decide_eq_true_iff fun _ => .succeed (sameControl_appendBits s _)
  | baPad => exact .succeed (sameControl_appendBits s _)
  | gfMul x y => exact .succeed keep
  | gfExp n => exact .succeed keep
  | gfLog x => exact .ite beq_iff_eq fun _ => .succeed keep
  | capLookup v e => exact .ite (versionOutside_ten_iff v) fun _ => .succeed keep
  | alignPos v => exact .ite (versionOutside_ten_iff v) fun _ => .succeed keep
  | blockInfo v e => exact .ite (versionOutside_ten_iff v) fun _ => .succeed keep
  | ccBits v => exact .ite (versionOutside_forty_iff v) fun _ => .succeed keep
  | qrInterleave v e => exact .ite (versionOutside_ten_iff v) fun _ => .succeed keep
  | qrFunc v e => exact .ite (versionOutside_ten_iff v) fun _ => .succeed keep
  | qrPlace m => exact .ite hdrawn fun _ => .succeed ((sameControl_place s m _).setOutputs _ _)
  | qrFormat m => exact .ite hdrawn fun _ => .succeed ((sameControl_writeFormat s _ _).setOutputs _ _)
  | qrPenalty => exact .ite hdrawn fun _ => .succeed keep
  | maskEval m x y => exact .ite decide_eq_true_iff fun _ => .succeed keep
  | fmtBch e m => exact .succeed keep
  | verBch v => exact .succeed keep
  | c128Map u => exact .succeed keep
  | c128Pattern n => exact .ite decide_eq_true_iff fun _ => .succeed keep
  | c128Checksum => exact .ite decide_eq_true_iff fun _ => .succeed keep
  | c128Encode => exact .ite decide_eq_true_iff fun _ => .succeed keep

end Commands

/-! ## The completion of a command word -/

/-- A word no row of the opcode table matches does not decode (30_encoding.md R112). -/
theorem decode_of_no_match {w : Word} (h : ∀ r ∈ opcodeTable, r.matches w = false) : ∃ e, decode w = .error e := by
  obtain ⟨-, -, -, -, herror⟩ := decodeFollowsOpcodeTable
  have hd := herror w h
  split at hd
  · exact ⟨_, hd⟩
  · exact ⟨_, hd⟩

theorem decode_of_match {w : Word} (h : ∃ r ∈ opcodeTable, r.matches w = true) : ∃ i, decode w = .ok i := by
  obtain ⟨-, -, -, hok, -⟩ := decodeFollowsOpcodeTable
  obtain ⟨r, hr, hm⟩ := h
  obtain ⟨i, hi, -⟩ := hok w r hr hm
  exact ⟨i, hi⟩

theorem completeCommand_of_error {s : State} {e : DecodeError} (h : decode s.lastCmd = .error e) :
    s.completeCommand = s.raise .illegal := by
  simp only [State.completeCommand, h]

/-- The completion of any latched word reports an error or none. -/
theorem completeCommand_reports (s : State) : ∃ r, r ≠ some .noError ∧ Reports s r s.completeCommand := by
  obtain ⟨i, -, hx⟩ | ⟨e, -, hx⟩ := completeCommand_cases s
  · exact ⟨_, fun h => (firstError_ne h).1 rfl, hx ▸ exec_reports s i⟩
  · exact ⟨some .illegal, by decide, hx⟩

/-- Settles O7: the completion is the raising of an error, or a completion that keeps DROP and IRQ_EN. -/
theorem everyCommandCompletesOnce : Obligations.EveryCommandCompletesOnce := by
  intro s
  obtain ⟨_ | c, hr, hrep⟩ := completeCommand_reports s
  · obtain ⟨u, ⟨hstatus, hirq⟩, hx⟩ := hrep
    exact ⟨_, .noError, hx, by rw [hstatus]; rfl, fun hc => absurd rfl hc, hirq⟩
  · have hc : c ≠ .noError := fun h => hr (congrArg some h)
    exact ⟨_, c, hrep, by rw [decide_eq_true hc]; rfl, fun _ => hrep, rfl⟩

/-- Settles O8: a command's meaning reports the first of its errors. -/
theorem errorsReportedByPriority : Obligations.ErrorsReportedByPriority := by
  refine ⟨by decide, fun s e => completeCommand_of_error, fun i s c hc => ?_, fun i s hnone => ?_⟩
  · have hrep := exec_reports s i
    rwa [hc] at hrep
  · have hrep := exec_reports s i
    rw [hnone] at hrep
    obtain ⟨u, ⟨hstatus, -⟩, hx⟩ := hrep
    exact ⟨_, hx, by rw [hstatus]⟩

/-- Settles O6: a word decodes exactly where a row matches it, and no command reports ILLEGAL. -/
theorem illegalWordsCompleteWithIllegal : Obligations.IllegalWordsCompleteWithIllegal := by
  refine fun s w => ⟨rfl, rfl, fun hnone => ?_, fun hrow t hx => ?_⟩
  · obtain ⟨e, he⟩ := decode_of_no_match hnone
    exact completeCommand_of_error he
  · obtain ⟨i, hi⟩ := decode_of_match hrow
    rw [completeCommand_of_decode hi] at hx
    obtain ⟨-, -, herror, hdone⟩ := errorsReportedByPriority
    cases hc : Instr.firstError i (s.accept w) with
    | none =>
      obtain ⟨u, hu, hstatus⟩ := hdone i _ hc
      obtain rfl := Host.Outcome.next.inj (hu ▸ hx)
      simp [hstatus]
    | some c =>
      obtain rfl := raise_eq_next.mp (herror i _ c hc ▸ hx)
      exact (firstError_ne hc).2

/-- Settles O9: a completion with an error is the raising of it, which writes STATUS alone. -/
theorem errorsArePrecise : Obligations.ErrorsArePrecise := by
  intro s w t _ hx herr
  obtain ⟨u, c, hu, hstatus, hraise, -⟩ := everyCommandCompletesOnce (s.accept w)
  obtain rfl := Host.Outcome.next.inj (hu ▸ hx)
  have hc : c ≠ .noError := by simpa [hstatus] using herr
  obtain rfl := raise_eq_next.mp (hraise hc ▸ hx)
  exact ⟨c, hc, rfl⟩

/-- A CTRL write is performed at once (10_state.md R33). -/
theorem hostStep_ctrl (s : State) (v : Word) : s.hostStep (wr s.params 0x008 v) = .next (s.writeCtrl v) :=
  (hostStep_wr s v (by decide) (by decide)).trans (congrArg _ (regWrite_offset s .ctrl v))

/-- A STATUS write clears by ones (10_state.md R34). -/
theorem hostStep_status (s : State) (v : Word) :
    s.hostStep (wr s.params 0x00C v) = .next { s with status := s.status.writeOneToClear v } :=
  (hostStep_wr s v (by decide) (by decide)).trans (congrArg _ (regWrite_offset s .status v))

/-- Settles O54: irq is IRQ_EN and DONE; completion sets DONE, acceptance, the write-1-to-clear and the resets clear it. -/
theorem irqFollowsDoneAndEnable : Obligations.IrqFollowsDoneAndEnable := by
  refine ⟨fun s t hx => ?_, fun s v hv => ?_, fun s v hv => ?_, fun s w hidle => ?_, fun s => ⟨rfl, rfl⟩⟩
  · obtain ⟨u, c, hu, hstatus, -, hirq⟩ := everyCommandCompletesOnce s
    obtain rfl := Host.Outcome.next.inj (hu ▸ hx)
    simp [State.irq, hstatus, hirq]
  · refine ⟨_, hostStep_ctrl s v, ?_⟩
    rw [State.writeCtrl, if_neg (ne_true_of_eq_false hv)]
    rfl
  · refine ⟨_, hostStep_status s v, ?_⟩
    simp only [State.irq, Status.writeOneToClear, hv, Bool.not_true, Bool.and_false]
  · refine ⟨_, hostStep_cmd s w, ?_⟩
    simp [hidle, State.irq]

end Sys2Proof.Machine
end

section
/-! SUPPORT. The two resets: what the registers read after one, the drawn commands after one, and the LM bytes that the
abort of a command leaves as they were. -/

namespace Sys2Proof.Machine

/-! ## Registers -/

/-- CFG packs the two parameters without overlap where the version cap is in its range (10_state.md R32). -/
theorem cfgWord_eq_resetValue {p : Params} (hp : p.legal = true) : cfgWord p = Reg.resetValue p .cfg := by
  simp only [Params.legal, Bool.and_eq_true, decide_eq_true_eq] at hp
  obtain ⟨⟨hlo, hhi⟩, -⟩ := hp
  change word (p.maxVersion % 64 + 2 ^ 8 * p.stopTerm.toNat) = word p.maxVersion ||| word p.stopTerm.toNat <<< 8
  generalize p.maxVersion = m at hlo hhi
  cases p.stopTerm <;> interval_cases m <;> rfl

/-- Every register reads its reset value in the state a reset makes, whatever it makes of LM and of the model's own
fields (10_state.md R55). -/
theorem readReg_resetWith {p : Params} (hp : p.legal = true) (m : List Host.Cell) (e d : Nat) (is : List HostInput)
    (data : Option Word) (r : Reg) :
    State.readReg { State.resetWith p with lm := m, lmEpoch := e, draw := d, inputs := is, rdata := data } r =
      Reg.resetValue p r := by
  cases r with
  | cfg => exact cfgWord_eq_resetValue hp
  | _ => rfl

/-! ## Commands on the drawn symbol -/

/-- The commands that work on a drawn symbol raise SEQ where none is drawn (60_exceptions.md R411). -/
theorem exec_of_not_funcValid {s : State} (h : s.qrInfo.funcValid = false) :
    (∀ m, exec (.qrPlace m) s = s.raise .seq ∧ exec (.qrFormat m) s = s.raise .seq) ∧
      exec .qrPenalty s = s.raise .seq :=
  ⟨fun _ => ⟨if_pos h, if_pos h⟩, if_pos h⟩

/-- Settles O43: the hardware reset makes the reset state with a new draw of LM, and no symbol is drawn in it. -/
theorem hardwareResetGivesTheResetState : Obligations.HardwareResetGivesTheResetState := fun _ hp =>
  ⟨_, rfl, readReg_resetWith hp _ _ _ _ _, rfl, rfl, rfl, exec_of_not_funcValid rfl⟩

/-! ## LM -/

theorem length_drawn (r : Region) (d : Nat) : (r.drawn d).length = r.size := by simp [Region.drawn]

/-- Drawing regions anew writes these regions alone. -/
theorem frame_drawRegions (d : Nat) {rs : List Region} (s : State) {W : List Reg} {P : Nat → Prop}
    (h : ∀ r ∈ rs, ∀ x, r.holds x = true → P x) :
    Frame s (rs.foldl (fun t r => t.lmStore r.base (r.drawn d)) s) W P := by
  induction rs generalizing s with
  | nil => exact frame_refl s
  | cons r rs ih =>
    have hr : ∀ x, r.base ≤ x → x < r.base + (r.drawn d).length → P x := fun x hlo hhi =>
      h r List.mem_cons_self x ((Region.holds_iff r x).mpr ⟨hlo, length_drawn r d ▸ hhi⟩)
    exact (frame_lmStore s _ _ hr).trans (ih _ fun q hq => h q (List.mem_cons_of_mem r hq))

/-- A soft reset while idle changes no LM byte (70_reset_and_hazards.md R452). -/
theorem lmKept_softReset_idle {s : State} (h : s.status.busy = false) : LmKept s s.softReset nothing := fun a _ => by
  have hlm : s.softReset.lm = s.lm := if_neg (ne_true_of_eq_false h)
  exact lmByte_congr hlm rfl a

/-- A soft reset keeps the LM bytes outside the regions of the aborted command (70_reset_and_hazards.md R452). -/
theorem lmKept_softReset_busy {s : State} (h : s.status.busy = true) :
    LmKept s s.softReset (inRegions s.runningRegions) := fun a ha => by
  have hdrawn := frame_drawRegions (W := []) s.draw s fun r (hr : r ∈ s.runningRegions) => holds_inRegions hr
  have hlm : s.softReset.lm = s.abortedLm := if_pos h
  obtain ⟨-, hepoch, -⟩ := hdrawn.own
  exact (lmByte_congr hlm hepoch.symm a).trans (hdrawn.lm a ha)

theorem runningRegions_of_ok {s : State} {i : Instr} (h : decode s.lastCmd = .ok i) :
    s.runningRegions = Instr.lmRegions i := by
  simp only [State.runningRegions, h]

theorem runningRegions_of_error {s : State} {e : DecodeError} (h : decode s.lastCmd = .error e) :
    s.runningRegions = [] := by
  simp only [State.runningRegions, h]

/-- Settles O44: the soft reset makes the reset state, with LM kept outside the regions of an aborted command. -/
theorem softResetAbortsAndResets : Obligations.SoftResetAbortsAndResets := by
  intro s v ⟨hp, _⟩ hv
  refine ⟨s.softReset, ?_, readReg_resetWith hp _ _ _ _ _, rfl, rfl, lmKept_softReset_idle, fun i hb hd => ?_,
    fun e hb hd a _ => ?_⟩
  · rw [hostStep_ctrl, State.writeCtrl, if_pos hv]
  · exact runningRegions_of_ok hd ▸ lmKept_softReset_busy hb
  · refine lmKept_softReset_busy hb a ?_
    simp [runningRegions_of_error hd, inRegions]

end Sys2Proof.Machine
end

section
/-! SUPPORT. The formats of a command word (30_encoding.md R102): what the fields of an encoded word hold, and that a word
is the encoding of its own fields. -/

namespace Sys2Proof
open Laws.EncodedOpcode

/-! ## Levels -/

theorem eccCode_lt (e : Ecc) : e.code < 4 := by cases e <;> decide

@[simp] theorem ofCode_code (e : Ecc) : Ecc.ofCode e.code = e := by cases e <;> rfl

theorem code_ofCode {n : Nat} (h : n < 4) : (Ecc.ofCode n).code = n := by
  match n, h with
  | 0, _ | 1, _ | 2, _ | 3, _ => rfl

/-! ## The fields of an encoded word -/

/-- A field of the word of a number that fits 32 bits. -/
theorem field_word {n : Nat} (h : n < 2 ^ 32) (hi lo : Nat) : field (word n) hi lo = n / 2 ^ lo % 2 ^ (hi + 1 - lo) := by
  rw [field, word, BitVec.toNat_ofNat, Nat.mod_eq_of_lt h]

theorem field_encodeN {opc : Nat} (ho : opc < 256) : field (encodeN opc) 31 8 = 0 := by
  rw [encodeN, field_word (by omega)]
  omega

theorem fields_encodeQ {opc v e m : Nat} (ho : opc < 256) (hv : v < 64) (he : e < 4) (hm : m < 8) :
    field (encodeQ opc v e m) 31 19 = 0 ∧ field (encodeQ opc v e m) 18 16 = m ∧
      field (encodeQ opc v e m) 15 14 = e ∧ field (encodeQ opc v e m) 13 8 = v := by
  simp only [encodeQ, field_word (n := opc + 2 ^ 8 * v + 2 ^ 14 * e + 2 ^ 16 * m) (by omega)]
  omega

theorem fields_encodeB {opc a b c : Nat} (ho : opc < 256) (ha : a < 256) (hb : b < 256) (hc : c < 256) :
    field (encodeB opc a b c) 31 24 = c ∧ field (encodeB opc a b c) 23 16 = b ∧ field (encodeB opc a b c) 15 8 = a := by
  simp only [encodeB, field_word (n := opc + 2 ^ 8 * a + 2 ^ 16 * b + 2 ^ 24 * c) (by omega)]
  omega

theorem fields_encodeH {opc l u : Nat} (ho : opc < 256) (hl : l < 32) (hu : u < 65536) :
    field (encodeH opc l u) 31 16 = u ∧ field (encodeH opc l u) 15 13 = 0 ∧ field (encodeH opc l u) 12 8 = l := by
  simp only [encodeH, field_word (n := opc + 2 ^ 8 * l + 2 ^ 16 * u) (by omega)]
  omega

/-- Settles O1: the opcode selects the row of the command, the bits the row has zero were encoded as 0, and each used field
holds the operand that was encoded. -/
theorem decodeOfEncode : Obligations.DecodeOfEncode := by
  intro i hwf
  cases i with
  | nop | baClear | baPad | qrPenalty | c128Checksum | c128Encode =>
    simp [decode, encode, Instr.opcode, opcField_encodeN, formatN, field_encodeN]
  | alignPos v | ccBits v | totalBits v | segWrite v | verBch v =>
    have hv : v < 64 := of_decide_eq_true hwf
    simp [decode, encode, Instr.opcode, opcField_encodeQ, formatQ, fields_encodeQ, verField, hv]
  | capLookup v e | blockInfo v e | qrAssemble v e | qrInterleave v e | qrFunc v e =>
    have hv : v < 64 := of_decide_eq_true hwf
    simp [decode, encode, Instr.opcode, opcField_encodeQ, formatQ, fields_encodeQ, verField, eccField, hv, eccCode_lt]
  | qrSelect e | qrEncode e =>
    simp [decode, encode, Instr.opcode, opcField_encodeQ, formatQ, fields_encodeQ, eccField, eccCode_lt]
  | qrPlace m | qrFormat m =>
    have hm : m < 8 := of_decide_eq_true hwf
    simp [decode, encode, Instr.opcode, opcField_encodeQ, formatQ, fields_encodeQ, maskField, hm]
  | fmtBch e m =>
    have hm : m < 8 := of_decide_eq_true hwf
    simp [decode, encode, Instr.opcode, opcField_encodeQ, formatQ, fields_encodeQ, eccField, maskField, hm, eccCode_lt]
  | gfExp n | rsGen n | rsEcc n | c128Pattern n =>
    have hn : n < 256 := of_decide_eq_true hwf
    simp [decode, encode, Instr.opcode, opcField_encodeB, formatB, fields_encodeB, a8Field, hn]
  | gfLog x =>
    simp [decode, encode, Instr.opcode, opcField_encodeB, formatB, fields_encodeB, a8Field, byte, x.isLt]
  | gfMul x y =>
    simp [decode, encode, Instr.opcode, opcField_encodeB, formatB, fields_encodeB, a8Field, b8Field, byte, x.isLt, y.isLt]
  | maskEval m x y =>
    simp only [Instr.wellFormed, byteFits, Bool.and_eq_true, decide_eq_true_eq] at hwf
    simp [decode, encode, Instr.opcode, opcField_encodeB, formatB, fields_encodeB, a8Field, b8Field, c8Field, hwf]
  | utf8Put u | c128Map u =>
    simp [decode, encode, Instr.opcode, opcField_encodeH, formatH, fields_encodeH, u16Field, u.isLt]
  | baAppend len val =>
    have hl : len < 32 := of_decide_eq_true hwf
    simp [decode, encode, Instr.opcode, opcField_encodeH, formatH, fields_encodeH, l5Field, u16Field, hl, val.isLt]

/-! ## A word is the encoding of its fields

A format that accepts a word gives its own command, and the word is the encoding of the used fields. -/

theorem field_lt (w : Word) (hi lo : Nat) : field w hi lo < 2 ^ (hi + 1 - lo) := Nat.mod_lt _ (Nat.two_pow_pos _)

theorem verField_lt (w : Word) : verField w < 64 := field_lt w 13 8

theorem maskField_lt (w : Word) : maskField w < 8 := field_lt w 18 16

theorem a8Field_lt (w : Word) : a8Field w < 256 := field_lt w 15 8

theorem b8Field_lt (w : Word) : b8Field w < 256 := field_lt w 23 16

theorem c8Field_lt (w : Word) : c8Field w < 256 := field_lt w 31 24

theorem l5Field_lt (w : Word) : l5Field w < 32 := field_lt w 12 8

/-- A field that is used, or 0. -/
theorem ite_used_eq {used : Bool} {n : Nat} (h : used = true ∨ n = 0) : (if used then n else 0) = n := by
  split
  · rfl
  · exact (h.resolve_left ‹_›).symm

theorem word_toNat (w : Word) : word w.toNat = w := by rw [word, BitVec.ofNat_toNat, BitVec.setWidth_eq]

section Formats

variable {w : Word} {i j : Instr}

theorem formatN_eq_ok (h : formatN w i = .ok j) : i = j ∧ encodeN (opcField w) = w := by
  simp only [formatN] at h
  split at h
  · have hz : field w 31 8 = 0 := ‹_›
    refine ⟨by injection h, Eq.trans (congrArg word ?_) (word_toNat w)⟩
    simp only [opcField, field] at hz ⊢
    omega
  · cases h

theorem formatQ_eq_ok {useVer useEcc useMask : Bool} (h : formatQ w useVer useEcc useMask i = .ok j) :
    i = j ∧ encodeQ (opcField w) (if useVer then verField w else 0) (if useEcc then (eccField w).code else 0)
      (if useMask then maskField w else 0) = w := by
  simp only [formatQ] at h
  split at h
  · obtain ⟨hz, hm, he, hv⟩ := ‹_ ∧ _›
    have hecc : (eccField w).code = field w 15 14 := code_ofCode (field_lt w 15 14)
    refine ⟨by injection h, Eq.trans (congrArg word ?_) (word_toNat w)⟩
    rw [hecc, ite_used_eq he, verField, ite_used_eq hv, maskField, ite_used_eq hm]
    simp only [opcField, field] at hz ⊢
    omega
  · cases h

theorem formatB_eq_ok {useB useC : Bool} (h : formatB w useB useC i = .ok j) :
    i = j ∧ encodeB (opcField w) (a8Field w) (if useB then b8Field w else 0) (if useC then c8Field w else 0) = w := by
  simp only [formatB] at h
  split at h
  · obtain ⟨hc, hb⟩ := ‹_ ∧ _›
    refine ⟨by injection h, Eq.trans (congrArg word ?_) (word_toNat w)⟩
    rw [b8Field, ite_used_eq hb, c8Field, ite_used_eq hc]
    simp only [opcField, a8Field, field]
    omega
  · cases h

theorem formatH_eq_ok {useLen : Bool} (h : formatH w useLen i = .ok j) :
    i = j ∧ encodeH (opcField w) (if useLen then l5Field w else 0) (u16Field w).toNat = w := by
  simp only [formatH] at h
  split at h
  · obtain ⟨hz, hl⟩ := ‹_ ∧ _›
    have hu : (u16Field w).toNat = field w 31 16 := Nat.mod_eq_of_lt (field_lt w 31 16)
    refine ⟨by injection h, Eq.trans (congrArg word ?_) (word_toNat w)⟩
    rw [hu, l5Field, ite_used_eq hl]
    simp only [opcField, field] at hz ⊢
    omega
  · cases h

end Formats

/-- Settles O2: the format of the word's row accepted it, so it is the encoding of its opcode and the used fields. -/
theorem encodeOfDecode : Obligations.EncodeOfDecode := by
  intro w i h
  simp only [decode] at h
  split at h
  case h_1 ho | h_2 ho | h_4 ho | h_23 ho | h_30 ho | h_31 ho =>
    obtain ⟨rfl, hw⟩ := formatN_eq_ok h
    exact ⟨rfl, by rwa [ho] at hw⟩
  case h_10 ho | h_11 ho | h_12 ho | h_13 ho | h_14 ho | h_16 ho | h_17 ho | h_18 ho | h_19 ho | h_20 ho | h_21 ho |
      h_22 ho | h_25 ho | h_26 ho | h_27 ho =>
    obtain ⟨rfl, hw⟩ := formatQ_eq_ok h
    rw [ho] at hw
    exact ⟨by simp [Instr.wellFormed, verFits, maskFits, verField_lt, maskField_lt], hw⟩
  case h_5 ho | h_6 ho | h_7 ho | h_8 ho | h_9 ho | h_24 ho | h_29 ho =>
    obtain ⟨rfl, hw⟩ := formatB_eq_ok h
    rw [ho] at hw
    exact ⟨by simp [Instr.wellFormed, byteFits, a8Field_lt, b8Field_lt, c8Field_lt],
      by simpa [encode, Instr.opcode, Nat.mod_eq_of_lt, a8Field_lt, b8Field_lt] using hw⟩
  case h_3 ho | h_15 ho | h_28 ho =>
    obtain ⟨rfl, hw⟩ := formatH_eq_ok h
    rw [ho] at hw
    exact ⟨by simp [Instr.wellFormed, lenFits, l5Field_lt], hw⟩
  case h_32 => cases h

/-- Settles O4: each word is decoded by the row of its opcode. -/
theorem specWordsDecode : Obligations.SpecWordsDecode := by
  unfold Obligations.SpecWordsDecode
  decide

end Sys2Proof
end

section
/-! SUPPORT. The interleaved stream (45_qr_codewords.md R266, R267), written out: the full columns of the data blocks, the
last column of the long blocks, the columns of the ECC blocks. -/

namespace Sys2Proof.Machine

/-! ## Rows of equal length one after the other -/

/-- Entry `j` of row `i`, where every row has `m` entries. -/
theorem getElem?_flatMap {α β : Type} {f : α → List β} {m : Nat} {l : List α} (hf : ∀ a ∈ l, (f a).length = m) (i : Nat)
    {j : Nat} (hj : j < m) : (l.flatMap f)[m * i + j]? = l[i]?.bind fun a => (f a)[j]? := by
  induction l generalizing i with
  | nil => simp
  | cons a l ih =>
    have ha : (f a).length = m := hf a List.mem_cons_self
    rw [List.flatMap_cons]
    cases i with
    | zero => rw [Nat.mul_zero, Nat.zero_add, List.getElem?_append_left (by omega)]; rfl
    | succ i =>
      rw [List.getElem?_append_right (by rw [Nat.mul_succ]; omega), List.getElem?_cons_succ,
        ← ih (fun b hb => hf b (List.mem_cons_of_mem _ hb))]
      congr 1
      rw [Nat.mul_succ]
      omega

theorem length_flatMap_of_length {α β : Type} {f : α → List β} {m : Nat} {l : List α} (hf : ∀ a ∈ l, (f a).length = m) :
    (l.flatMap f).length = m * l.length := by
  rw [List.length_flatMap, List.map_congr_left hf]
  simp [Nat.mul_comm]

/-! ## The block split -/

/-- The data codewords are `sd` for each block and one more for each long block (43_capacity.md R209). -/
theorem blockSplit_total {v : Nat} (h1 : 1 ≤ v) (h10 : v ≤ 10) (e : Ecc) :
    (blockSplit v e).nShort ≤ numBlocks v e ∧ (blockSplit v e).nLong = numBlocks v e - (blockSplit v e).nShort ∧
      (blockSplit v e).shortData * numBlocks v e + (numBlocks v e - (blockSplit v e).nShort) = dataCodewords v e := by
  interval_cases v <;> cases e <;> decide

theorem rawCodewords_le {v : Nat} (h1 : 1 ≤ v) (h10 : v ≤ 10) : rawCodewords v ≤ 346 := by
  interval_cases v <;> decide

/-- The data codewords before block `k` (45_qr_codewords.md R266). -/
theorem sum_dataLen (v : Nat) (e : Ecc) (k : Nat) :
    ((List.range k).map (blockSplit v e).dataLen).sum = blockStart v e k := by
  induction k with
  | zero => simp [blockStart]
  | succ k ih =>
    rw [List.range_succ, List.map_append, List.sum_append, ih]
    simp only [blockStart, BlockSplit.dataLen, List.map_cons, List.map_nil, List.sum_cons, List.sum_nil, Nat.add_one_mul]
    split <;> omega

/-- Each block ends within the data codewords. -/
theorem blockEnd_le {v : Nat} (h1 : 1 ≤ v) (h10 : v ≤ 10) (e : Ecc) {b : Nat} (hb : b < numBlocks v e) :
    blockStart v e b + (blockSplit v e).dataLen b ≤ dataCodewords v e := by
  obtain ⟨-, -, htotal⟩ := blockSplit_total h1 h10 e
  have hend : blockStart v e b + (blockSplit v e).dataLen b = blockStart v e (b + 1) := by
    rw [← sum_dataLen, ← sum_dataLen, List.range_succ, List.map_append, List.sum_append]
    simp
  have hmul : (b + 1) * (blockSplit v e).shortData ≤ (blockSplit v e).shortData * numBlocks v e := by
    rw [Nat.mul_comm]
    exact Nat.mul_le_mul_left _ hb
  rw [hend, ← htotal, blockStart]
  omega

/-! ## The data blocks -/

/-- Block `k` of a cut (45_qr_codewords.md R266). -/
theorem getElem?_splitBlocks (data : List Byte) (lens : List Nat) (k : Nat) :
    (splitBlocks data lens)[k]? = lens[k]?.map fun n => (data.drop (lens.take k).sum).take n := by
  induction lens generalizing data k with
  | nil => simp [splitBlocks]
  | cons n lens ih =>
    cases k with
    | zero => simp [splitBlocks]
    | succ k => simp [splitBlocks, ih, List.drop_drop]

theorem take_drop_lmBytes (s : State) (a : Nat) {n k m : Nat} (h : k + m ≤ n) :
    ((s.lmBytes a n).drop k).take m = s.lmBytes (a + k) m := by
  apply List.ext_getElem
  · simp
    omega
  · intro i h1 h2
    simp [State.lmBytes, Nat.add_assoc]

/-- The data blocks of the codewords in BITS. -/
theorem dataBlocks_bitsBytes (s : State) {v : Nat} (h1 : 1 ≤ v) (h10 : v ≤ 10) (e : Ecc) :
    dataBlocks v e (s.bitsBytes (dataCodewords v e)) = (List.range (numBlocks v e)).map (s.block v e) := by
  apply List.ext_getElem?
  intro b
  rw [dataBlocks, getElem?_splitBlocks, List.getElem?_map, List.getElem?_map]
  by_cases hb : b < numBlocks v e
  · rw [List.getElem?_range hb, Option.map_some, Option.map_some, Option.map_some, ← List.map_take, List.take_range,
      Nat.min_eq_left hb.le, sum_dataLen, State.bitsBytes, take_drop_lmBytes _ _ (blockEnd_le h1 h10 e hb)]
    rfl
  · rw [List.getElem?_eq_none (by simpa using hb)]
    rfl

/-! ## Columns -/

theorem columns_succ (n : Nat) (blocks : List (List Byte)) :
    columns (n + 1) blocks = columns n blocks ++ blocks.filterMap fun b => b[n]? := by
  simp [columns, List.range_succ]

theorem filterMap_getElem? {blocks : List (List Byte)} {i : Nat} (h : ∀ b ∈ blocks, i < b.length) :
    (blocks.filterMap fun b => b[i]?) = blocks.map fun b => b.getD i 0 := by
  rw [← List.filterMap_eq_map]
  refine List.filterMap_congr fun b hb => ?_
  simp [List.getD_eq_getElem?_getD, List.getElem?_eq_getElem (h b hb)]

/-- Columns that no block falls short of. -/
theorem columns_eq {n : Nat} {blocks : List (List Byte)} (h : ∀ b ∈ blocks, n ≤ b.length) :
    columns n blocks = (List.range n).flatMap fun i => blocks.map fun b => b.getD i 0 :=
  List.flatMap_congr fun _ hi => filterMap_getElem? fun b hb => (List.mem_range.mp hi).trans_le (h b hb)

/-! ## The stream -/

/-- The bytes of data column `i` (45_qr_codewords.md R267). -/
def State.dataColumn (s : State) (v : Nat) (e : Ecc) (i : Nat) : List Byte :=
  (List.range (numBlocks v e)).map fun b => s.lmByte (bitsBase + blockStart v e b + i)

/-- The last bytes of the long blocks (45_qr_codewords.md R267). -/
def State.longColumn (s : State) (v : Nat) (e : Ecc) : List Byte :=
  (List.range' (blockSplit v e).nShort (numBlocks v e - (blockSplit v e).nShort)).map fun b =>
    s.lmByte (bitsBase + blockStart v e b + (blockSplit v e).shortData)

/-- The bytes of ECC column `i` (45_qr_codewords.md R267). -/
def State.eccColumn (s : State) (v : Nat) (e : Ecc) (i : Nat) : List Byte :=
  (List.range (numBlocks v e)).map fun b => (rsEcc (s.block v e b) (eccPerBlock v e)).getD i 0

@[simp] theorem length_block (s : State) (v : Nat) (e : Ecc) (b : Nat) :
    (s.block v e b).length = (blockSplit v e).dataLen b := length_lmBytes s _ _

theorem getD_block (s : State) (v : Nat) (e : Ecc) {b i : Nat} (hi : i < (blockSplit v e).dataLen b) :
    (s.block v e b).getD i 0 = s.lmByte (bitsBase + blockStart v e b + i) := getD_lmBytes s _ hi

theorem shortData_le_dataLen (v : Nat) (e : Ecc) (b : Nat) : (blockSplit v e).shortData ≤ (blockSplit v e).dataLen b :=
  Nat.le_add_right _ _

/-- The full data columns. -/
theorem columns_blocks (s : State) (v : Nat) (e : Ecc) :
    columns (blockSplit v e).shortData ((List.range (numBlocks v e)).map (s.block v e)) =
      (List.range (blockSplit v e).shortData).flatMap (s.dataColumn v e) := by
  rw [columns_eq (by simp [shortData_le_dataLen])]
  refine List.flatMap_congr fun i hi => ?_
  rw [List.map_map]
  exact List.map_congr_left fun b _ =>
    getD_block s v e ((List.mem_range.mp hi).trans_le (shortData_le_dataLen v e b))

/-- The column past the short blocks. -/
theorem filterMap_blocks (s : State) {v : Nat} (e : Ecc) (hns : (blockSplit v e).nShort ≤ numBlocks v e) :
    (((List.range (numBlocks v e)).map (s.block v e)).filterMap fun b => b[(blockSplit v e).shortData]?) =
      s.longColumn v e := by
  have hsplit : List.range (numBlocks v e) = List.range (blockSplit v e).nShort ++
      List.range' (blockSplit v e).nShort (numBlocks v e - (blockSplit v e).nShort) := by
    have h := List.range'_append_1 (s := 0) (m := (blockSplit v e).nShort) (n := numBlocks v e - (blockSplit v e).nShort)
    rw [Nat.zero_add, Nat.add_sub_cancel' hns, ← List.range_eq_range', ← List.range_eq_range'] at h
    exact h.symm
  have hshort : (((List.range (blockSplit v e).nShort).map (s.block v e)).filterMap
      fun b => b[(blockSplit v e).shortData]?) = [] := by
    simp [List.filterMap_eq_nil_iff, BlockSplit.dataLen]
  have hlong : ∀ b ∈ List.range' (blockSplit v e).nShort (numBlocks v e - (blockSplit v e).nShort),
      (blockSplit v e).shortData < (blockSplit v e).dataLen b := fun b hb => by
    have : ¬ b < (blockSplit v e).nShort := by
      have := (List.mem_range'_1.mp hb).1
      omega
    simp [BlockSplit.dataLen, this]
  rw [hsplit, List.map_append, List.filterMap_append, hshort, List.nil_append, filterMap_getElem?, List.map_map]
  · exact List.map_congr_left fun b hb => getD_block s v e (hlong b hb)
  · rw [List.forall_mem_map]
    exact fun b hb => by rw [length_block]; exact hlong b hb

theorem columns_ecc (s : State) (v : Nat) (e : Ecc) :
    columns (eccPerBlock v e)
        (((List.range (numBlocks v e)).map (s.block v e)).map fun blk => rsEcc blk (eccPerBlock v e)) =
      (List.range (eccPerBlock v e)).flatMap (s.eccColumn v e) := by
  rw [columns_eq (by simp), List.map_map]
  exact List.flatMap_congr fun i _ => List.map_map

/-- The stream written out. -/
theorem interleave_bitsBytes (s : State) {v : Nat} (h1 : 1 ≤ v) (h10 : v ≤ 10) (e : Ecc) :
    interleave v e (s.bitsBytes (dataCodewords v e)) =
      (List.range (blockSplit v e).shortData).flatMap (s.dataColumn v e) ++ s.longColumn v e ++
        (List.range (eccPerBlock v e)).flatMap (s.eccColumn v e) := by
  obtain ⟨hns, hnl, -⟩ := blockSplit_total h1 h10 e
  simp only [interleave, dataBlocks_bitsBytes s h1 h10, columns_ecc, hnl]
  congr 1
  split
  · rw [columns_succ, columns_blocks, filterMap_blocks s e hns]
  · have : s.longColumn v e = [] := by simp [State.longColumn]; omega
    rw [Nat.add_zero, columns_blocks, this, List.append_nil]

theorem length_dataColumns (s : State) (v : Nat) (e : Ecc) (n : Nat) :
    ((List.range n).flatMap (s.dataColumn v e)).length = numBlocks v e * n := by
  rw [length_flatMap_of_length (m := numBlocks v e) (by simp [State.dataColumn]), List.length_range]

theorem length_longColumn (s : State) (v : Nat) (e : Ecc) :
    (s.longColumn v e).length = numBlocks v e - (blockSplit v e).nShort := by simp [State.longColumn]

/-- The data columns and the last column are the data codewords. -/
theorem length_dataPart (s : State) {v : Nat} (h1 : 1 ≤ v) (h10 : v ≤ 10) (e : Ecc) :
    ((List.range (blockSplit v e).shortData).flatMap (s.dataColumn v e) ++ s.longColumn v e).length =
      dataCodewords v e := by
  obtain ⟨-, -, htotal⟩ := blockSplit_total h1 h10 e
  rw [List.length_append, length_dataColumns, length_longColumn, Nat.mul_comm, htotal]

theorem length_interleave (s : State) {v : Nat} (h1 : 1 ≤ v) (h10 : v ≤ 10) (e : Ecc) :
    (interleave v e (s.bitsBytes (dataCodewords v e))).length = rawCodewords v := by
  rw [interleave_bitsBytes s h1 h10, List.length_append, length_dataPart s h1 h10,
    length_flatMap_of_length (m := numBlocks v e) (by simp [State.eccColumn]), List.length_range,
    dataCodewords_add_ecc h1 h10]

/-! ## The stream in CW -/

section Store

variable (s : State) {v : Nat} (h1 : 1 ≤ v) (h10 : v ≤ 10) (e : Ecc)

include h1 h10

theorem lmByte_interleaveToCw {k : Nat} {b : Byte}
    (hk : (interleave v e (s.bitsBytes (dataCodewords v e)))[k]? = some b) :
    (s.interleaveToCw v e).1.lmByte (cwBase + k) = b := by
  have hlen := length_interleave s h1 h10 e
  have hraw := rawCodewords_le h1 h10
  obtain ⟨hlt, -⟩ := List.getElem?_eq_some_iff.mp hk
  have hstore := lmByte_lmStore s cwBase (interleave v e (s.bitsBytes (dataCodewords v e)))
    (by rw [hlen]; simp only [cwBase, lmEnd]; omega) (cwBase + k)
  rw [if_pos (by omega), Nat.add_sub_cancel_left, List.getD_eq_getElem?_getD, hk] at hstore
  exact hstore

theorem frame_interleaveToCw_raw {W : List Reg} (hw : .cwLen ∈ W) :
    Frame s (s.interleaveToCw v e).1 W (span cwBase (rawCodewords v)) :=
  (frame_lmStore s _ _ fun x hx hx' => ⟨hx, by rwa [length_interleave s h1 h10] at hx'⟩).trans (frame_setCwLen _ _ hw)

theorem cwLen_interleaveToCw : (s.interleaveToCw v e).1.cwLen.toNat = rawCodewords v := by
  have hraw := rawCodewords_le h1 h10
  simp only [State.interleaveToCw, length_interleave s h1 h10, BitVec.toNat_ofNat]
  omega

theorem lmByte_interleaveToCw_data {b i : Nat} (hb : b < numBlocks v e) (hi : i < (blockSplit v e).shortData) :
    (s.interleaveToCw v e).1.lmByte (cwBase + i * numBlocks v e + b) =
      s.lmByte (bitsBase + blockStart v e b + i) := by
  have hlt : numBlocks v e * i + b < numBlocks v e * (blockSplit v e).shortData := by
    have := Nat.mul_le_mul_left (numBlocks v e) (Nat.succ_le_of_lt hi)
    rw [Nat.mul_succ] at this
    omega
  rw [Nat.mul_comm, Nat.add_assoc]
  apply lmByte_interleaveToCw s h1 h10
  rw [interleave_bitsBytes s h1 h10, List.append_assoc, List.getElem?_append_left (by rwa [length_dataColumns]),
    getElem?_flatMap (by simp [State.dataColumn]) i hb]
  simp [hi, hb, State.dataColumn]

theorem lmByte_interleaveToCw_long {b : Nat} (hb : b < numBlocks v e) (hns : (blockSplit v e).nShort ≤ b) :
    (s.interleaveToCw v e).1.lmByte
        (cwBase + (blockSplit v e).shortData * numBlocks v e + (b - (blockSplit v e).nShort)) =
      s.lmByte (bitsBase + blockStart v e b + (blockSplit v e).shortData) := by
  rw [Nat.mul_comm, Nat.add_assoc]
  apply lmByte_interleaveToCw s h1 h10
  have hlt : b - (blockSplit v e).nShort < numBlocks v e - (blockSplit v e).nShort := by omega
  rw [interleave_bitsBytes s h1 h10, List.append_assoc, List.getElem?_append_right (by rw [length_dataColumns]; omega),
    length_dataColumns, Nat.add_sub_cancel_left, List.getElem?_append_left (by rwa [length_longColumn])]
  simp [State.longColumn, hlt, Nat.add_sub_cancel' hns]

theorem lmByte_interleaveToCw_ecc {b i : Nat} (hb : b < numBlocks v e) (hi : i < eccPerBlock v e) :
    (s.interleaveToCw v e).1.lmByte (cwBase + dataCodewords v e + i * numBlocks v e + b) =
      (rsEcc (s.block v e b) (eccPerBlock v e)).getD i 0 := by
  rw [Nat.mul_comm, Nat.add_assoc, Nat.add_assoc]
  apply lmByte_interleaveToCw s h1 h10
  rw [interleave_bitsBytes s h1 h10, List.getElem?_append_right (by rw [length_dataPart s h1 h10]; omega),
    length_dataPart s h1 h10, Nat.add_sub_cancel_left, getElem?_flatMap (by simp [State.eccColumn]) i hb]
  simp [hi, hb, State.eccColumn]

end Store

/-- Settles O27: the stream is its data columns, the last bytes of the long blocks, its ECC columns. -/
theorem qrInterleavePlacesEveryCodeword : Obligations.QrInterleavePlacesEveryCodeword := by
  rintro s v nb sd ns ec e h1 h10 rfl rfl rfl rfl
  have hraw := rawCodewords_le h1 h10
  have hx : exec (.qrInterleave v e) s = State.succeed { (s.interleaveToCw v e).1 with
      res := { (s.interleaveToCw v e).1.res with r0 := word (s.interleaveToCw v e).2 } } := by
    simp [exec, execQrInterleave, tableVersion, h1, h10]
  refine ⟨_, ((frame_interleaveToCw_raw s h1 h10 e (by simp)).setRes _).completes hx,
    cwLen_interleaveToCw s h1 h10 e, ?_, fun b i hb hi => lmByte_interleaveToCw_data s h1 h10 e hb hi,
    fun b hb hns => lmByte_interleaveToCw_long s h1 h10 e hb hns,
    fun b i hb hi => lmByte_interleaveToCw_ecc s h1 h10 e hb hi⟩
  simp only [State.interleaveToCw, length_interleave s h1 h10, BitVec.toNat_ofNat]
  omega

end Sys2Proof.Machine
end

section
/-! SUPPORT. Code128 (48_code128.md): the digits of a pattern, the weighted sum, and the place and width of every bar of a
sequence. -/

namespace Sys2Proof.Machine

/-! ## The pattern table -/

/-- Every row but the stop pattern has six digits of sum 11 (48_code128.md R372). -/
theorem c128Pattern_of_lt (stopTerm : Bool) {v : Nat} (h : v < 106) :
    (c128Pattern stopTerm v).length = 6 ∧ (c128Pattern stopTerm v).sum = 11 := by
  have hsum : ∀ v < 106, (decimalDigits 6 (c128Widths.getD v 0)).sum = 11 := by decide +kernel
  have hne : ¬ (v = 106 ∧ stopTerm = true) := by omega
  rw [c128Pattern, if_neg hne]
  exact ⟨length_decimalDigits _ _, hsum v h⟩

/-- The termination bar is one more digit, 2 (48_code128.md R372). -/
theorem c128Pattern_stop (stopTerm : Bool) :
    (c128Pattern stopTerm 106).length = 6 + stopTerm.toNat ∧ (c128Pattern stopTerm 106).sum = 11 + 2 * stopTerm.toNat := by
  cases stopTerm <;> decide

theorem lt_of_mem_decimalDigits {n v d : Nat} (h : d ∈ decimalDigits n v) : d < 10 := by
  induction n with
  | zero => simp [decimalDigits] at h
  | succ n ih =>
    rw [decimalDigits, List.mem_cons] at h
    rcases h with rfl | h
    · exact Nat.mod_lt _ (by decide)
    · exact ih h

theorem lt_of_mem_c128Pattern {stopTerm : Bool} {v d : Nat} (h : d ∈ c128Pattern stopTerm v) : d < 10 := by
  rw [c128Pattern] at h
  split at h <;> exact lt_of_mem_decimalDigits h

theorem length_c128Pattern_le_seven (stopTerm : Bool) (v : Nat) : (c128Pattern stopTerm v).length ≤ 7 :=
  (length_c128Pattern_le stopTerm v).trans (by split <;> omega)

theorem sum_c128Pattern_le (stopTerm : Bool) {v : Nat} (h : v ≤ 106) : (c128Pattern stopTerm v).sum ≤ 13 := by
  rcases Nat.lt_or_eq_of_le h with h | rfl
  · exact (c128Pattern_of_lt stopTerm h).2.trans_le (by decide)
  · have := stopTerm.toNat_le
    rw [(c128Pattern_stop stopTerm).2]
    omega

/-- The packed digits fill one nibble each (48_code128.md R375). -/
theorem packNibbles_lt {p : List Nat} (h : ∀ d ∈ p, d < 16) : packNibbles p < 16 ^ p.length := by
  induction p with
  | nil => simp [packNibbles]
  | cons d p ih =>
    have := ih fun d hd => h d (List.mem_cons_of_mem _ hd)
    have := h d List.mem_cons_self
    rw [packNibbles, List.length_cons, Nat.pow_succ]
    omega

/-- Digit `k` stands in nibble `k` (48_code128.md R375). -/
theorem packNibbles_div {p : List Nat} (h : ∀ d ∈ p, d < 16) (k : Nat) : packNibbles p / 16 ^ k % 16 = p.getD k 0 := by
  induction p generalizing k with
  | nil => simp [packNibbles]
  | cons d p ih =>
    have hd := h d List.mem_cons_self
    cases k with
    | zero =>
      rw [packNibbles, List.getD_cons_zero]
      omega
    | succ k =>
      rw [packNibbles, List.getD_cons_succ, Nat.pow_succ, Nat.mul_comm (16 ^ k) 16, ← Nat.div_div_eq_div_mul,
        ← ih (fun d hd => h d (List.mem_cons_of_mem _ hd)), show (d + 16 * packNibbles p) / 16 = packNibbles p by omega]

/-- Settles O40: the flag is the substitution test, and the digits of a row are nibbles that fit the register. -/
theorem c128LookupsReturnTheirEntries : Obligations.C128LookupsReturnTheirEntries := by
  constructor
  · intro s u
    refine ⟨_, ((frame_refl s).setRes _).completes (i := .c128Map u) rfl, fun h => ?_, fun h => ?_⟩
    · have hsub : c128Substituted u.toNat = false := by simp [c128Substituted]; omega
      simp [hsub, c128Map]
      omega
    · have hsub : c128Substituted u.toNat = true := by simp [c128Substituted]; omega
      simp [hsub, c128Map]
  · intro s v hv
    have hx : exec (.c128Pattern v) s = State.succeed { s with res := { s.res with
        r0 := word (packNibbles (c128Pattern s.params.stopTerm v)), r1 := word (c128Pattern s.params.stopTerm v).length,
        r2 := word (c128Pattern s.params.stopTerm v).sum } } := if_neg (Nat.not_lt.mpr hv)
    refine ⟨_, ((frame_refl s).setRes _).completes hx, ?_, ?_, fun k _ => ?_⟩
    · have := length_c128Pattern_le_seven s.params.stopTerm v
      exact Nat.mod_eq_of_lt (by omega)
    · have := sum_c128Pattern_le s.params.stopTerm hv
      exact Nat.mod_eq_of_lt (by omega)
    · have hd : ∀ d ∈ c128Pattern s.params.stopTerm v, d < 16 := fun d hd => (lt_of_mem_c128Pattern hd).trans (by decide)
      have hlt : packNibbles (c128Pattern s.params.stopTerm v) < 2 ^ 32 :=
        (packNibbles_lt hd).trans_le ((Nat.pow_le_pow_right (by decide) (length_c128Pattern_le_seven _ v)).trans (by decide))
      rw [← packNibbles_div hd k]
      exact congrArg (· / 16 ^ k % 16) (Nat.mod_eq_of_lt hlt)

/-! ## The checksum -/

theorem c128SumFrom_append (i : Nat) (vals : List Nat) (v : Nat) :
    c128SumFrom i (vals ++ [v]) = c128SumFrom i vals + v * (i + vals.length + 1) := by
  induction vals generalizing i with
  | nil => simp [c128SumFrom]
  | cons u vals ih =>
    simp only [List.cons_append, c128SumFrom, ih, List.length_cons]
    ring

/-- The weighted sum over positions (48_code128.md R376). -/
theorem c128Sum_range (f : Nat → Nat) (n : Nat) :
    c128Sum ((List.range n).map f) = 104 + ((List.range n).map fun k => f k * (k + 1)).sum := by
  rw [c128Sum]
  congr 1
  induction n with
  | zero => rfl
  | succ n ih => simp [List.range_succ, c128SumFrom_append, ih]

theorem c128Values_eq (s : State) : s.c128Values = (List.range s.chrLen.toNat).map s.c128Value := List.map_map

theorem c128Sum_c128Values (s : State) :
    c128Sum s.c128Values = 104 + ((List.range s.chrLen.toNat).map fun k => s.c128Value k * (k + 1)).sum := by
  rw [c128Values_eq, c128Sum_range]

/-- The sum of 80 values fits a register (48_code128.md R376). -/
theorem c128Sum_lt (s : State) (h : s.chrLen.toNat ≤ 80) : c128Sum s.c128Values < 2 ^ 32 := by
  have hterm : ∀ x ∈ (List.range s.chrLen.toNat).map (fun k => s.c128Value k * (k + 1)), x ≤ 94 * 80 := by
    rw [List.forall_mem_map]
    exact fun k hk => Nat.mul_le_mul (c128Map_le _) ((Nat.succ_le_of_lt (List.mem_range.mp hk)).trans h)
  have hsum := List.sum_le_card_nsmul _ _ hterm
  rw [List.length_map, List.length_range, smul_eq_mul] at hsum
  have := hsum.trans (Nat.mul_le_mul_right (94 * 80) h)
  rw [c128Sum_c128Values]
  omega

/-- Settles O41: the scan from position 0 is the sum over positions, and it fits a register. -/
theorem c128ChecksumIsTheWeightedSum : Obligations.C128ChecksumIsTheWeightedSum := by
  intro s h
  have hx : exec .c128Checksum s = State.succeed { s with res := { s.res with
      r0 := word (c128Check s.c128Values), r1 := word (c128Sum s.c128Values) } } := if_neg (Nat.not_lt.mpr h)
  have hsum : (word (c128Sum s.c128Values)).toNat = c128Sum s.c128Values := Nat.mod_eq_of_lt (c128Sum_lt s h)
  refine ⟨_, ((frame_refl s).setRes _).completes hx, hsum.trans (c128Sum_c128Values s), ?_⟩
  rw [hsum]
  exact Nat.mod_eq_of_lt ((Nat.mod_lt _ (by decide : 103 > 0)).trans (by decide))

/-! ## The bars -/

theorem patternBars_snd (x : Nat) (isBar : Bool) (p : List Nat) : (patternBars x isBar p).2 = x + p.sum := by
  induction p generalizing x isBar with
  | nil => rfl
  | cons w p ih => simp [patternBars, ih, Nat.add_assoc]

/-- Bar `i` of a pattern is its element `2i`, and begins after the elements before it (48_code128.md R373). -/
theorem getElem?_patternBars (x : Nat) {p : List Nat} {i : Nat} (h : 2 * i < p.length) :
    (patternBars x true p).1[i]? = some (x + (p.take (2 * i)).sum, p.getD (2 * i) 0) := by
  induction i generalizing x p with
  | zero =>
    cases p with
    | nil => simp at h
    | cons w p => simp [patternBars]
  | succ i ih =>
    match p, h with
    | [w], h => simp at h
    | w :: w' :: p, h =>
      simp only [List.length_cons] at h
      simp [patternBars, ih (x + (w + w')) (p := p) (by omega), Nat.mul_add, Nat.add_assoc]

section Sequence

variable {stopTerm : Bool}

/-- The bars of a codeword that is no stop pattern, and where it ends (48_code128.md R372). -/
theorem patternBars_of_lt (x : Nat) {cw : Nat} (h : cw < 106) :
    (patternBars x true (c128Pattern stopTerm cw)).1.length = 3 ∧
      (patternBars x true (c128Pattern stopTerm cw)).2 = x + 11 := by
  obtain ⟨hlen, hsum⟩ := c128Pattern_of_lt stopTerm h
  rw [length_patternBars, patternBars_snd, hlen, hsum]
  exact ⟨rfl, rfl⟩

/-- The number of bars of a sequence up to its stop pattern, and its width (48_code128.md R378). -/
theorem sequenceBars_total (x : Nat) {cws : List Nat} (h : ∀ cw ∈ cws, cw < 106) :
    (sequenceBars stopTerm x (cws ++ [106])).1.length = 3 * (cws.length + 1) + stopTerm.toNat ∧
      (sequenceBars stopTerm x (cws ++ [106])).2 = x + 11 * (cws.length + 1) + 2 * stopTerm.toNat := by
  induction cws generalizing x with
  | nil =>
    have := stopTerm.toNat_le
    simp only [List.nil_append, sequenceBars, List.append_nil, length_patternBars, patternBars_snd, c128Pattern_stop,
      List.length_nil, Bool.toNat_true]
    omega
  | cons cw cws ih =>
    obtain ⟨hlen, hend⟩ := patternBars_of_lt (stopTerm := stopTerm) x (h cw List.mem_cons_self)
    obtain ⟨ih1, ih2⟩ := ih (x + 11) fun c hc => h c (List.mem_cons_of_mem _ hc)
    simp only [List.cons_append, sequenceBars, List.length_append, hlen, hend, ih1, ih2, List.length_cons]
    omega

/-- Bar `i` of codeword `j`, where no earlier codeword is the stop pattern (48_code128.md R378). -/
theorem getElem?_sequenceBars (x : Nat) {cws : List Nat} {j i cw : Nat} (hcw : cws[j]? = some cw)
    (h : ∀ c ∈ cws.take j, c < 106) (hi : 2 * i < (c128Pattern stopTerm cw).length) :
    (sequenceBars stopTerm x cws).1[3 * j + i]? = some (x + 11 * j + ((c128Pattern stopTerm cw).take (2 * i)).sum,
      (c128Pattern stopTerm cw).getD (2 * i) 0) := by
  induction cws generalizing x j with
  | nil => simp at hcw
  | cons c cws ih =>
    rw [sequenceBars]
    cases j with
    | zero =>
      obtain rfl : c = cw := by simpa using hcw
      have hlen : i < (patternBars x true (c128Pattern stopTerm c)).1.length := by
        rw [length_patternBars, Bool.toNat_true]
        omega
      rw [Nat.mul_zero, Nat.zero_add, List.getElem?_append_left hlen, getElem?_patternBars x hi]
      rfl
    | succ j =>
      rw [List.take_succ_cons] at h
      obtain ⟨hlen, hend⟩ := patternBars_of_lt (stopTerm := stopTerm) x (h c List.mem_cons_self)
      rw [List.getElem?_append_right (by omega), hlen, hend, show 3 * (j + 1) + i - 3 = 3 * j + i by omega,
        ih (x + 11) (by simpa using hcw) fun c hc => h c (List.mem_cons_of_mem _ hc)]
      congr 2
      omega

end Sequence

/-! ## The symbol of the characters -/

/-- The bars of the characters in CHR (48_code128.md R378). -/
def State.c128Bars (s : State) : List (Nat × Nat) × Nat :=
  sequenceBars s.params.stopTerm 0 (c128Sequence s.c128Values)

/-- LM with the sequence and the bars stored (48_code128.md R379). -/
def State.storeC128 (s : State) : State :=
  (s.lmStore c128CwBase ((c128Sequence s.c128Values).map byte)).lmStore barsBase (s.c128Bars.1.flatMap barEntry)

theorem c128Sequence_eq (vals : List Nat) : c128Sequence vals = (104 :: vals ++ [c128Check vals]) ++ [106] := by
  simp [c128Sequence]

theorem c128Value_le (s : State) (k : Nat) : s.c128Value k ≤ 94 := c128Map_le _

theorem c128Check_lt (vals : List Nat) : c128Check vals < 103 := Nat.mod_lt _ (by decide)

/-- Only the last codeword is the stop pattern (48_code128.md R378). -/
theorem lt_of_mem_c128Sequence (s : State) : ∀ c ∈ 104 :: s.c128Values ++ [c128Check s.c128Values], c < 106 := by
  have hv : ∀ c ∈ s.c128Values, c < 106 := by
    rw [c128Values_eq, List.forall_mem_map]
    exact fun k _ => (c128Value_le s k).trans_lt (by decide)
  have hc := c128Check_lt s.c128Values
  intro c hc'
  simp only [List.cons_append, List.mem_cons, List.mem_append, List.not_mem_nil, or_false] at hc'
  rcases hc' with rfl | h | rfl
  · decide
  · exact hv c h
  · omega

theorem c128Bars_total (s : State) :
    s.c128Bars.1.length = 3 * (s.chrLen.toNat + 3) + s.params.stopTerm.toNat ∧
      s.c128Bars.2 = 11 * (s.chrLen.toNat + 3) + 2 * s.params.stopTerm.toNat := by
  have h := sequenceBars_total (stopTerm := s.params.stopTerm) 0 (lt_of_mem_c128Sequence s)
  rw [State.c128Bars, c128Sequence_eq]
  simpa [Nat.add_assoc] using h

theorem frame_storeC128 (s : State) {W : List Reg} : Frame s s.storeC128 W fun a =>
    span c128CwBase (s.chrLen.toNat + 3) a ∨
      span barsBase (4 * (3 * (s.chrLen.toNat + 3) + s.params.stopTerm.toNat)) a := by
  refine Frame.trans (frame_lmStore _ _ _ fun x h1 h2 => .inl ⟨h1, ?_⟩) (frame_lmStore _ _ _ fun x h1 h2 => .inr ⟨h1, ?_⟩)
  · simpa using h2
  · rwa [length_flatMap_barEntry, (c128Bars_total s).1] at h2

section Stored

variable {s : State} (h : s.chrLen.toNat ≤ 80)

include h

theorem length_c128Bars_le : (s.c128Bars.1.flatMap barEntry).length ≤ 1024 := by
  have := length_bars_le s s.params.stopTerm h
  rw [length_flatMap_barEntry, State.c128Bars]
  omega

/-- Byte `r` of the entry of bar `k` (20_memory.md R82). -/
theorem lmByte_storeC128_bar {k r : Nat} {bar : Nat × Nat} (hk : s.c128Bars.1[k]? = some bar) (hr : r < 4) :
    s.storeC128.lmByte (barsBase + 4 * k + r) = (barEntry bar).getD r 0 := by
  have hfit := length_c128Bars_le h
  have hlt : k < s.c128Bars.1.length := (List.getElem?_eq_some_iff.mp hk).1
  have hget : (s.c128Bars.1.flatMap barEntry)[4 * k + r]? = (barEntry bar)[r]? := by
    rw [getElem?_flatMap (fun _ _ => by simp [barEntry]) k hr, hk]
    rfl
  have hlen := length_flatMap_barEntry s.c128Bars.1
  rw [State.storeC128, lmByte_lmStore _ _ _ (by simp only [barsBase, lmEnd]; omega), if_pos (by omega), Nat.add_assoc,
    Nat.add_sub_cancel_left, List.getD_eq_getElem?_getD, hget, List.getD_eq_getElem?_getD]

/-- Codeword `j` of the sequence (20_memory.md R83). -/
theorem lmByte_storeC128_codeword {j : Nat} (hj : j < s.chrLen.toNat + 3) :
    s.storeC128.lmByte (c128CwBase + j) = byte ((c128Sequence s.c128Values).getD j 0) := by
  have hfit := length_c128Bars_le h
  have hlen : ((c128Sequence s.c128Values).map byte).length = s.chrLen.toNat + 3 := by simp
  rw [State.storeC128, lmByte_lmStore_of_not_mem _ _ _ _ (by simp only [c128CwBase, barsBase]; omega),
    lmByte_lmStore _ _ _ (by rw [hlen]; simp only [c128CwBase, lmEnd]; omega), if_pos (by omega),
    Nat.add_sub_cancel_left]
  simp [List.getD_eq_getElem?_getD, hj]

theorem memRead_storeC128_bar {k : Nat} {bar : Nat × Nat} (hk : s.c128Bars.1[k]? = some bar) (hx : bar.1 < 65536) :
    s.storeC128.memRead (barsBase + 4 * k) 2 = bar.1 := by
  have hbytes : s.storeC128.lmBytes (barsBase + 4 * k) 2 = leBytes 2 bar.1 :=
    List.map_congr_left fun r hr => by
      have hr : r < 2 := List.mem_range.mp hr
      rw [lmByte_storeC128_bar h hk (by omega), barEntry, List.getD_append _ _ _ _ (by rwa [length_leBytes]), getD_leBytes _ hr]
  rw [State.memRead, hbytes, leNat_leBytes]
  exact Nat.mod_eq_of_lt hx

end Stored

/-! ## The places of the sequence -/

/-- Codeword `j` of the sequence (48_code128.md R378). -/
def State.c128Codeword (s : State) (j : Nat) : Nat := (c128Sequence s.c128Values).getD j 0

section Places

variable (s : State)

theorem c128Codeword_value {k : Nat} (hk : k < s.chrLen.toNat) : s.c128Codeword (k + 1) = s.c128Value k := by
  have hlt : k < s.c128Values.length := by rwa [length_c128Values]
  have hget : s.c128Values[k]? = some (s.c128Value k) := by simp [c128Values_eq, hk]
  simp [State.c128Codeword, c128Sequence, List.getElem?_append_left hlt, hget]

theorem c128Codeword_check : s.c128Codeword (s.chrLen.toNat + 1) = c128Check s.c128Values := by
  simp [State.c128Codeword, c128Sequence]

theorem c128Codeword_stop : s.c128Codeword (s.chrLen.toNat + 2) = 106 := by
  simp [State.c128Codeword, c128Sequence]

variable {s} {j : Nat} (hj : j < s.chrLen.toNat + 3)

include hj

theorem getElem?_c128Sequence : (c128Sequence s.c128Values)[j]? = some (s.c128Codeword j) := by
  simp [State.c128Codeword, hj]

/-- No earlier codeword is the stop pattern. -/
theorem lt_of_mem_take_c128Sequence : ∀ c ∈ (c128Sequence s.c128Values).take j, c < 106 := by
  intro c hc
  rw [c128Sequence_eq, List.take_append_of_le_length (by simp; omega)] at hc
  exact lt_of_mem_c128Sequence s c (List.mem_of_mem_take hc)

theorem c128Codeword_le : s.c128Codeword j ≤ 106 := by
  have hmem := List.mem_of_getElem? (getElem?_c128Sequence hj)
  rw [c128Sequence_eq, List.mem_append, List.mem_singleton] at hmem
  rcases hmem with hmem | heq
  · exact (lt_of_mem_c128Sequence s _ hmem).le
  · exact heq.le

/-- Bar `i` of codeword `j` is bar `3j + i` of the symbol. -/
theorem getElem?_c128Bars {i : Nat} (hi : 2 * i < (c128Pattern s.params.stopTerm (s.c128Codeword j)).length) :
    s.c128Bars.1[3 * j + i]? =
      some (11 * j + ((c128Pattern s.params.stopTerm (s.c128Codeword j)).take (2 * i)).sum,
        (c128Pattern s.params.stopTerm (s.c128Codeword j)).getD (2 * i) 0) := by
  rw [State.c128Bars, getElem?_sequenceBars 0 (getElem?_c128Sequence hj) (lt_of_mem_take_c128Sequence hj) hi,
    Nat.zero_add]

/-- The abscissa of a bar fits its two bytes. -/
theorem barX_lt (h : s.chrLen.toNat ≤ 80) (n : Nat) :
    11 * j + ((c128Pattern s.params.stopTerm (s.c128Codeword j)).take n).sum < 65536 := by
  have h1 := sum_c128Pattern_le s.params.stopTerm (c128Codeword_le hj)
  have h2 := (List.take_sublist n (c128Pattern s.params.stopTerm (s.c128Codeword j))).sum_le_sum fun _ _ => Nat.zero_le _
  omega

end Places

theorem getD_lt {p : List Nat} {m : Nat} (hm : 0 < m) (h : ∀ d ∈ p, d < m) (k : Nat) : p.getD k 0 < m := by
  rw [List.getD_eq_getElem?_getD]
  cases hk : p[k]? with
  | none => exact hm
  | some d => exact h d (List.mem_of_getElem? hk)

/-- Settles O42: the sequence and the bars are stored one after the other, and no codeword but the last is the stop pattern,
so codeword `j` begins at 11j with bar 3j. -/
theorem c128EncodeStoresCodewordsAndBars : Obligations.C128EncodeStoresCodewordsAndBars := by
  rintro s c x rfl h rfl
  obtain ⟨hcount, hwidth⟩ := c128Bars_total s
  have hstop := s.params.stopTerm.toNat_le
  have hcheck := c128Check_lt s.c128Values
  have hx : exec .c128Encode s = State.succeed { s.storeC128 with
      c128CwLen := BitVec.ofNat 9 (c128Sequence s.c128Values).length
      barCount := BitVec.ofNat 9 s.c128Bars.1.length
      barWidth := BitVec.ofNat 16 s.c128Bars.2
      res := { s.storeC128.res with
        r0 := word (c128Check s.c128Values), r1 := word s.c128Bars.1.length, r2 := word s.c128Bars.2 } } :=
    if_neg (Nat.not_lt.mpr h)
  refine ⟨_, s.c128Codeword, ((frame_storeC128 s).setBars _ _ _ _ (by decide)
    (by simp [ResKept, Instr.regsWritten])).completes hx, rfl,
    fun k hk => c128Codeword_value s hk, ?_, c128Codeword_stop s, fun j hj => ?_, fun j i hj hi => ⟨?_, ?_, ?_⟩,
    ?_, ?_, ?_, ?_, ?_, ?_⟩
  · rw [c128Codeword_check, c128Check, c128Sum_c128Values]
  · refine (congrArg BitVec.toNat (lmByte_storeC128_codeword h hj)).trans (Nat.mod_eq_of_lt ?_)
    exact (c128Codeword_le hj).trans_lt (by decide)
  · exact memRead_storeC128_bar h (getElem?_c128Bars hj hi) (barX_lt hj h _)
  · refine (congrArg BitVec.toNat (lmByte_storeC128_bar h (getElem?_c128Bars hj hi) (by decide))).trans ?_
    exact Nat.mod_eq_of_lt ((getD_lt (by decide) (fun _ => lt_of_mem_c128Pattern) _).trans (by decide : 10 < 2 ^ 8))
  · exact lmByte_storeC128_bar h (getElem?_c128Bars hj hi) (by decide)
  · simp only [length_c128Sequence, length_c128Values, BitVec.toNat_ofNat]
    omega
  · rw [hcount, BitVec.toNat_ofNat]
    omega
  · rw [hwidth, BitVec.toNat_ofNat]
    omega
  · rw [c128Codeword_check]
    exact Nat.mod_eq_of_lt (hcheck.trans (by decide))
  · simp only [hcount, BitVec.toNat_ofNat]
    omega
  · have hlt : s.c128Bars.2 < 2 ^ 16 := by omega
    exact (Nat.mod_eq_of_lt (hlt.trans (by decide))).trans (Nat.mod_eq_of_lt hlt).symm

end Sys2Proof.Machine
end

section
/-! SUPPORT. The bit accumulator (41_bit_accumulator.md) and what the commands leave in it: the bits appended, the bits kept,
the segment (44_segment.md R230) and the data codewords (45_qr_codewords.md R263). -/

namespace Sys2Proof.Machine

/-! ## The bits of an append -/

theorem bits_holds_span : ∀ x, Region.bits.holds x = true → span bitsBase 512 x := fun x => (Region.holds_iff .bits x).mp

section Append

variable (s : State) {bs : List Bool} (h : s.baLen.toNat + bs.length ≤ 4096)

include h

theorem streamBit_appendBits_new {k : Nat} (hk : k < bs.length) :
    (s.appendBits bs).streamBit (s.baLen.toNat + k) = bs.getD k false := by
  rw [streamBit_appendBits s bs h, if_pos (by omega), Nat.add_sub_cancel_left]

theorem streamBit_appendBits_kept {k : Nat} (hk : k < s.baLen.toNat ∨ s.baLen.toNat + bs.length ≤ k) :
    (s.appendBits bs).streamBit k = s.streamBit k := by
  rw [streamBit_appendBits s bs h, if_neg (by omega)]

end Append

theorem toNat_word {n : Nat} (h : n < 2 ^ 32) : (word n).toNat = n := by
  rw [word, BitVec.toNat_ofNat, Nat.mod_eq_of_lt h]

theorem getD_bitsOf {n k : Nat} (v : Nat) (h : k < n) : (bitsOf n v).getD k false = v.testBit (n - 1 - k) := by
  rw [List.getD_eq_getElem?_getD, getElem?_bitsOf v h, Option.getD_some]

/-- `append(0, n)` appends zero bits (41_bit_accumulator.md R151). -/
theorem bitsOf_zero (n : Nat) : bitsOf n 0 = List.replicate n false := by
  induction n with
  | zero => rfl
  | succ n ih => rw [bitsOf, ih, Nat.zero_testBit, List.replicate_succ]

theorem lmByte_clearBits {s : State} {j : Nat} (hj : j < 512) : s.clearBits.lmByte (bitsBase + j) = 0 := by
  have hstore := lmByte_lmStore s bitsBase (List.replicate 512 0) (by rw [List.length_replicate]; decide) (bitsBase + j)
  rw [List.length_replicate, if_pos (by omega), Nat.add_sub_cancel_left, List.getD_replicate _ hj] at hstore
  exact hstore

/-- Settles O11: NOP completes at once, BA_CLEAR stores the 512 zero bytes of BITS. -/
theorem nopAndBaClearComplete : Obligations.NopAndBaClearComplete := by
  intro s
  exact ⟨⟨_, (frame_refl s).completes rfl⟩, _, (frame_clearBits s (by simp) bits_holds_span).completes rfl, rfl,
    fun k hk => lmByte_clearBits (s := s) hk⟩

/-- Settles O12: an append that fits is the low bits of its value, most significant first. -/
theorem baAppendWritesTheBitsMsbFirst : Obligations.BaAppendWritesTheBitsMsbFirst := by
  intro s len val hlen hfit
  have hx : exec (.baAppend len val) s = (s.append val.toNat len).succeed := by
    simp [exec, execBaAppend, Nat.not_lt.mpr hlen, Nat.not_lt.mpr hfit]
  have hfit' : s.baLen.toNat + (bitsOf len val.toNat).length ≤ 4096 := by rwa [length_bitsOf]
  refine ⟨_, (frame_append s _ _ hfit (by simp) bits_holds_span).completes hx, baLen_append s _ _ hfit,
    fun k hk => ?_, fun k _ hk => streamBit_appendBits_kept s hfit' (by rwa [length_bitsOf])⟩
  exact (streamBit_appendBits_new s hfit' (by rwa [length_bitsOf])).trans (getD_bitsOf _ hk)

/-- Settles O13: the pad length reaches the next byte boundary, which is at most 4096. -/
theorem baPadZeroesToTheByteBoundary : Obligations.BaPadZeroesToTheByteBoundary := by
  intro s hlen
  have hpad : s.baLen.toNat + padLength s.baLen.toNat = 8 * ((s.baLen.toNat + 7) / 8) := by
    rw [padLength]
    omega
  have hfit : s.baLen.toNat + padLength s.baLen.toNat ≤ 4096 := by omega
  have hfit' : s.baLen.toNat + (bitsOf (padLength s.baLen.toNat) 0).length ≤ 4096 := by rwa [length_bitsOf]
  have hend := baLen_append s 0 _ hfit
  refine ⟨_, (frame_append s _ _ hfit (by simp) bits_holds_span).completes rfl, hend.trans hpad, fun k h1 h2 => ?_,
    fun k _ hk => streamBit_appendBits_kept s hfit' ?_⟩
  · have hk : k - s.baLen.toNat < padLength s.baLen.toNat := by
      have : k < (s.append 0 (padLength s.baLen.toNat)).baLen.toNat := h2
      omega
    have hnew := streamBit_appendBits_new s hfit' (k := k - s.baLen.toNat) (by rwa [length_bitsOf])
    rw [Nat.add_sub_cancel' h1, getD_bitsOf _ hk, Nat.zero_testBit] at hnew
    exact hnew
  · rw [length_bitsOf, ← hend]
    exact hk

/-! ## The bits of a segment -/

theorem ccBits_eq (v : Nat) : ccBits v = if v ≤ 9 then 8 else 16 := rfl

section Segment

variable (v : Nat) (data : List Byte)

/-- The mode bits 0100 (44_segment.md R230). -/
theorem getD_segmentBits_mode {k : Nat} (hk : k < 4) : (segmentBits v data).getD k false = decide (k = 1) := by
  have hmode : ∀ k < 4, (bitsOf 4 4).getD k false = decide (k = 1) := by decide
  rw [segmentBits, List.append_assoc, List.getD_append _ _ _ _ (by simpa using hk), hmode k hk]

/-- The character count, most significant bit first (44_segment.md R230). -/
theorem getD_segmentBits_count {k : Nat} (hk : k < ccBits v) :
    (segmentBits v data).getD (4 + k) false = data.length.testBit (ccBits v - 1 - k) := by
  rw [segmentBits, List.append_assoc, List.getD_append_right _ _ _ _ (by simp), length_bitsOf, Nat.add_sub_cancel_left,
    List.getD_append _ _ _ _ (by rwa [length_bitsOf]), getD_bitsOf _ hk]

/-- The data bytes, each most significant bit first (44_segment.md R230). -/
theorem getD_segmentBits_data {k j : Nat} {b : Byte} (hk : data[k]? = some b) (hj : j < 8) :
    (segmentBits v data).getD (4 + ccBits v + 8 * k + j) false = b.getLsbD (7 - j) := by
  have hget : (data.flatMap fun b => bitsOf 8 b.toNat)[8 * k + j]? = some (b.getLsbD (7 - j)) := by
    rw [getElem?_flatMap (fun _ _ => length_bitsOf 8 _) k hj, hk, Option.bind_some, getElem?_bitsOf _ hj]
    rfl
  have hlen : (bitsOf 4 4 ++ bitsOf (ccBits v) data.length).length = 4 + ccBits v := by simp
  rw [segmentBits, List.getD_append_right _ _ _ _ (by omega), hlen, Nat.add_assoc, Nat.add_sub_cancel_left,
    List.getD_eq_getElem?_getD, hget, Option.getD_some]

end Segment

theorem getElem?_inBytes (s : State) {k : Nat} (hk : k < s.inLen.toNat) : s.inBytes[k]? = some (s.lmByte (inBase + k)) := by
  simp [State.inBytes, State.lmBytes, hk]

theorem segmentVersion_iff (v : Nat) : segmentVersion v = true ↔ 1 ≤ v ∧ v ≤ 40 := by simp [segmentVersion]

/-- Settles O23: the segment is appended where it fits, and each of its parts stands at its place. -/
theorem segWriteAppendsTheSegment : Obligations.SegWriteAppendsTheSegment := by
  rintro s v c n k0 h1 h40 rfl rfl rfl hn hcc hfit
  rw [← ccBits_eq] at *
  have hlen : (segmentBits v s.inBytes).length = 4 + ccBits v + 8 * s.inLen.toNat := by
    rw [length_segmentBits, length_inBytes]
  have hfit' : s.baLen.toNat + (segmentBits v s.inBytes).length ≤ 4096 := by omega
  have hx : exec (.segWrite v) s = State.succeed { s.appendBits (segmentBits v s.inBytes) with
      res := { (s.appendBits (segmentBits v s.inBytes)).res with r0 := word (4 + ccBits v + 8 * s.inLen.toNat) } } := by
    simp [exec, execSegWrite, (segmentVersion_iff v).mpr ⟨h1, h40⟩, Nat.not_lt.mpr hn, Nat.not_lt.mpr hcc,
      Nat.not_lt.mpr hfit]
  have hframe := frame_appendBits (W := [.res0, .baLen]) s _ hfit' (by simp) bits_holds_span
  have hend := baLen_appendBits s _ hfit'
  have hnew : ∀ k < 4 + ccBits v + 8 * s.inLen.toNat, (s.appendBits (segmentBits v s.inBytes)).streamBit
      (s.baLen.toNat + k) = (segmentBits v s.inBytes).getD k false := fun k hk =>
    streamBit_appendBits_new s hfit' (by rwa [hlen])
  have hkept : ∀ k, k < s.baLen.toNat ∨ s.baLen.toNat + 4 + ccBits v + 8 * s.inLen.toNat ≤ k →
      (s.appendBits (segmentBits v s.inBytes)).streamBit k = s.streamBit k := fun k hk =>
    streamBit_appendBits_kept s hfit' (by omega)
  generalize s.appendBits (segmentBits v s.inBytes) = u at *
  refine ⟨_, (hframe.setRes _).completes hx, ?_, toNat_word (by omega),
    fun k hk => (hnew k (by omega)).trans (getD_segmentBits_mode v _ hk), fun k hk => ?_, fun k j hk hj => ?_,
    fun k _ hk => hkept k hk⟩
  · show u.baLen.toNat = _
    omega
  · have hbit := hnew (4 + k) (by omega)
    rw [← Nat.add_assoc, getD_segmentBits_count v _ hk, length_inBytes] at hbit
    exact hbit
  · have hbit := hnew (4 + ccBits v + 8 * k + j) (by omega)
    rw [getD_segmentBits_data v _ (getElem?_inBytes s hk) hj, show s.baLen.toNat + (4 + ccBits v + 8 * k + j) =
      s.baLen.toNat + 4 + ccBits v + 8 * k + j by omega] at hbit
    exact hbit

/-! ## The data codewords -/

/-- The bits that QR_ASSEMBLE leaves below the capacity: the segment, zero bits up to byte `p`, `n` pad bytes
(45_qr_codewords.md R263). -/
def codewordBits (v : Nat) (data : List Byte) (p n : Nat) : List Bool :=
  segmentBits v data ++ List.replicate (8 * p - (4 + ccBits v + 8 * data.length)) false ++
    (padBytes n).flatMap fun b => bitsOf 8 b.toNat

/-- The byte at which the pad bytes begin (45_qr_codewords.md R263). -/
def padStart (v : Nat) (e : Ecc) (n : Nat) : Nat := (min (8 * dataCodewords v e) (4 + ccBits v + 8 * n + 4) + 7) / 8

/-- The bits of the data codewords of the input (45_qr_codewords.md R263). -/
def State.assembledBits (s : State) (v : Nat) (e : Ecc) : List Bool :=
  codewordBits v s.inBytes (padStart v e s.inLen.toNat) (dataCodewords v e - padStart v e s.inLen.toNat)

theorem append_zero_append_zero (s : State) (a b : Nat) :
    (s.append 0 a).append 0 b = s.appendBits (List.replicate (a + b) false) := by
  rw [State.append, State.append, bitsOf_zero, bitsOf_zero, ← appendBits_append, List.replicate_append_replicate]

@[simp] theorem toNat_clearBits_baLen (s : State) : s.clearBits.baLen.toNat = 0 := rfl

theorem dataBits_le (v : Nat) (e : Ecc) : 8 * dataCodewords v e ≤ 2192 := dataCapacityBits_le v e

section Assemble

variable (s : State) {v : Nat} {e : Ecc} (hfit : 4 + ccBits v + 8 * s.inLen.toNat ≤ 8 * dataCodewords v e)

include hfit

/-- `assemble` is one append to the cleared accumulator: the terminator and the bits to the byte boundary are zero bits up to
the byte where the pad bytes begin (45_qr_codewords.md R263). -/
theorem assemble_eq :
    s.assemble v e =
      (s.clearBits.appendBits (s.assembledBits v e), dataCodewords v e - padStart v e s.inLen.toNat) := by
  have hcap := dataBits_le v e
  have hseg : (s.clearBits.appendBits (segmentBits v s.inBytes)).baLen.toNat = 4 + ccBits v + 8 * s.inLen.toNat := by
    have hlen : (segmentBits v s.inBytes).length = 4 + ccBits v + 8 * s.inLen.toNat := by
      rw [length_segmentBits, length_inBytes]
    rw [baLen_appendBits _ _ (by rw [toNat_clearBits_baLen]; omega), hlen, toNat_clearBits_baLen, Nat.zero_add]
  simp only [State.assemble, foldl_append_bytes, dataCapacityBits, State.assembledBits, codewordBits,
    appendBits_append, length_inBytes]
  generalize s.clearBits.appendBits (segmentBits v s.inBytes) = u at *
  have hterm := baLen_append u 0 (min 4 (8 * dataCodewords v e - u.baLen.toNat)) (by omega)
  have hpad : padLength (u.append 0 (min 4 (8 * dataCodewords v e - u.baLen.toNat))).baLen.toNat =
      8 * padStart v e s.inLen.toNat - min (8 * dataCodewords v e) (4 + ccBits v + 8 * s.inLen.toNat + 4) := by
    rw [hterm, hseg, padLength, padStart]
    omega
  have hstart : 8 * padStart v e s.inLen.toNat ≤ 8 * dataCodewords v e ∧
      min (8 * dataCodewords v e) (4 + ccBits v + 8 * s.inLen.toNat + 4) ≤ 8 * padStart v e s.inLen.toNat := by
    rw [padStart]
    omega
  generalize padStart v e s.inLen.toNat = p at *
  have hbyte := baLen_append (u.append 0 (min 4 (8 * dataCodewords v e - u.baLen.toNat))) 0
    (padLength (u.append 0 (min 4 (8 * dataCodewords v e - u.baLen.toNat))).baLen.toNat) (by omega)
  have hcount : padCount (8 * dataCodewords v e) ((u.append 0 (min 4 (8 * dataCodewords v e - u.baLen.toNat))).append 0
      (padLength (u.append 0 (min 4 (8 * dataCodewords v e - u.baLen.toNat))).baLen.toNat)).baLen.toNat =
      dataCodewords v e - p := by
    rw [hbyte, hpad, hterm, hseg, padCount]
    omega
  rw [hcount, append_zero_append_zero, hpad]
  congr 4
  omega

theorem assemble_fst : (s.assemble v e).1 = s.clearBits.appendBits (s.assembledBits v e) := by rw [assemble_eq s hfit]

theorem assemble_snd : (s.assemble v e).2 = dataCodewords v e - padStart v e s.inLen.toNat := by rw [assemble_eq s hfit]

end Assemble

section CodewordBits

variable (v : Nat) (data : List Byte) {p : Nat} (n : Nat) (hp : 4 + ccBits v + 8 * data.length ≤ 8 * p)

theorem getD_codewordBits_segment {k : Nat} (hk : k < 4 + ccBits v + 8 * data.length) :
    (codewordBits v data p n).getD k false = (segmentBits v data).getD k false := by
  rw [codewordBits, List.append_assoc, List.getD_append _ _ _ _ (by rwa [length_segmentBits])]

include hp

theorem length_codewordPrefix : (segmentBits v data ++
    List.replicate (8 * p - (4 + ccBits v + 8 * data.length)) false).length = 8 * p := by
  rw [List.length_append, length_segmentBits, List.length_replicate]
  omega

theorem length_codewordBits : (codewordBits v data p n).length = 8 * (p + n) := by
  rw [codewordBits, List.length_append, length_codewordPrefix v data hp, length_flatMap_bitsOf, length_padBytes]
  omega

theorem getD_codewordBits_zero {k : Nat} (hk : 4 + ccBits v + 8 * data.length ≤ k) (hk' : k < 8 * p) :
    (codewordBits v data p n).getD k false = false := by
  rw [codewordBits, List.getD_append _ _ _ _ (by rwa [length_codewordPrefix v data hp]),
    List.getD_append_right _ _ _ _ (by rwa [length_segmentBits]), List.getD_replicate]
  rw [length_segmentBits]
  omega

theorem getD_codewordBits_pad {j i : Nat} (hj : j < n) (hi : i < 8) :
    (codewordBits v data p n).getD (8 * (p + j) + i) false =
      (if j % 2 = 0 then 0xEC else 0x11 : Byte).getLsbD (7 - i) := by
  have hpad : (padBytes n)[j]? = some (if j % 2 = 0 then 0xEC else 0x11) := by simp [padBytes, hj]
  have hget : ((padBytes n).flatMap fun b => bitsOf 8 b.toNat)[8 * j + i]? =
      some ((if j % 2 = 0 then 0xEC else 0x11 : Byte).getLsbD (7 - i)) := by
    rw [getElem?_flatMap (fun _ _ => length_bitsOf 8 _) j hi, hpad, Option.bind_some, getElem?_bitsOf _ hi]
    rfl
  rw [codewordBits, List.getD_append_right _ _ _ _ (by rw [length_codewordPrefix v data hp]; omega),
    length_codewordPrefix v data hp, show 8 * (p + j) + i - 8 * p = 8 * j + i by omega, List.getD_eq_getElem?_getD, hget,
    Option.getD_some]

end CodewordBits

/-- A byte of BITS is its eight stream bits (20_memory.md R79). -/
theorem lmByte_eq_of_streamBit {s : State} {j : Nat} {b : Byte}
    (h : ∀ i < 8, s.streamBit (8 * j + i) = b.getLsbD (7 - i)) : s.lmByte (bitsBase + j) = b := by
  refine BitVec.eq_of_getLsbD_eq fun i hi => ?_
  have hbit := h (7 - i) (by omega)
  rw [State.streamBit, show (8 * j + (7 - i)) / 8 = j by omega, show 7 - (8 * j + (7 - i)) % 8 = i by omega,
    show 7 - (7 - i) = i by omega] at hbit
  exact hbit

theorem streamBit_clearBits {s : State} {k : Nat} (hk : k < 4096) : s.clearBits.streamBit k = false := by
  rw [State.streamBit, lmByte_clearBits (by omega)]
  exact BitVec.getLsbD_zero

section Assembled

variable (s : State) {v : Nat} {e : Ecc} (hfit : 4 + ccBits v + 8 * s.inLen.toNat ≤ 8 * dataCodewords v e)

include hfit

theorem padStart_bounds : 4 + ccBits v + 8 * s.inLen.toNat ≤ 8 * padStart v e s.inLen.toNat ∧
    padStart v e s.inLen.toNat ≤ dataCodewords v e := by
  rw [padStart]
  omega

theorem length_assembledBits : (s.assembledBits v e).length = 8 * dataCodewords v e := by
  obtain ⟨hp, hp'⟩ := padStart_bounds s hfit
  rw [State.assembledBits, length_codewordBits v s.inBytes _ (by rwa [length_inBytes]), Nat.add_sub_cancel' hp']

theorem assembledBits_fit : s.clearBits.baLen.toNat + (s.assembledBits v e).length ≤ 4096 := by
  have hcap := dataBits_le v e
  rw [length_assembledBits s hfit, toNat_clearBits_baLen]
  omega

theorem baLen_assemble : (s.assemble v e).1.baLen.toNat = 8 * dataCodewords v e := by
  rw [assemble_fst s hfit]
  refine (baLen_appendBits _ _ (assembledBits_fit s hfit)).trans ?_
  rw [length_assembledBits s hfit, toNat_clearBits_baLen, Nat.zero_add]

theorem streamBit_assemble {k : Nat} (hk : k < 8 * dataCodewords v e) :
    (s.assemble v e).1.streamBit k = (s.assembledBits v e).getD k false := by
  rw [assemble_fst s hfit]
  have hnew := streamBit_appendBits_new s.clearBits (assembledBits_fit s hfit) (k := k)
    (by rwa [length_assembledBits s hfit])
  rwa [toNat_clearBits_baLen, Nat.zero_add] at hnew

theorem streamBit_assemble_past {k : Nat} (hk : 8 * dataCodewords v e ≤ k) (hk' : k < 4096) :
    (s.assemble v e).1.streamBit k = false := by
  rw [assemble_fst s hfit]
  exact (streamBit_appendBits_kept s.clearBits (assembledBits_fit s hfit) (.inr (by
    rwa [length_assembledBits s hfit, toNat_clearBits_baLen, Nat.zero_add]))).trans (streamBit_clearBits hk')

end Assembled

theorem tableVersion_iff (v : Nat) : tableVersion v = true ↔ 1 ≤ v ∧ v ≤ 10 := by simp [tableVersion]

theorem execQrAssemble_of_fits {s : State} {v : Nat} {e : Ecc} (hv : tableVersion v = true) (hn : s.inLen.toNat ≤ 512)
    (hcc : s.inLen.toNat ≤ 2 ^ ccBits v - 1) (hfit : 4 + ccBits v + 8 * s.inLen.toNat ≤ 8 * dataCodewords v e) :
    exec (.qrAssemble v e) s = State.succeed { (s.assemble v e).1 with res := { (s.assemble v e).1.res with
      r0 := word (dataCodewords v e), r1 := word (s.assemble v e).2 } } := by
  have hcap : ¬ dataCapacityBits v e < 4 + ccBits v + 8 * s.inLen.toNat := Nat.not_lt.mpr hfit
  simp [exec, execQrAssemble, hv, Nat.not_lt.mpr hn, totalBits_eq, Nat.not_lt.mpr hcc, hcap]

/-- Settles O26: the data codewords are one append to the cleared accumulator, read part by part. -/
theorem qrAssembleBuildsTheDataCodewords : Obligations.QrAssembleBuildsTheDataCodewords := by
  rintro s v c n p e h1 h10 rfl rfl hcc hfit hp
  rw [← ccBits_eq] at *
  replace hp : p = padStart v e s.inLen.toNat := hp
  subst hp
  have hcap := dataBits_le v e
  obtain ⟨hp, hp'⟩ := padStart_bounds s hfit
  have hin := length_inBytes s
  have hx := execQrAssemble_of_fits ((tableVersion_iff v).mpr ⟨h1, h10⟩) (by omega) hcc hfit
  have hframe := frame_assemble (W := [.res0, .res1, .baLen]) s v e hfit (by simp) bits_holds_span
  have hlen := baLen_assemble s hfit
  have hbit : ∀ k < 8 * dataCodewords v e, (s.assemble v e).1.streamBit k = (codewordBits v s.inBytes
      (padStart v e s.inLen.toNat) (dataCodewords v e - padStart v e s.inLen.toNat)).getD k false :=
    fun k => streamBit_assemble s hfit
  have hpast := fun k => streamBit_assemble_past s hfit (k := k)
  have hpad := assemble_snd s hfit
  generalize s.assemble v e = u at *
  generalize padStart v e s.inLen.toNat = p at *
  refine ⟨_, (hframe.setRes _).completes hx, hlen, toNat_word (by omega), ?_, fun k hk => ?_, fun k hk => ?_,
    fun k j hk hj => ?_, fun k hk hk' => ?_, fun j hj hj' => ?_, fun j hj hj' => ?_⟩
  · show (word u.2).toNat + p = _
    rw [hpad, toNat_word (by omega)]
    omega
  · exact (hbit k (by omega)).trans ((getD_codewordBits_segment v _ _ (by omega)).trans (getD_segmentBits_mode v _ hk))
  · refine (hbit (4 + k) (by omega)).trans ((getD_codewordBits_segment v _ _ (by omega)).trans ?_)
    rw [getD_segmentBits_count v _ hk, hin]
  · exact (hbit _ (by omega)).trans ((getD_codewordBits_segment v _ _ (by omega)).trans
      (getD_segmentBits_data v _ (getElem?_inBytes s hk) hj))
  · exact (hbit k (by omega)).trans (getD_codewordBits_zero v _ _ (by omega) (by omega) hk')
  · refine lmByte_eq_of_streamBit (s := u.1) fun i hi => (hbit _ (by omega)).trans ?_
    have hbyte := getD_codewordBits_pad v s.inBytes (p := p) (dataCodewords v e - p) (by omega)
      (show j - p < dataCodewords v e - p by omega) hi
    rwa [Nat.add_sub_cancel' hj] at hbyte
  · exact lmByte_eq_of_streamBit (s := u.1) fun i hi => (hpast _ (by omega) (by omega)).trans BitVec.getLsbD_zero.symm

end Sys2Proof.Machine
end

section
/-! SUPPORT. The invariant: every update of the state that a command or a host access makes keeps it, so every step does. -/

namespace Sys2Proof.Machine

/-! ## The invariant without STATUS -/

/-- What `Inv` says of everything but STATUS. -/
def DataInv (s : State) : Prop :=
  s.params.legal = true ∧ Memory.wf s.lm ∧ s.qrInfo.consistent ∧ s.baLen.toNat ≤ 4096 ∧ s.cwLen.toNat ≤ 346 ∧
    s.barCount.toNat ≤ 250 ∧ s.barWidth.toNat ≤ 915 ∧ s.c128CwLen.toNat ≤ 83

theorem inv_iff (s : State) : Inv s ↔ DataInv s ∧ s.status.consistent := by
  constructor
  · rintro ⟨hp, hm, hst, hq, hrest⟩
    exact ⟨⟨hp, hm, hq, hrest⟩, hst⟩
  · rintro ⟨⟨hp, hm, hq, hrest⟩, hst⟩
    exact ⟨hp, hm, hst, hq, hrest⟩

section Updates

variable {s : State} (h : DataInv s)

include h

theorem DataInv.wf : Memory.wf s.lm := h.2.1

theorem DataInv.setLm {m : List Host.Cell} (hm : Memory.wf m) : DataInv { s with lm := m } := by
  obtain ⟨hp, -, hrest⟩ := h
  exact ⟨hp, hm, hrest⟩

theorem DataInv.setQrInfo {q : QrInfo} (hq : q.consistent) : DataInv { s with qrInfo := q } := by
  obtain ⟨hp, hm, -, hrest⟩ := h
  exact ⟨hp, hm, hq, hrest⟩

theorem DataInv.setBaLen {k : BitVec 13} (hk : k.toNat ≤ 4096) : DataInv { s with baLen := k } := by
  obtain ⟨hp, hm, hq, -, hrest⟩ := h
  exact ⟨hp, hm, hq, hk, hrest⟩

theorem DataInv.setCwLen {k : BitVec 10} (hk : k.toNat ≤ 346) : DataInv { s with cwLen := k } := by
  obtain ⟨hp, hm, hq, hb, -, hrest⟩ := h
  exact ⟨hp, hm, hq, hb, hk, hrest⟩

theorem DataInv.setBars {k n : BitVec 9} {w : BitVec 16} (hk : k.toNat ≤ 83) (hn : n.toNat ≤ 250) (hw : w.toNat ≤ 915)
    (r : ResRegs) : DataInv { s with c128CwLen := k, barCount := n, barWidth := w, res := r } := by
  obtain ⟨hp, hm, hq, hb, hc, -⟩ := h
  exact ⟨hp, hm, hq, hb, hc, hn, hw, hk⟩

/-- The result registers are under no condition. -/
theorem DataInv.setRes (r : ResRegs) : DataInv { s with res := r } := h

theorem DataInv.setSymbol {q : QrInfo} (hq : q.consistent) (p : PenRegs) (r : ResRegs) :
    DataInv { s with pen := p, qrInfo := q, res := r } := by
  obtain ⟨hp, hm, -, hrest⟩ := h
  exact ⟨hp, hm, hq, hrest⟩

theorem DataInv.setInLen (n : BitVec 10) (r : ResRegs) : DataInv { s with inLen := n, res := r } := h

/-! ## The shared operations -/

theorem DataInv.lmStore (a : Nat) (bs : List Byte) : DataInv (s.lmStore a bs) := h.setLm (lmStore_wf h.wf a bs)

theorem DataInv.clearBits : DataInv s.clearBits := (h.lmStore _ _).setBaLen (by decide)

theorem DataInv.appendBits {bs : List Bool} (hfit : s.baLen.toNat + bs.length ≤ 4096) : DataInv (s.appendBits bs) := by
  have hwf := appendBits_wf h.wf bs
  have hlen := baLen_appendBits s bs hfit
  obtain ⟨m, k, heq⟩ := appendBits_only s bs
  rw [heq] at hwf hlen ⊢
  exact (h.setLm hwf).setBaLen (hlen.trans_le hfit)

theorem DataInv.append (v : Nat) {n : Nat} (hfit : s.baLen.toNat + n ≤ 4096) : DataInv (s.append v n) :=
  h.appendBits (by rwa [length_bitsOf])

theorem DataInv.writeCells (cs : List ((Nat × Nat) × Byte)) : DataInv (s.writeCells cs) := by
  have hwf := writeCells_wf h.wf cs
  obtain ⟨m, heq⟩ := writeCells_only s cs
  rw [heq] at hwf ⊢
  exact h.setLm hwf

theorem DataInv.place (m n : Nat) : DataInv (s.place m n) := by
  rw [place_eq_writeCells]
  exact h.writeCells _

theorem DataInv.writeFormat (n w : Nat) : DataInv (s.writeFormat n w) := by
  rw [writeFormat_eq_writeCells]
  exact h.writeCells _

theorem DataInv.candidate (e : Ecc) (n m : Nat) : DataInv (s.candidate e n m) := (h.place m n).writeFormat n _

theorem DataInv.tryMasks (e : Ecc) (n : Nat) (masks : List Nat) : DataInv (s.tryMasks e n masks).1 := by
  induction masks generalizing s with
  | nil => exact h
  | cons m masks ih => exact ih (h.candidate e n m)

theorem DataInv.assemble {v : Nat} {e : Ecc} (hfit : 4 + ccBits v + 8 * s.inLen.toNat ≤ 8 * dataCodewords v e) :
    DataInv (s.assemble v e).1 := by
  rw [assemble_fst s hfit]
  exact h.clearBits.appendBits (assembledBits_fit s hfit)

theorem DataInv.interleaveToCw {v : Nat} (hv : tableVersion v = true) (e : Ecc) : DataInv (s.interleaveToCw v e).1 := by
  obtain ⟨h1, h10⟩ := (tableVersion_iff v).mp hv
  have hlen := cwLen_interleaveToCw s h1 h10 e
  exact (h.lmStore _ _).setCwLen (hlen.trans_le (rawCodewords_le h1 h10))

theorem DataInv.drawFunctions {v : Nat} {e : Ecc} (hq : (QrInfo.drawn v (gridSize v) e).consistent) :
    DataInv (s.drawFunctions v e) := (h.lmStore _ _).setQrInfo hq

end Updates

/-! ## QR_INFO -/

/-- QR_INFO after QR_FUNC (10_state.md R43). -/
theorem drawn_fields {v : Nat} (hv : tableVersion v = true) (e : Ecc) :
    (QrInfo.drawn v (gridSize v) e).version.toNat = v ∧ (QrInfo.drawn v (gridSize v) e).size.toNat = 4 * v + 17 := by
  obtain ⟨h1, h10⟩ := (tableVersion_iff v).mp hv
  exact ⟨Nat.mod_eq_of_lt (by omega), Nat.mod_eq_of_lt (by rw [gridSize]; omega)⟩

theorem drawn_consistent {v : Nat} (hv : tableVersion v = true) (e : Ecc) :
    (QrInfo.drawn v (gridSize v) e).consistent := by
  obtain ⟨h1, h10⟩ := (tableVersion_iff v).mp hv
  obtain ⟨hver, hsize⟩ := drawn_fields hv e
  exact ⟨fun _ => ⟨by omega, by omega, by omega⟩, fun h => by cases h⟩

theorem QrInfo.consistent.placed {q : QrInfo} (h : q.consistent) (hf : q.funcValid = true) (m : Nat) :
    (q.placed m).consistent := ⟨h.1, fun _ => hf⟩

theorem qrInfo_place (s : State) (m n : Nat) : (s.place m n).qrInfo = s.qrInfo := by
  obtain ⟨l, h⟩ := place_only s m n
  rw [h]

/-! ## Commands -/

/-- Whatever state an outcome gives meets the invariant. -/
def KeepsInv (o : Host.Outcome State Fault Refusal) : Prop := ∀ t, o = .next t → Inv t

section Rules

variable {s u : State}

theorem KeepsInv.raise (h : DataInv s) {c : ErrCode} (hc : c ≠ .noError) : KeepsInv (s.raise c) := by
  intro t ht
  obtain rfl := raise_eq_next.mp ht
  exact (inv_iff _).mpr ⟨h, by simp [Status.consistent, hc]⟩

theorem KeepsInv.succeed (h : DataInv u) : KeepsInv u.succeed := by
  intro t ht
  obtain rfl := succeed_eq_next.mp ht
  exact (inv_iff _).mpr ⟨h, by simp [Status.consistent]⟩

theorem KeepsInv.ite {p : Prop} [Decidable p] {a b : Host.Outcome State Fault Refusal} (ha : p → KeepsInv a)
    (hb : ¬ p → KeepsInv b) : KeepsInv (if p then a else b) := by
  split
  · exact ha ‹_›
  · exact hb ‹_›

end Rules

section Commands

variable {s : State} (h : DataInv s)

include h

/-- An error check in front of a command. -/
theorem DataInv.check {p : Prop} [Decidable p] {c : ErrCode} {o : Host.Outcome State Fault Refusal} (hc : c ≠ .noError)
    (ho : ¬ p → KeepsInv o) : KeepsInv (if p then s.raise c else o) := .ite (fun _ => .raise h hc) ho

theorem execTotalBits_keepsInv (v : Nat) : KeepsInv (execTotalBits v s) :=
  h.check (by decide) fun _ => h.check (by decide) fun _ => by
    split
    · exact .succeed h
    · exact .succeed h

theorem execSegWrite_keepsInv (v : Nat) : KeepsInv (execSegWrite v s) :=
  h.check (by decide) fun _ => h.check (by decide) fun _ => h.check (by decide) fun _ =>
    h.check (by decide) fun hfit => by
      have hfit' : s.baLen.toNat + 4 + ccBits v + 8 * s.inLen.toNat ≤ 4096 := Nat.not_lt.mp hfit
      refine .succeed ((h.appendBits ?_).setRes _)
      rw [length_segmentBits, length_inBytes]
      omega

theorem execQrSelect_keepsInv (e : Ecc) : KeepsInv (execQrSelect e s) :=
  h.check (by decide) fun _ => by
    split
    · exact .raise h (by decide)
    · exact .succeed h

theorem execQrAssemble_keepsInv (v : Nat) (e : Ecc) : KeepsInv (execQrAssemble v e s) :=
  h.check (by decide) fun _ => by
    split
    · exact .raise h (by decide)
    · rename_i t ht
      obtain rfl := eq_of_totalBits_eq_some ht
      exact h.check (by decide) fun hfit => .succeed ((h.assemble (Nat.not_lt.mp hfit)).setRes _)

theorem DataInv.encodeVersion {v : Nat} {e : Ecc} (hfit : fits s.inLen.toNat v e = true) :
    DataInv (s.encodeVersion v e) := by
  have hv := tableVersion_of_fits hfit
  have hq := drawn_consistent hv e
  exact (((((h.assemble (le_of_fits hfit)).interleaveToCw hv e).drawFunctions hq).tryMasks e _ _).candidate e _ _).setSymbol
    (hq.placed rfl _) _ _

/-- The mask is set where function patterns are drawn. -/
theorem execQrPlace_keepsInv (m : Nat) : KeepsInv (execQrPlace m s) :=
  h.check (by decide) fun hf => by
    obtain ⟨-, -, hq, -⟩ := id h
    refine .succeed ((h.place m s.qrInfo.size.toNat).setSymbol ?_ _ _)
    rw [qrInfo_place]
    exact hq.placed (Bool.eq_true_of_not_eq_false hf) m

theorem execQrEncode_keepsInv (e : Ecc) : KeepsInv (execQrEncode e s) :=
  h.check (by decide) fun _ => by
    split
    · exact .raise h (by decide)
    · exact .succeed (h.encodeVersion (selectVersion_eq_some_iff.mp ‹_›).1)

/-- The sequence has at most 83 codewords, its bars at most 250 entries and 915 units (48_code128.md R378). -/
theorem execC128Encode_keepsInv : KeepsInv (execC128Encode s) :=
  h.check (by decide) fun hlen => by
    obtain ⟨hcount, hwidth⟩ := c128Bars_total s
    have hstop := s.params.stopTerm.toNat_le
    simp only [State.c128Bars] at hcount hwidth
    have hlen' : s.chrLen.toNat ≤ 80 := Nat.not_lt.mp hlen
    refine .succeed (((h.lmStore _ _).lmStore _ _).setBars ?_ ?_ ?_ _)
    · rw [length_c128Sequence, length_c128Values, BitVec.toNat_ofNat]
      exact (Nat.mod_le _ _).trans (by omega)
    · rw [hcount, BitVec.toNat_ofNat]
      exact (Nat.mod_le _ _).trans (by omega)
    · rw [hwidth, BitVec.toNat_ofNat]
      exact (Nat.mod_le _ _).trans (by omega)

/-- Every command keeps the invariant. -/
theorem exec_keepsInv (i : Instr) : KeepsInv (exec i s) := by
  cases i with
  | totalBits v => exact execTotalBits_keepsInv h v
  | segWrite v => exact execSegWrite_keepsInv h v
  | qrSelect e => exact execQrSelect_keepsInv h e
  | qrAssemble v e => exact execQrAssemble_keepsInv h v e
  | qrEncode e => exact execQrEncode_keepsInv h e
  | qrPlace m => exact execQrPlace_keepsInv h m
  | c128Encode => exact execC128Encode_keepsInv h
  | nop => exact .succeed h
  | baClear => exact .succeed h.clearBits
  | baAppend len val =>
    exact h.check (by decide) fun _ => h.check (by decide) fun hfit => .succeed (h.append _ (Nat.not_lt.mp hfit))
  | baPad =>
    obtain ⟨-, -, -, hba, -⟩ := id h
    exact .succeed (h.append 0 (by rw [padLength]; omega))
  | gfMul x y => exact .succeed h
  | gfExp n => exact .succeed h
  | gfLog x => exact h.check (by decide) fun _ => .succeed h
  | rsGen d => exact h.check (by decide) fun _ => .succeed ((h.lmStore _ _).setRes _)
  | rsEcc e => exact h.check (by decide) fun _ => h.check (by decide) fun _ => .succeed ((h.lmStore _ _).setRes _)
  | capLookup v e => exact h.check (by decide) fun _ => .succeed h
  | alignPos v => exact h.check (by decide) fun _ => .succeed h
  | blockInfo v e => exact h.check (by decide) fun _ => .succeed h
  | ccBits v => exact h.check (by decide) fun _ => .succeed h
  | utf8Put u => exact h.check (by decide) fun _ => h.check (by decide) fun _ => .succeed ((h.lmStore _ _).setInLen _ _)
  | qrInterleave v e =>
    exact h.check (by decide) fun hv => .succeed ((h.interleaveToCw (Bool.eq_true_of_not_eq_false hv) e).setRes _)
  | qrFunc v e =>
    exact h.check (by decide) fun hv => .succeed
      ((h.drawFunctions (drawn_consistent (Bool.eq_true_of_not_eq_false hv) e)).setRes _)
  | qrFormat m => exact h.check (by decide) fun _ => .succeed ((h.writeFormat _ _).setRes _)
  | qrPenalty => exact h.check (by decide) fun _ => .succeed h
  | maskEval m x y => exact h.check (by decide) fun _ => .succeed h
  | fmtBch e m => exact .succeed h
  | verBch v => exact .succeed h
  | c128Map u => exact .succeed h
  | c128Pattern n => exact h.check (by decide) fun _ => .succeed h
  | c128Checksum => exact h.check (by decide) fun _ => .succeed h

end Commands

/-! ## Resets and host accesses -/

theorem dataInv_resetWith {p : Params} (hp : p.legal = true) : DataInv (State.resetWith p) :=
  ⟨hp, Memory.wf_nil, (by decide : QrInfo.reset.consistent), Nat.zero_le _, Nat.zero_le _,
    Nat.zero_le _, Nat.zero_le _, Nat.zero_le _⟩

theorem resetStatus_consistent : Status.reset.consistent := by decide

/-- Settles O59: the reset state has empty LM and every length 0. -/
theorem invHoldsAtReset : Obligations.InvHoldsAtReset :=
  have hreset : ∀ p : Params, p.legal = true → Inv (State.resetWith p) := fun p hp =>
    (inv_iff _).mpr ⟨dataInv_resetWith hp, resetStatus_consistent⟩
  ⟨hreset _ (by decide), hreset⟩

section Host

variable {s : State} (h : Inv s)

include h

theorem inv_hardReset : Inv s.hardReset := invHoldsAtReset.2 _ h.1

theorem inv_softReset : Inv s.softReset := by
  obtain ⟨hp, hwf, -⟩ := h
  have hm : Memory.wf (if s.status.busy then s.abortedLm else s.lm) := by
    split
    · exact abortedLm_wf hwf
    · exact hwf
  exact (inv_iff _).mpr ⟨(dataInv_resetWith hp).setLm hm, resetStatus_consistent⟩

theorem inv_setStatus {st : Status} (hst : st.consistent) : Inv { s with status := st } :=
  (inv_iff _).mpr ⟨((inv_iff s).mp h).1, hst⟩

theorem inv_dropWrite : Inv s.dropWrite := inv_setStatus h ((inv_iff s).mp h).2

theorem writeOneToClear_consistent (v : Word) : (s.status.writeOneToClear v).consistent := by
  obtain ⟨-, herr, hbusy⟩ := (inv_iff s).mp h
  simp only [Status.consistent, Status.writeOneToClear]
  constructor
  · cases v.getLsbD 2 <;> simp [herr]
  · exact fun hb => by simp [hbusy hb]

theorem inv_regWrite (off : Nat) (v : Word) : Inv (s.regWrite off v) := by
  obtain heq | heq | ⟨b, heq⟩ | heq | ⟨-, heq⟩ | ⟨-, heq⟩ | ⟨-, a, n, c, heq⟩ := regWrite_cases s off v <;> rw [heq]
  · exact h
  · exact inv_softReset h
  · exact h
  · exact inv_setStatus h (writeOneToClear_consistent h v)
  · exact inv_dropWrite h
  · exact inv_setStatus h (by simp [Status.consistent])
  · exact h

theorem inv_lmHostWrite (a : Nat) (w : Width) (v : Word) : Inv (s.lmHostWrite a w v) := by
  obtain ⟨-, heq⟩ | heq | ⟨-, bs, heq⟩ := lmHostWrite_cases s a w v <;> rw [heq]
  · exact inv_dropWrite h
  · exact h
  · obtain ⟨hdata, hst⟩ := (inv_iff s).mp h
    exact (inv_iff _).mpr ⟨hdata.lmStore a bs, hst⟩

theorem inv_pollStatus : Inv s.pollStatus := by
  rw [State.pollStatus]
  split
  · exact h
  · exact h

theorem inv_hostStep {t : State} {i : HostInput} (ht : s.hostStep i = .next t) : Inv t := by
  obtain ⟨off, v, rfl⟩ | ⟨a, w, v, rfl⟩ | ⟨v, rfl⟩ | rfl | rfl := hostStep_cases ht
  · exact inv_regWrite h off v
  · exact inv_lmHostWrite h a w v
  · exact h
  · exact inv_pollStatus h
  · exact inv_hardReset h

theorem completeCommand_keepsInv : KeepsInv s.completeCommand := by
  have hdata := ((inv_iff s).mp h).1
  obtain ⟨i, -, heq⟩ | ⟨e, -, heq⟩ := completeCommand_cases s
  · exact heq ▸ exec_keepsInv hdata i
  · exact heq ▸ .raise hdata (by decide)

end Host

/-- Settles O60: a step completes a command, performs a host access, or leaves the state. -/
theorem everyStepKeepsTheInvariant : Obligations.EveryStepKeepsTheInvariant := by
  intro s t h ht
  obtain ⟨-, hc⟩ | ⟨-, i, rest, -, hi⟩ | ⟨-, -, rfl⟩ := step_cases ht
  · exact completeCommand_keepsInv h t hc
  · exact inv_hostStep (s := { s with inputs := rest, wait := s.wait - 1 }) h hi
  · exact h

end Sys2Proof.Machine
end

section
/-! SUPPORT. The host's side: what one step runs, what a write does while a command runs, the fields of STATUS, the registers
read back, and the LM bytes that the resets leave free. -/

namespace Sys2Proof.Machine

/-! ## The step -/

theorem coreMoves_iff (s : State) : s.coreMoves = true ↔ s.status.busy = true ∧ (s.inputs = [] ∨ s.wait = 0) := by
  simp [State.coreMoves]

theorem step_of_coreMoves {s : State} (h : s.coreMoves = true) : step s = s.completeCommand := if_pos h

/-- While no command is due, the next input is performed. -/
theorem step_of_input {s : State} {x : HostInput} {rest : List HostInput} (hc : s.coreMoves = false)
    (hi : s.inputs = x :: rest) : step s = ({ s with inputs := rest, wait := s.wait - 1 } : State).hostStep x := by
  simp only [step, State.advance, hc, hi, Bool.false_eq_true, if_false]

theorem tableWord_toNat (w : Word) : tableWord 32 w.toNat = w := by
  simp [tableWord, word, Nat.mod_eq_of_lt w.isLt]

/-- Settles O5: the core moves exactly where a command is running and due. -/
theorem stepRunsTheLatchedCommand : Obligations.StepRunsTheLatchedCommand := by
  refine ⟨fun s i hb hdue hd => ?_, fun s x rest hi hdue => ?_, fun s ⟨hb, hi⟩ => ?_, fun s w i hd => ?_⟩
  · rw [step_of_coreMoves ((coreMoves_iff s).mpr ⟨hb, hdue⟩), completeCommand_of_decode hd]
  · refine step_of_input (Bool.eq_false_iff.mpr fun hc => ?_) hi
    obtain ⟨hb, hw⟩ := (coreMoves_iff s).mp hc
    rcases hdue with h | h
    · exact Bool.false_ne_true (h.symm.trans hb)
    · exact h (hw.resolve_left (by simp [hi]))
  · simp [step, State.advance, State.coreMoves, hb, hi]
  · rw [State.withFetchWord, tableWord_toNat, step_of_coreMoves ((coreMoves_iff _).mpr ⟨rfl, .inr rfl⟩),
      completeCommand_of_decode (s := s.latchWord w) hd]
    rfl

/-! ## STATUS -/

/-- STATUS as software reads it (10_state.md R34). -/
theorem toNat_statusWord (s : Status) : s.word.toNat =
    s.busy.toNat + 2 * s.done.toNat + 4 * s.err.toNat + 8 * s.drop.toNat + 256 * s.errCode.code := by
  have hb := s.busy.toNat_le
  have hd := s.done.toNat_le
  have he := s.err.toNat_le
  have hdr := s.drop.toNat_le
  have hc := s.errCode.code_le
  rw [Status.word, word, BitVec.toNat_ofNat]
  omega

theorem statusWord_getLsbD_zero (s : Status) : s.word.getLsbD 0 = s.busy := by
  rw [BitVec.getLsbD, toNat_statusWord, Nat.testBit_zero]
  cases s.busy <;> simp [Nat.add_mod, Nat.mul_mod]

/-- A new STATUS and a new IRQ_EN show in STATUS and CTRL alone. -/
theorem readReg_setControl (s : State) (st : Status) (b : Bool) {r : Reg} (hs : r ≠ .status) (hc : r ≠ .ctrl) :
    State.readReg { s with status := st, irqEn := b } r = s.readReg r := by
  cases r with
  | status => exact absurd rfl hs
  | ctrl => exact absurd rfl hc
  | _ => rfl

/-- Settles O49: a STATUS write clears by ones and touches STATUS alone. -/
theorem statusFieldsAndWriteOneToClear : Obligations.StatusFieldsAndWriteOneToClear := by
  intro s v
  refine ⟨toNat_statusWord s.status, _, hostStep_status s v, rfl, ?_, ?_, rfl, ?_,
    fun r hs _ => readReg_setStatus s _ hs, fun _ _ => rfl⟩ <;> simp [Status.writeOneToClear]

/-! ## Reading back -/

theorem Reg.offset_lt (r : Reg) : r.offset < 4096 ∧ r.offset % 4 = 0 := by cases r <;> decide

theorem hostStep_wr_offset (s : State) (r : Reg) (v : Word) :
    s.hostStep (wr s.params r.offset v) = .next (s.writeReg r v) := by
  rw [hostStep_wr s v r.offset_lt.1 r.offset_lt.2, regWrite_offset]

theorem setWidth_setWidth_eq_and (v : Word) (n : Nat) : (v.setWidth n).setWidth 32 = v &&& lowMask n := by
  refine BitVec.eq_of_getLsbD_eq fun i hi => ?_
  rw [BitVec.getLsbD_setWidth, BitVec.getLsbD_setWidth, BitVec.getLsbD_and, getLsbD_lowMask, decide_eq_true hi,
    Bool.true_and, Bool.true_and, Bool.and_comm]

/-- The low bit of a word. -/
theorem word_getLsbD_zero (v : Word) : word (v.getLsbD 0).toNat = v &&& 1 := by
  refine BitVec.eq_of_toNat_eq ?_
  have hbit : (v.getLsbD 0).toNat = v.toNat % 2 := by
    rw [BitVec.getLsbD, Nat.testBit_zero]
    rcases Nat.mod_two_eq_zero_or_one v.toNat with h | h <;> simp [h]
  rw [word, BitVec.toNat_ofNat, BitVec.toNat_and, hbit]
  exact (Nat.mod_eq_of_lt (by omega)).trans (Nat.and_one_is_mod _).symm

/-- While idle, a write of an input register stores its implemented bits and changes nothing else (10_state.md R37, R39,
R40). -/
theorem writeReg_input {s : State} (hidle : s.status.busy = false) (v : Word) {r : Reg}
    (hr : r ∈ [Reg.arg0, .arg1, .arg2, .inLen, .chrLen]) :
    (s.writeReg r v).readReg r = v &&& Reg.implemented r ∧ (s.writeReg r v).status = s.status ∧
      RegsKept s (s.writeReg r v) [r] ∧ LmKept s (s.writeReg r v) nothing := by
  have hall : v = v &&& 0xFFFFFFFF#32 := BitVec.and_allOnes.symm
  simp only [List.mem_cons, List.not_mem_nil, or_false] at hr
  rcases hr with rfl | rfl | rfl | rfl | rfl <;>
    rw [State.writeReg, if_neg (ne_true_of_eq_false hidle)]
  · exact ⟨hall, rfl, fun q _ hq => by
      cases q with
      | arg0 => exact absurd List.mem_cons_self hq
      | _ => rfl, fun _ _ => rfl⟩
  · exact ⟨hall, rfl, fun q _ hq => by
      cases q with
      | arg1 => exact absurd List.mem_cons_self hq
      | _ => rfl, fun _ _ => rfl⟩
  · exact ⟨hall, rfl, fun q _ hq => by
      cases q with
      | arg2 => exact absurd List.mem_cons_self hq
      | _ => rfl, fun _ _ => rfl⟩
  · exact ⟨setWidth_setWidth_eq_and v 10, rfl, (frame_setInLen (P := nothing) s _ List.mem_cons_self).regs,
      fun _ _ => rfl⟩
  · exact ⟨setWidth_setWidth_eq_and v 9, rfl, fun q _ hq => by
      cases q with
      | chrLen => exact absurd List.mem_cons_self hq
      | _ => rfl, fun _ _ => rfl⟩

/-- Settles O51: a register that the host may write holds the implemented bits of what was written. -/
theorem registerWritesReadBack : Obligations.RegisterWritesReadBack := by
  intro s v
  refine ⟨fun r => ?_, fun hidle r hr => ⟨_, hostStep_wr_offset s r v, writeReg_input hidle v hr⟩, fun hv => ?_⟩
  · rw [hostStep_rd s r.offset_lt.1 r.offset_lt.2, regRead_offset]
    rfl
  · refine ⟨{ s with irqEn := v.getLsbD 0 }, ?_, word_getLsbD_zero v, rfl, fun r hs hc => ?_, fun _ _ => rfl⟩
    · rw [hostStep_ctrl, State.writeCtrl, if_neg (ne_true_of_eq_false hv)]
    · exact readReg_setControl s s.status _ hs (by simpa using hc)

/-! ## Writes while busy -/

section Busy

variable {s : State} (hb : s.status.busy = true)

include hb

theorem writeReg_droppable {r : Reg} (hr : r ∈ droppable) (v : Word) : s.writeReg r v = s.dropWrite := by
  simp only [droppable, List.mem_cons, List.not_mem_nil, or_false] at hr
  rcases hr with rfl | rfl | rfl | rfl | rfl | rfl <;> exact if_pos hb

end Busy

/-- A write of a read-only register is ignored (10_state.md R31 to R47). -/
theorem writeReg_readOnly (s : State) {r : Reg} (hr : r ∉ droppable) (hc : r ≠ .ctrl) (hs : r ≠ .status) (v : Word) :
    s.writeReg r v = s := by
  cases r with
  | ctrl => exact absurd rfl hc
  | status => exact absurd rfl hs
  | cmd | arg0 | arg1 | arg2 | inLen | chrLen => exact absurd (by decide) hr
  | _ => rfl

/-- Settles O47: each write of the register window is that of its register. -/
theorem writesWhileBusyAreDropped : Obligations.WritesWhileBusyAreDropped := by
  intro s v hb hp
  refine ⟨fun r hr => ?_, fun a w ha hal => ?_, fun off hoff hal hd hc hs => ?_, hostStep_status s v, fun hv => ?_,
    fun hv => ?_⟩
  · rw [hostStep_wr_offset, writeReg_droppable hb hr]
    rfl
  · rw [hostStep_lm_write s hp w v ha hal, State.lmHostWrite, if_pos hb]
    rfl
  · rw [hostStep_wr s v hoff hal, State.regWrite]
    cases hr : Reg.at? off with
    | none => rfl
    | some r =>
      obtain rfl := Reg.offset_of_at? hr
      exact congrArg _ (writeReg_readOnly s (fun h => hd r h rfl) (fun h => hc (h ▸ rfl)) (fun h => hs (h ▸ rfl)) v)
  · rw [hostStep_ctrl, State.writeCtrl, if_neg (ne_true_of_eq_false hv)]
  · rw [hostStep_ctrl, State.writeCtrl, if_pos hv]

/-! ## A running command -/

/-- What a host access that does not reset does while a command runs: STATUS, CTRL and what the host sees. -/
def HostOnly (s t : State) : Prop :=
  ∃ (st : Status) (b : Bool) (is : List HostInput) (d : Option Word),
    t = { s with status := st, irqEn := b, inputs := is, rdata := d } ∧ st.busy = true ∧
      (is = s.inputs ∨ is = .wait :: s.inputs)

section Running

variable {s : State} (hb : s.status.busy = true)

include hb

theorem hostOnly_refl : HostOnly s s := ⟨s.status, s.irqEn, s.inputs, s.rdata, rfl, hb, .inl rfl⟩

theorem hostOnly_dropWrite : HostOnly s s.dropWrite := ⟨s.status.dropped, s.irqEn, s.inputs, s.rdata, rfl, hb, .inl rfl⟩

theorem hostOnly_regWrite (off : Nat) (v : Word) : s.regWrite off v = s.softReset ∨ HostOnly s (s.regWrite off v) := by
  obtain heq | heq | ⟨b, heq⟩ | heq | ⟨-, heq⟩ | ⟨hidle, -⟩ | ⟨hidle, -⟩ := regWrite_cases s off v
  · exact .inr (heq.symm ▸ hostOnly_refl hb)
  · exact .inl heq
  · exact .inr ⟨s.status, b, s.inputs, s.rdata, heq, hb, .inl rfl⟩
  · exact .inr ⟨s.status.writeOneToClear v, s.irqEn, s.inputs, s.rdata, heq, hb, .inl rfl⟩
  · exact .inr (heq.symm ▸ hostOnly_dropWrite hb)
  · exact absurd (hidle.symm.trans hb) Bool.false_ne_true
  · exact absurd (hidle.symm.trans hb) Bool.false_ne_true

/-- While a command runs, a host step resets SEC or leaves the command running. -/
theorem hostOnly_hostStep {t : State} {i : HostInput} (h : s.hostStep i = .next t) :
    t = s.softReset ∨ t = s.hardReset ∨ HostOnly s t := by
  obtain ⟨off, v, rfl⟩ | ⟨a, w, v, rfl⟩ | ⟨v, rfl⟩ | rfl | rfl := hostStep_cases h
  · exact (hostOnly_regWrite hb off v).imp_right .inr
  · have hdrop : s.lmHostWrite a w v = s.dropWrite := if_pos hb
    exact .inr (.inr (hdrop.symm ▸ hostOnly_dropWrite hb))
  · exact .inr (.inr ⟨s.status, s.irqEn, s.inputs, some v, rfl, hb, .inl rfl⟩)
  · refine .inr (.inr ⟨s.status, s.irqEn, .wait :: s.inputs, some s.status.word, ?_, hb, .inr rfl⟩)
    rw [State.pollStatus, if_pos hb]
    rfl
  · exact .inr (.inl rfl)

end Running

/-- Settles O48: while the command keeps running, only a host access that does not reset can have been performed. -/
theorem nothingChangesBeforeCompletion : Obligations.NothingChangesBeforeCompletion := by
  intro s t hb hstep hbt
  obtain ⟨-, hc⟩ | ⟨-, x, rest, -, hx⟩ | ⟨-, -, rfl⟩ := step_cases hstep
  · obtain ⟨u, c, hu, hst, -⟩ := everyCommandCompletesOnce s
    obtain rfl := Host.Outcome.next.inj (hu.symm.trans hc)
    rw [hst] at hbt
    cases hbt
  · obtain rfl | rfl | ⟨st, b, is, d, rfl, hst, -⟩ :=
      hostOnly_hostStep (s := { s with inputs := rest, wait := s.wait - 1 }) hb hx
    · cases hbt
    · cases hbt
    · refine ⟨fun r hs hc => ?_, fun _ _ => rfl, rfl, (statusWord_getLsbD_zero st).trans hst⟩
      cases r with
      | status => exact absurd rfl hs
      | ctrl => exact absurd List.mem_cons_self hc
      | _ => rfl
  · exact ⟨fun _ _ _ => rfl, fun _ _ => rfl, rfl, (statusWord_getLsbD_zero _).trans hb⟩

/-! ## Free bytes -/

/-- Every region lies in LM's storage (20_memory.md R74). -/
theorem Region.end_le (r : Region) : r.base + r.size ≤ lmEnd := by cases r <;> decide

/-- A region drawn anew reads as its draw. -/
theorem lmByte_lmStore_drawn (s : State) (r : Region) (d a : Nat) :
    (s.lmStore r.base (r.drawn d)).lmByte a = if r.holds a = true then Config.freeByte d a else s.lmByte a := by
  rw [lmByte_lmStore _ _ _ (by rw [length_drawn]; exact r.end_le), length_drawn]
  simp only [Region.holds_iff]
  split
  · obtain ⟨h1, h2⟩ := ‹_ ∧ _›
    have hlt : a - r.base < r.size := by omega
    simp [Region.drawn, hlt, Nat.add_sub_cancel' h1]
  · rfl

theorem lmByte_drawRegions (d : Nat) (rs : List Region) (s : State) (a : Nat)
    (h : inRegions rs a ∨ s.lmByte a = Config.freeByte d a) :
    (rs.foldl (fun t r => t.lmStore r.base (r.drawn d)) s).lmByte a = Config.freeByte d a := by
  induction rs generalizing s with
  | nil => exact h.resolve_left (by simp [inRegions])
  | cons r rs ih =>
    refine ih _ ?_
    rw [lmByte_lmStore_drawn]
    split
    · exact .inr rfl
    · rename_i hr
      refine h.imp_left fun ⟨q, hq, ha⟩ => ⟨q, (List.mem_cons.mp hq).resolve_left fun heq => hr (heq ▸ ha), ha⟩

/-- Settles O45: unlisted bytes read as their draw, and the regions of an aborted command are stored from a fresh one. -/
theorem resetsLeaveUnspecifiedBytesFree : Obligations.ResetsLeaveUnspecifiedBytesFree := by
  refine fun s => ⟨fun a ha => ⟨if_pos ha, if_pos ha⟩, fun i a hb hd ha => ?_⟩
  have hlm : s.softReset.lm = s.abortedLm := if_pos hb
  have hdrawn := frame_drawRegions (W := []) s.draw s fun r (hr : r ∈ s.runningRegions) => holds_inRegions hr
  obtain ⟨-, hepoch, -⟩ := hdrawn.own
  refine (lmByte_congr hlm hepoch.symm a).trans (lmByte_drawRegions s.draw s.runningRegions s a (.inl ?_))
  rw [runningRegions_of_ok hd]
  exact ha

end Sys2Proof.Machine
end

section
/-! SUPPORT. The model's own fields (70_reset_and_hazards.md R466): no command reads the latency, the pending inputs, the last
read or IRQ_EN, and none writes them or the parameters, so a running command completes and an answered host stays so. -/

namespace Sys2Proof.Machine

/-! ## Fields of the host's side -/

/-- The state with other values in the fields that no command reads. -/
def State.withHost (s : State) (w d : Nat) (l : List HostInput) (r : Option Word) (b : Bool) : State :=
  { s with wait := w, draw := d, inputs := l, rdata := r, irqEn := b }

/-- A change of the next state. -/
def mapNext (f : State → State) : Host.Outcome State Fault Refusal → Host.Outcome State Fault Refusal
  | .next s => .next (f s)
  | .fault r => .fault r
  | .refused r => .refused r

section Operations

variable (s : State) (w d : Nat) (l : List HostInput) (r : Option Word) (b : Bool)

theorem appendBits_withHost (bs : List Bool) :
    (s.withHost w d l r b).appendBits bs = (s.appendBits bs).withHost w d l r b := by
  induction bs generalizing s with
  | nil => rfl
  | cons c bs ih => exact ih (s.appendBit c)

theorem append_withHost (v n : Nat) : (s.withHost w d l r b).append v n = (s.append v n).withHost w d l r b :=
  appendBits_withHost s w d l r b _

theorem assemble_withHost (v : Nat) (e : Ecc) :
    (s.withHost w d l r b).assemble v e = ((s.assemble v e).1.withHost w d l r b, (s.assemble v e).2) := by
  have hclear : (s.withHost w d l r b).clearBits = s.clearBits.withHost w d l r b := rfl
  have hdata : (s.withHost w d l r b).inBytes = s.inBytes := rfl
  have hlen (t : State) : (t.withHost w d l r b).baLen = t.baLen := rfl
  simp only [State.assemble, foldl_append_bytes]
  simp only [State.append, hclear, hdata, hlen, appendBits_withHost]

theorem interleaveToCw_withHost (v : Nat) (e : Ecc) : (s.withHost w d l r b).interleaveToCw v e =
    ((s.interleaveToCw v e).1.withHost w d l r b, (s.interleaveToCw v e).2) := (rfl)

theorem drawFunctions_withHost (v : Nat) (e : Ecc) :
    (s.withHost w d l r b).drawFunctions v e = (s.drawFunctions v e).withHost w d l r b := (rfl)

theorem writeCells_withHost (cs : List ((Nat × Nat) × Byte)) :
    (s.withHost w d l r b).writeCells cs = (s.writeCells cs).withHost w d l r b := by
  induction cs generalizing s with
  | nil => rfl
  | cons c cs ih => exact ih (s.lmStore (cellOffset c.1.1 c.1.2) [c.2])

theorem place_withHost (m n : Nat) : (s.withHost w d l r b).place m n = (s.place m n).withHost w d l r b := by
  rw [place_eq_writeCells, place_eq_writeCells, ← writeCells_withHost]
  rfl

theorem writeFormat_withHost (n v : Nat) :
    (s.withHost w d l r b).writeFormat n v = (s.writeFormat n v).withHost w d l r b := by
  rw [writeFormat_eq_writeCells, writeFormat_eq_writeCells, writeCells_withHost]

theorem candidate_withHost (e : Ecc) (n m : Nat) :
    (s.withHost w d l r b).candidate e n m = (s.candidate e n m).withHost w d l r b := by
  rw [State.candidate, place_withHost, writeFormat_withHost, State.candidate]

theorem penalties_withHost (n : Nat) : (s.withHost w d l r b).penalties n = s.penalties n := by
  have hdark : (s.withHost w d l r b).dark = s.dark := rfl
  have hrow : (s.withHost w d l r b).row = s.row := rfl
  have hcolumn : (s.withHost w d l r b).column = s.column := rfl
  simp only [State.penalties, State.lines, State.darkCount, hdark, hrow, hcolumn]

theorem setRes0_withHost (r0 : Word) :
    { s.withHost w d l r b with res := { (s.withHost w d l r b).res with r0 := r0 } } =
      State.withHost { s with res := { s.res with r0 := r0 } } w d l r b := rfl

theorem setSymbol_withHost (p : PenRegs) (q : QrInfo) (r0 r1 r2 r3 : Word) :
    { s.withHost w d l r b with
      pen := p, qrInfo := q, res := { (s.withHost w d l r b).res with r0 := r0, r1 := r1, r2 := r2, r3 := r3 } } =
      State.withHost { s with pen := p, qrInfo := q, res := { s.res with r0 := r0, r1 := r1, r2 := r2, r3 := r3 } }
        w d l r b := rfl

theorem tryMasks_withHost (e : Ecc) (n : Nat) (masks : List Nat) : (s.withHost w d l r b).tryMasks e n masks =
    ((s.tryMasks e n masks).1.withHost w d l r b, (s.tryMasks e n masks).2) := by
  induction masks generalizing s with
  | nil => rfl
  | cons m masks ih => simp only [State.tryMasks, candidate_withHost, ih, penalties_withHost]

theorem encodeVersion_withHost (v : Nat) (e : Ecc) :
    (s.withHost w d l r b).encodeVersion v e = (s.encodeVersion v e).withHost w d l r b := by
  simp only [State.encodeVersion, assemble_withHost, interleaveToCw_withHost, drawFunctions_withHost, tryMasks_withHost,
    candidate_withHost]
  exact setSymbol_withHost _ w d l r b _ _ _ _ _ _

end Operations

/-! ## The parameters -/

section Parameters

variable (s : State)

@[simp] theorem appendBits_params (bs : List Bool) : (s.appendBits bs).params = s.params := by
  obtain ⟨m, k, h⟩ := appendBits_only s bs
  rw [h]

@[simp] theorem append_params (v n : Nat) : (s.append v n).params = s.params := appendBits_params s _

@[simp] theorem assemble_params (v : Nat) (e : Ecc) : (s.assemble v e).1.params = s.params := by
  simp [State.assemble, foldl_append_bytes]

@[simp] theorem place_params (m n : Nat) : (s.place m n).params = s.params := by
  obtain ⟨l, h⟩ := place_only s m n
  rw [h]

@[simp] theorem writeFormat_params (n w : Nat) : (s.writeFormat n w).params = s.params := by
  obtain ⟨l, h⟩ := writeFormat_only s n w
  rw [h]

@[simp] theorem candidate_params (e : Ecc) (n m : Nat) : (s.candidate e n m).params = s.params := by
  simp [State.candidate]

@[simp] theorem tryMasks_params (e : Ecc) (n : Nat) (masks : List Nat) :
    (s.tryMasks e n masks).1.params = s.params := by
  induction masks generalizing s with
  | nil => rfl
  | cons m masks ih => exact (ih _).trans (candidate_params s e n m)

theorem encodeVersion_params (v : Nat) (e : Ecc) : (s.encodeVersion v e).params = s.params := by
  simp [State.encodeVersion, State.interleaveToCw, State.drawFunctions]

end Parameters

/-! ## The outcome with other fields -/

section Commands

variable {s u u' : State} {w d : Nat} {l : List HostInput} {r : Option Word} {b : Bool}

/-- The second outcome is the first with other fields of the host's side; both keep the parameters. -/
structure Follows (s : State) (w d : Nat) (l : List HostInput) (r : Option Word) (b : Bool)
    (o o' : Host.Outcome State Fault Refusal) : Prop where
  eq     : o' = mapNext (fun t => t.withHost w d l r b) o
  params : ∀ t, o = .next t → t.params = s.params

theorem Follows.raise (c : ErrCode) : Follows s w d l r b (s.raise c) ((s.withHost w d l r b).raise c) where
  eq := rfl
  params := fun t ht => by rw [raise_eq_next.mp ht]

theorem Follows.succeed (h : u' = u.withHost w d l r b) (hp : u.params = s.params := by rfl) :
    Follows s w d l r b u.succeed u'.succeed where
  eq := by rw [h]; rfl
  params := fun t ht => by rw [succeed_eq_next.mp ht]; exact hp

theorem Follows.check {p : Prop} [Decidable p] {c : ErrCode} {o o' : Host.Outcome State Fault Refusal}
    (h : ¬ p → Follows s w d l r b o o') :
    Follows s w d l r b (if p then s.raise c else o) (if p then (s.withHost w d l r b).raise c else o') := by
  split
  · exact .raise c
  · exact h ‹_›

theorem execTotalBits_follows (v : Nat) :
    Follows s w d l r b (execTotalBits v s) (execTotalBits v (s.withHost w d l r b)) :=
  .check fun _ => .check fun _ => by
    have hn : (s.withHost w d l r b).inLen = s.inLen := rfl
    simp only [hn]
    split
    · exact .succeed rfl
    · exact .succeed rfl

/-- The commands that search a version. -/
theorem Follows.search (e : Ecc) {f f' : Nat → Host.Outcome State Fault Refusal}
    (h : ∀ v, Follows s w d l r b (f v) (f' v)) :
    Follows s w d l r b
      (match selectVersion s.params.maxVersion s.inLen.toNat e with
        | none => s.raise .payloadTooLarge
        | some v => f v)
      (match selectVersion s.params.maxVersion s.inLen.toNat e with
        | none => (s.withHost w d l r b).raise .payloadTooLarge
        | some v => f' v) := by
  split
  · exact .raise _
  · exact h _

theorem execQrAssemble_follows (v : Nat) (e : Ecc) :
    Follows s w d l r b (execQrAssemble v e s) (execQrAssemble v e (s.withHost w d l r b)) :=
  .check fun _ => by
    have hn : (s.withHost w d l r b).inLen = s.inLen := rfl
    simp only [hn, assemble_withHost]
    split
    · exact .raise _
    · exact .check fun _ => .succeed rfl (assemble_params s v e)

theorem execQrFormat_follows (m : Nat) :
    Follows s w d l r b (execQrFormat m s) (execQrFormat m (s.withHost w d l r b)) :=
  .check fun _ => by
    have hq : (s.withHost w d l r b).qrInfo = s.qrInfo := rfl
    have hp := writeFormat_params s s.qrInfo.size.toNat (fmtWord s.qrInfo.ecc m)
    simp only [writeFormat_withHost, hq]
    generalize s.writeFormat s.qrInfo.size.toNat (fmtWord s.qrInfo.ecc m) = t at hp ⊢
    exact .succeed (setRes0_withHost t w d l r b _) hp

/-- A command does the same whatever the fields of the host's side hold. -/
theorem exec_follows (i : Instr) : Follows s w d l r b (exec i s) (exec i (s.withHost w d l r b)) := by
  cases i with
  | totalBits v => exact execTotalBits_follows v
  | qrAssemble v e => exact execQrAssemble_follows v e
  | qrSelect e => exact .check fun _ => .search e fun v => .succeed rfl
  | qrEncode e =>
    exact .check fun _ => .search e fun v =>
      .succeed (encodeVersion_withHost s w d l r b v e) (encodeVersion_params s v e)
  | nop => exact .succeed rfl
  | baClear => exact .succeed rfl
  | baAppend len val =>
    exact .check fun _ => .check fun _ => .succeed (append_withHost s w d l r b _ _) (append_params s _ _)
  | baPad => exact .succeed (append_withHost s w d l r b _ _) (append_params s _ _)
  | gfMul x y => exact .succeed rfl
  | gfExp n => exact .succeed rfl
  | gfLog x => exact .check fun _ => .succeed rfl
  | rsGen n => exact .check fun _ => .succeed rfl
  | rsEcc n => exact .check fun _ => .check fun _ => .succeed rfl
  | capLookup v e => exact .check fun _ => .succeed rfl
  | alignPos v => exact .check fun _ => .succeed rfl
  | blockInfo v e => exact .check fun _ => .succeed rfl
  | ccBits v => exact .check fun _ => .succeed rfl
  | utf8Put c => exact .check fun _ => .check fun _ => .succeed rfl
  | segWrite v =>
    exact .check fun _ => .check fun _ => .check fun _ => .check fun _ => .succeed (by
      rw [appendBits_withHost]
      rfl) (appendBits_params s _)
  | qrInterleave v e => exact .check fun _ => .succeed rfl
  | qrFunc v e => exact .check fun _ => .succeed rfl
  | qrPlace m =>
    exact .check fun _ => .succeed (by
      rw [place_withHost]
      rfl) (place_params s _ _)
  | qrFormat m => exact execQrFormat_follows m
  | qrPenalty =>
    exact .check fun _ => .succeed (by
      rw [penalties_withHost]
      rfl)
  | maskEval m x y => exact .check fun _ => .succeed rfl
  | fmtBch e m => exact .succeed rfl
  | verBch v => exact .succeed rfl
  | c128Map c => exact .succeed rfl
  | c128Pattern n => exact .check fun _ => .succeed rfl
  | c128Checksum => exact .check fun _ => .succeed rfl
  | c128Encode => exact .check fun _ => .succeed rfl

end Commands

/-- Settles O56: the other fields pass through every operation. -/
theorem resultsDoNotDependOnLatency : Obligations.ResultsDoNotDependOnLatency := by
  intro i s t w d l r b h
  have heq := (exec_follows (s := s) (w := w) (d := d) (l := l) (r := r) (b := b) i).eq
  rw [h] at heq
  exact heq

/-! ## What the completion of a command keeps -/

theorem exec_inputs {i : Instr} {s t : State} (h : exec i s = .next t) : t.inputs = s.inputs ∧ t.params = s.params := by
  have hf := exec_follows (s := s) (w := s.wait) (d := s.draw) (l := s.inputs) (r := s.rdata) (b := s.irqEn) i
  have heq : exec i s = mapNext (fun t => t.withHost s.wait s.draw s.inputs s.rdata s.irqEn) (exec i s) := hf.eq
  simp only [h, mapNext] at heq
  have hin := congrArg State.inputs (Host.Outcome.next.inj heq)
  exact ⟨hin, hf.params t h⟩

theorem completeCommand_inputs {s t : State} (h : s.completeCommand = .next t) :
    t.inputs = s.inputs ∧ t.params = s.params := by
  obtain ⟨i, -, heq⟩ | ⟨e, -, heq⟩ := completeCommand_cases s
  · exact exec_inputs (heq ▸ h)
  · obtain rfl := raise_eq_next.mp (heq.symm.trans h)
    exact ⟨rfl, rfl⟩

/-- A host step keeps the parameters and, but for a WAIT that polls again, the inputs still to come. -/
theorem hostStep_inputs {s t : State} {i : HostInput} (h : s.hostStep i = .next t) :
    (t.inputs = s.inputs ∨ t.inputs = .wait :: s.inputs) ∧ t.params = s.params := by
  obtain ⟨off, v, rfl⟩ | ⟨a, w, v, rfl⟩ | ⟨v, rfl⟩ | rfl | rfl := hostStep_cases h
  · obtain heq | heq | ⟨b, heq⟩ | heq | ⟨-, heq⟩ | ⟨-, heq⟩ | ⟨-, a, n, c, heq⟩ := regWrite_cases s off v <;>
      rw [heq] <;> exact ⟨.inl rfl, rfl⟩
  · obtain ⟨-, heq⟩ | heq | ⟨-, bs, heq⟩ := lmHostWrite_cases s a w v <;> rw [heq] <;> exact ⟨.inl rfl, rfl⟩
  · exact ⟨.inl rfl, rfl⟩
  · rw [State.pollStatus]
    split
    · exact ⟨.inr rfl, rfl⟩
    · exact ⟨.inl rfl, rfl⟩
  · exact ⟨.inl rfl, rfl⟩

theorem step_params {s t : State} (h : step s = .next t) : t.params = s.params := by
  obtain ⟨-, hc⟩ | ⟨-, i, rest, -, hi⟩ | ⟨-, -, rfl⟩ := step_cases h
  · exact (completeCommand_inputs hc).2
  · exact (hostStep_inputs hi).2
  · rfl

/-- Settles O57: ID is a constant and CFG a view of the parameters, which no step changes. -/
theorem noStepChangesTheParameters : Obligations.NoStepChangesTheParameters := fun _ _ h =>
  ⟨step_params h, rfl, congrArg cfgWord (step_params h)⟩

/-! ## Answered hosts -/

/-- An answered input has a next state. -/
theorem hostStep_of_answered {s : State} {i : HostInput} (h : i.answered s.params = true) :
    ∃ t, s.hostStep i = .next t := by
  cases i with
  | write addr w v =>
    obtain ⟨⟨win, off⟩, hd, hok⟩ := (Option.any_eq_true _ _).mp h
    exact (hostStep_of_accessOk hd hok v).1
  | read addr w =>
    obtain ⟨⟨win, off⟩, hd, hok⟩ := (Option.any_eq_true _ _).mp h
    exact (hostStep_of_accessOk hd hok 0).2
  | wait => exact ⟨_, rfl⟩
  | hardwareReset => exact ⟨_, rfl⟩

theorem inputsAnswered_of_eq {s t : State} (h : s.inputsAnswered) (hi : t.inputs = s.inputs) (hp : t.params = s.params) :
    t.inputsAnswered := by
  rw [State.inputsAnswered, hi, hp]
  exact h

/-- What holds of the inputs to come, and of WAIT, holds after one of them was performed. -/
theorem forall_mem_hostStep_inputs {P : HostInput → Prop} {s t : State} {i : HostInput} (hw : P .wait)
    (h : ∀ j ∈ s.inputs, P j) (ht : s.hostStep i = .next t) : ∀ j ∈ t.inputs, P j := by
  obtain ⟨hi | hi, -⟩ := hostStep_inputs ht <;> rw [hi]
  · exact h
  · exact List.forall_mem_cons.mpr ⟨hw, h⟩

/-- Settles O58: the completion of a command keeps the inputs, and an answered input leaves the ones after it. -/
theorem answeredHostsNeverFault : Obligations.AnsweredHostsNeverFault := by
  intro s h
  cases hc : s.coreMoves
  · cases hi : s.inputs with
    | nil => exact ⟨s, by simp [step, State.advance, hc, hi], h⟩
    | cons x rest =>
      rw [State.inputsAnswered, hi, List.forall_mem_cons] at h
      obtain ⟨t, ht⟩ := hostStep_of_answered (s := { s with inputs := rest, wait := s.wait - 1 }) h.1
      refine ⟨t, (step_of_input hc hi).trans ht, ?_⟩
      rw [State.inputsAnswered, (hostStep_inputs ht).2]
      exact forall_mem_hostStep_inputs rfl h.2 ht
  · obtain ⟨t, c, ht, -⟩ := everyCommandCompletesOnce s
    obtain ⟨hi, hp⟩ := completeCommand_inputs ht
    exact ⟨t, (step_of_coreMoves hc).trans ht, inputsAnswered_of_eq h hi hp⟩

/-! ## Completion -/

/-- While a command runs, the one register write that ends it is a write of CTRL with SOFT_RESET. -/
theorem regWrite_busy {s : State} (hb : s.status.busy = true) {off : Nat} {v : Word}
    (hr : off = Reg.offset .ctrl → v.getLsbD 1 = false) : (s.regWrite off v).status.busy = true := by
  rw [State.regWrite]
  cases hat : Reg.at? off with
  | none => exact hb
  | some r =>
    obtain rfl := Reg.offset_of_at? hat
    cases r with
    | ctrl =>
      show (s.writeCtrl v).status.busy = true
      rw [State.writeCtrl, if_neg (ne_true_of_eq_false (hr rfl))]
      exact hb
    | cmd | arg0 | arg1 | arg2 | inLen | chrLen =>
      show (ite (s.status.busy = true) s.dropWrite _).status.busy = true
      rw [if_pos hb]
      exact hb
    | _ => exact hb

/-- An input that does not reset leaves the command running. -/
theorem hostOnly_of_not_resets {s t : State} (hb : s.status.busy = true) {i : HostInput} (hr : i.resets s.params = false)
    (h : s.hostStep i = .next t) : HostOnly s t := by
  have hbusy : t.status.busy = true ∨ HostOnly s t := by
    cases i with
    | wait =>
      obtain rfl := Host.Outcome.next.inj h
      exact .inl (by rw [State.pollStatus, if_pos hb]; exact hb)
    | hardwareReset => cases hr
    | read addr w =>
      simp only [State.hostStep] at h
      split at h
      · cases h
      · split at h <;> cases h
        exact .inl hb
    | write addr w v =>
      simp only [State.hostStep] at h
      split at h
      · cases h
      · rename_i win off hd
        split at h <;> cases h
        cases win with
        | registers =>
          refine .inl (regWrite_busy hb fun hoff => ?_)
          simpa [HostInput.resets, hd, hoff] using hr
        | localMemory =>
          have hdrop : s.hostWrite .localMemory off w v = s.dropWrite := if_pos hb
          exact .inr (hdrop.symm ▸ hostOnly_dropWrite hb)
  obtain rfl | rfl | hkept := hostOnly_hostStep hb h
  · exact hbusy.resolve_left nofun
  · exact hbusy.resolve_left nofun
  · exact hkept

/-- A command that is due completes in one step. -/
theorem completes_of_coreMoves {s : State} (hc : s.coreMoves = true) :
    step s = s.completeCommand ∧ ∃ u, step s = .next u ∧ u.status.busy = false ∧ u.status.done = true := by
  obtain ⟨u, c, hu, hst, -⟩ := everyCommandCompletesOnce s
  exact ⟨step_of_coreMoves hc, u, (step_of_coreMoves hc).trans hu, by rw [hst], by rw [hst]⟩

/-- A run of the machine takes its first step. -/
theorem run_succ {s t : Sys2Proof.core.State} (h : Sys2Proof.core.step s = .next t) (k : Nat) :
    Sys2Proof.core.run (k + 1) s = Sys2Proof.core.run k t := by
  rw [Host.Core.run, h]

/-- Settles O55: each step before the completion performs one input and counts the latency down. -/
theorem runningCommandsComplete : Obligations.RunningCommandsComplete := by
  intro s hb ha hr
  obtain ⟨n, hn⟩ : ∃ n, s.wait = n := ⟨_, rfl⟩
  induction n generalizing s with
  | zero =>
    obtain ⟨hstep, u, hu⟩ := completes_of_coreMoves ((coreMoves_iff s).mpr ⟨hb, .inr hn⟩)
    exact ⟨0, s, u, Nat.zero_le _, rfl, rfl, hb, hstep, hu⟩
  | succ n ih =>
    cases hi : s.inputs with
    | nil =>
      obtain ⟨hstep, u, hu⟩ := completes_of_coreMoves ((coreMoves_iff s).mpr ⟨hb, .inl hi⟩)
      exact ⟨0, s, u, Nat.zero_le _, rfl, rfl, hb, hstep, hu⟩
    | cons x rest =>
      have hc : s.coreMoves = false := Bool.eq_false_iff.mpr fun h => by
        have := ((coreMoves_iff s).mp h).2
        simp [hi, hn] at this
      rw [State.inputsAnswered, hi, List.forall_mem_cons] at ha
      rw [hi, List.forall_mem_cons] at hr
      obtain ⟨t, ht⟩ := hostStep_of_answered (s := { s with inputs := rest, wait := s.wait - 1 }) ha.1
      have hp := (hostStep_inputs ht).2
      have ha' : t.inputsAnswered := by
        rw [State.inputsAnswered, hp]
        exact forall_mem_hostStep_inputs rfl ha.2 ht
      have hr' : ∀ j ∈ t.inputs, j.resets t.params = false := by
        rw [hp]
        exact forall_mem_hostStep_inputs rfl hr.2 ht
      obtain ⟨st, b, is, r, rfl, hbt, -⟩ :=
        hostOnly_of_not_resets (s := { s with inputs := rest, wait := s.wait - 1 }) hb hr.1 ht
      have hwait : s.wait - 1 = n := by omega
      obtain ⟨k, t', u, hk, hrun, hlast, hdone⟩ := ih _ hbt ha' hr' hwait
      have hk' : k ≤ s.wait - 1 := hk
      exact ⟨k + 1, t', u, by omega, (run_succ ((step_of_input hc hi).trans ht) k).trans hrun,
        hlast, hdone⟩

end Sys2Proof.Machine
end

section
/-! SUPPORT. Polynomials over GF(256) (42_gf_rs.md): their value at a point, the roots of the generator, the remainder at
those roots, and the commands that store them. -/

namespace Sys2Proof.Machine

/-! ## The GF commands -/

theorem word_toNat_byte (b : Byte) : word b.toNat = b.setWidth 32 := by
  refine BitVec.eq_of_toNat_eq ?_
  rw [word, BitVec.toNat_ofNat, BitVec.toNat_setWidth]

/-- Settles O15: products of powers of α are powers of α, and the logarithm inverts them. -/
theorem gfCommandsWriteRes0 : Obligations.GfCommandsWriteRes0 := by
  refine ⟨fun s x y => ⟨_, ((frame_refl s).setRes _).completes rfl, ?_, ?_⟩,
    fun s i _ => ⟨_, ((frame_refl s).setRes _).completes rfl, word_toNat_byte _⟩,
    fun s x hx => ⟨_, ((frame_refl s).setRes _).completes (if_neg hx), ?_⟩, fun s => ?_⟩
  · rintro (rfl | rfl)
    · exact congrArg (fun b : Byte => word b.toNat) (zero_gfMul y)
    · exact congrArg (fun b : Byte => word b.toNat) (gfMul_zero x)
  · rintro i j - - rfl rfl
    rw [gfExp_mod, ← gfMul_gfExp]
    exact word_toNat_byte _
  · obtain ⟨hlt, hexp⟩ := gfLog_spec hx
    have hw : (word (gfLog x)).toNat = gfLog x := toNat_word (by omega)
    exact ⟨hw.le.trans (by omega), (congrArg gfExp hw).trans hexp⟩
  · simp [exec, execGfLog]

/-! ## The value of a polynomial -/

theorem xor_gfMul (x y z : Byte) : gfMul (x ^^^ y) z = gfMul x z ^^^ gfMul y z := by
  rw [gfMul_comm, gfMul_xor, gfMul_comm z, gfMul_comm z]

/-- One step of Horner's rule. -/
def horner (x acc c : Byte) : Byte := gfMul acc x ^^^ c

theorem gfEval_eq_foldl (p : List Byte) (x : Byte) : gfEval p x = p.foldl (horner x) 0 := rfl

theorem foldl_horner_gfAddAll (x : Byte) {p q : List Byte} (h : p.length = q.length) (a b : Byte) :
    (gfAddAll p q).foldl (horner x) (a ^^^ b) = p.foldl (horner x) a ^^^ q.foldl (horner x) b := by
  induction p generalizing q a b with
  | nil =>
    obtain rfl := List.eq_nil_of_length_eq_zero h.symm
    rfl
  | cons c p ih =>
    obtain _ | ⟨d, q⟩ := q
    · cases h
    have hstep : horner x (a ^^^ b) (c ^^^ d) = horner x a c ^^^ horner x b d := by
      simp only [horner, xor_gfMul]
      ac_rfl
    calc (gfAddAll (c :: p) (d :: q)).foldl (horner x) (a ^^^ b)
        = (gfAddAll p q).foldl (horner x) (horner x (a ^^^ b) (c ^^^ d)) := rfl
      _ = _ := by rw [hstep, ih (Nat.succ.inj h)]; rfl

/-- A sum has the sum of the values. -/
theorem gfEval_gfAddAll {p q : List Byte} (h : p.length = q.length) (x : Byte) :
    gfEval (gfAddAll p q) x = gfEval p x ^^^ gfEval q x :=
  foldl_horner_gfAddAll x h 0 0

theorem foldl_horner_map_gfMul (x r : Byte) (p : List Byte) (a : Byte) :
    (p.map (fun c => gfMul c r)).foldl (horner x) (gfMul a r) = gfMul (p.foldl (horner x) a) r := by
  induction p generalizing a with
  | nil => rfl
  | cons c p ih =>
    have hstep : horner x (gfMul a r) (gfMul c r) = gfMul (horner x a c) r := by
      rw [horner, horner, xor_gfMul, gfMul_assoc, gfMul_comm r, ← gfMul_assoc]
    rw [List.map_cons, List.foldl_cons, hstep, ih, List.foldl_cons]

/-- A multiple has the multiple of the value. -/
theorem gfEval_map_gfMul (x r : Byte) (p : List Byte) :
    gfEval (p.map (fun c => gfMul c r)) x = gfMul (gfEval p x) r := by
  have h := foldl_horner_map_gfMul x r p 0#8
  rwa [zero_gfMul] at h

theorem gfEval_zero_cons (p : List Byte) (x : Byte) : gfEval (0 :: p) x = gfEval p x := by
  have hstep : horner x 0 0 = 0 := by simp [horner]
  rw [gfEval_eq_foldl, List.foldl_cons, hstep, gfEval_eq_foldl]

theorem gfEval_append_zero (p : List Byte) (x : Byte) : gfEval (p ++ [0]) x = gfMul (gfEval p x) x := by
  simp [gfEval]

theorem gfEval_replicate_zero (n : Nat) (x : Byte) : gfEval (List.replicate n 0) x = 0 := by
  induction n with
  | zero => rfl
  | succ n ih => rw [List.replicate_succ, gfEval_zero_cons, ih]

/-! ## The generator -/

/-- A factor `x - r` multiplies the value by it (42_gf_rs.md R176). -/
theorem gfEval_mulRoot (g : List Byte) (r x : Byte) : gfEval (mulRoot g r) x = gfMul (gfEval g x) (x ^^^ r) := by
  rw [mulRoot, gfEval_gfAddAll (by simp), gfEval_append_zero, gfEval_zero_cons, gfEval_map_gfMul, gfMul_xor]

theorem head?_mulRoot {g : List Byte} (hg : g.head? = some 1) (r : Byte) : (mulRoot g r).head? = some 1 := by
  obtain _ | ⟨c, g⟩ := g
  · cases hg
  obtain rfl : c = 1 := Option.some.inj hg
  rfl

theorem rsGen_succ (d : Nat) : rsGen (d + 1) = mulRoot (rsGen d) (gfExp d) := by
  rw [rsGen, List.range_succ, List.foldl_append]
  rfl

theorem head?_rsGen (d : Nat) : (rsGen d).head? = some 1 := by
  induction d with
  | zero => rfl
  | succ d ih => rw [rsGen_succ, head?_mulRoot ih]

theorem gfEval_rsGen {d i : Nat} (h : i < d) : gfEval (rsGen d) (gfExp i) = 0 := by
  induction d with
  | zero => omega
  | succ d ih =>
    rw [rsGen_succ, gfEval_mulRoot]
    obtain hlt | rfl := Nat.lt_succ_iff_lt_or_eq.mp h
    · exact (congrArg (gfMul · _) (ih hlt)).trans (zero_gfMul _)
    · exact (congrArg (gfMul _) BitVec.xor_self).trans (gfMul_zero _)

/-- Settles O16, by induction on the degree: each factor keeps the roots so far and adds its own. -/
theorem rsGenIsMonicWithItsRoots : Obligations.RsGenIsMonicWithItsRoots :=
  fun d _ => ⟨length_rsGen d, head?_rsGen d, fun _ => gfEval_rsGen⟩

/-! ## The remainder -/

/-- Horner's rule from a value multiplies that value by the power of the point, here a power of α. -/
theorem foldl_horner (i : Nat) (p : List Byte) (a : Byte) :
    p.foldl (horner (gfExp i)) a = gfMul a (gfExp (i * p.length)) ^^^ gfEval p (gfExp i) := by
  induction p generalizing a with
  | nil => exact (gfMul_one a).symm.trans (BitVec.xor_zero).symm
  | cons c p ih =>
    have hc : gfEval (c :: p) (gfExp i) = p.foldl (horner (gfExp i)) c := by simp [gfEval_eq_foldl, horner]
    rw [List.foldl_cons, ih, hc, ih c, horner, xor_gfMul, gfMul_assoc, gfMul_gfExp,
      List.length_cons, Nat.mul_succ, Nat.add_comm i, BitVec.xor_assoc]

theorem gfEval_cons (i : Nat) (c : Byte) (p : List Byte) :
    gfEval (c :: p) (gfExp i) = gfMul c (gfExp (i * p.length)) ^^^ gfEval p (gfExp i) := by
  have hc : gfEval (c :: p) (gfExp i) = p.foldl (horner (gfExp i)) c := by simp [gfEval_eq_foldl, horner]
  rw [hc, foldl_horner]

/-- At a root of the generator, its coefficients below the leading one have the value of the leading power. -/
theorem gfEval_tail_rsGen {e i : Nat} (h : i < e) : gfEval (rsGen e).tail (gfExp i) = gfExp (i * e) := by
  have hg : rsGen e = 1 :: (rsGen e).tail := List.eq_cons_of_mem_head? (head?_rsGen e)
  have hroot := gfEval_rsGen h
  rw [hg, gfEval_cons, List.length_tail, length_rsGen, Nat.add_sub_cancel, gfMul_comm, gfMul_one] at hroot
  exact (BitVec.xor_eq_zero_iff.mp hroot).symm

/-- At a root of the generator, a step of the division shifts the value and adds the data byte times the leading
power (42_gf_rs.md R178). -/
theorem gfEval_rsStep {e i : Nat} (h : i < e) {rem : List Byte} (hrem : rem.length = e) (d : Byte) :
    gfEval (rsStep (rsGen e) rem d) (gfExp i) =
      gfMul (gfEval rem (gfExp i)) (gfExp i) ^^^ gfMul d (gfExp (i * e)) := by
  obtain _ | ⟨c, rem⟩ := rem
  · simp at hrem; omega
  have hpow : i * rem.length + i = i * e := by rw [← hrem, List.length_cons, Nat.mul_succ]
  rw [rsStep, gfEval_gfAddAll (by simpa using hrem), gfEval_append_zero, gfEval_map_gfMul, gfEval_tail_rsGen h,
    gfEval_cons, xor_gfMul, gfMul_assoc, gfMul_gfExp, hpow, List.tail_cons, List.headD_cons, gfMul_xor,
    gfMul_comm d, gfMul_comm c]
  ac_rfl

theorem gfEval_foldl_rsStep {e i : Nat} (h : i < e) (data : List Byte) {rem : List Byte} (hrem : rem.length = e)
    {a : Byte} (ha : gfEval rem (gfExp i) = gfMul a (gfExp (i * e))) :
    gfEval (data.foldl (rsStep (rsGen e)) rem) (gfExp i) =
      gfMul (data.foldl (horner (gfExp i)) a) (gfExp (i * e)) := by
  induction data generalizing rem a with
  | nil => exact ha
  | cons d data ih =>
    refine ih ((length_rsStep (by rw [length_rsGen, hrem]) d).trans hrem) ?_
    rw [gfEval_rsStep h hrem, ha, horner, xor_gfMul, gfMul_assoc, gfMul_assoc, gfMul_comm (gfExp (i * e))]

/-- At a root of the generator the ECC bytes have the value of the data times the leading power. -/
theorem gfEval_rsEcc {e i : Nat} (h : i < e) (data : List Byte) :
    gfEval (rsEcc data e) (gfExp i) = gfMul (gfEval data (gfExp i)) (gfExp (i * e)) :=
  gfEval_foldl_rsStep h data List.length_replicate ((gfEval_replicate_zero e _).trans (zero_gfMul _).symm)

/-- Settles O17: at a root, the shifted data and the remainder have the same value. -/
theorem rsEccMakesAMultipleOfTheGenerator : Obligations.RsEccMakesAMultipleOfTheGenerator := by
  refine fun data e _ => ⟨length_rsEcc data e, fun i hi => ?_⟩
  rw [gfEval_eq_foldl, List.foldl_append, foldl_horner, length_rsEcc, gfEval_rsEcc hi]
  exact BitVec.xor_self

/-! ## The commands -/

section Store

variable (s : State) {a n : Nat} {bs : List Byte}

/-- Bytes stored where they fit read back, and nothing else changes. -/
theorem lmStore_span (hn : bs.length = n) (hfit : a + n ≤ lmEnd) {W : List Reg} :
    Frame s (s.lmStore a bs) W (span a n) ∧ (s.lmStore a bs).lmBytes a n = bs := by
  subst hn
  exact ⟨frame_lmStore s a bs fun _ h1 h2 => ⟨h1, h2⟩, lmBytes_lmStore s a bs hfit⟩

end Store

theorem execRsGen_of_fits {s : State} {d : Nat} (h : s.arg.a2.toNat + d + 1 ≤ workSize) :
    let t := s.lmStore (workBase + s.arg.a2.toNat) (rsGen d)
    execRsGen d s = { t with res := { t.res with r0 := word (d + 1) } }.succeed :=
  if_neg (by omega)

theorem execRsEcc_of_fits {s : State} {e : Nat} (hsrc : s.arg.a0.toNat + s.arg.a1.toNat ≤ workSize)
    (hdst : s.arg.a2.toNat + e ≤ workSize) :
    let t := s.lmStore (workBase + s.arg.a2.toNat) (rsEcc (s.workBytes s.arg.a0.toNat s.arg.a1.toNat) e)
    execRsEcc e s = { t with res := { t.res with r0 := word e } }.succeed :=
  (if_neg (by omega)).trans (if_neg (by omega))

theorem work_fits {o n : Nat} (h : o + n ≤ 1024) : workBase + o + n ≤ lmEnd := by
  have hwork : workBase + 1024 ≤ lmEnd := by decide
  omega

/-- Settles O18: the data is read from the state before, and the bytes stored lie inside WORK. -/
theorem rsCommandsStoreAtArg2 : Obligations.RsCommandsStoreAtArg2 := by
  refine ⟨fun s d h => ?_, fun s e hsrc hdst => ?_⟩
  · obtain ⟨hframe, hbytes⟩ := lmStore_span s (W := [.res0]) (length_rsGen d) (work_fits h)
    exact ⟨_, (hframe.setRes _).completes (execRsGen_of_fits h), toNat_word (by omega), hbytes⟩
  · obtain ⟨hframe, hbytes⟩ := lmStore_span s (W := [.res0])
      (length_rsEcc (s.workBytes s.arg.a0.toNat s.arg.a1.toNat) e) (work_fits hdst)
    exact ⟨_, (hframe.setRes _).completes (execRsEcc_of_fits hsrc hdst), toNat_word (by omega), hbytes⟩

end Sys2Proof.Machine
end

section
/-! SUPPORT. The lookup commands (43_capacity.md), the segment queries and UTF-8 input (44_segment.md). -/

namespace Sys2Proof.Machine

/-! ## Lookups -/

theorem alignmentPositions_bounds {v : Nat} (h1 : 1 ≤ v) (h10 : v ≤ 10) :
    packPositions (alignmentPositions v) = (alignmentPositions v).getD 0 0 + 2 ^ 8 * (alignmentPositions v).getD 1 0 +
      2 ^ 16 * (alignmentPositions v).getD 2 0 ∧ packPositions (alignmentPositions v) < 2 ^ 32 ∧
      (alignmentPositions v).length < 2 ^ 32 := by
  interval_cases v <;> decide

/-- The table entries of a version fit in a register, and no block is shorter than its ECC codewords. -/
theorem capacities_bounds {v : Nat} (h1 : 1 ≤ v) (h10 : v ≤ 10) (e : Ecc) :
    dataCodewords v e < 2 ^ 32 ∧ 0 < numBlocks v e ∧ numBlocks v e < 2 ^ 32 ∧ eccPerBlock v e < 2 ^ 32 ∧
      totalRawDataModules v < 2 ^ 32 ∧ eccPerBlock v e ≤ totalRawDataModules v / 8 / numBlocks v e := by
  cases e <;> interval_cases v <;> decide

/-- Settles O19: the registers hold table entries, all of them far below 2^32. -/
theorem tableCommandsReturnTheirEntries : Obligations.TableCommandsReturnTheirEntries := by
  intro s v e h1 h10
  have hv : ¬ tableVersion v = false := by rw [(tableVersion_iff v).mpr ⟨h1, h10⟩]; decide
  obtain ⟨hdata, hpos, hblocks, hecc, hmodules, hle⟩ := capacities_bounds h1 h10 e
  obtain ⟨hpack, hpacklt, hlen⟩ := alignmentPositions_bounds h1 h10
  have hraw : totalRawDataModules v / 8 < 2 ^ 32 := by omega
  have hshort : totalRawDataModules v / 8 / numBlocks v e ≤ totalRawDataModules v / 8 := Nat.div_le_self _ _
  have hrest : totalRawDataModules v / 8 % numBlocks v e < numBlocks v e := Nat.mod_lt _ hpos
  refine ⟨⟨_, ((frame_refl s).setRes _).completes (if_neg hv), toNat_word hdata, toNat_word hblocks, toNat_word hecc,
      toNat_word hmodules, toNat_word (by rw [gridSize]; omega)⟩,
    ⟨_, ((frame_refl s).setRes _).completes (if_neg hv), toNat_word hlen, (toNat_word hpacklt).trans hpack⟩,
    ⟨_, ((frame_refl s).setRes _).completes (if_neg hv), toNat_word hraw, toNat_word (hshort.trans_lt hraw), ?_, ?_, ?_⟩⟩ <;>
    simp only [blockSplit, rawCodewords] <;> rw [toNat_word (by omega)]
  · omega
  · rw [toNat_word (by omega)]
    omega
  · omega

/-! ## Queries of a segment -/

theorem execTotalBits_of_fits {s : State} {v : Nat} (hv : 1 ≤ v ∧ v ≤ 40) (hn : s.inLen.toNat ≤ 512)
    (hfit : s.inLen.toNat ≤ 2 ^ ccBits v - 1) :
    execTotalBits v s =
      State.succeed { s with res := { s.res with r0 := word (4 + ccBits v + 8 * s.inLen.toNat), r1 := 0 } } := by
  simp [execTotalBits, (segmentVersion_iff v).mpr hv, Nat.not_lt.mpr hn, totalBits_eq, Nat.not_lt.mpr hfit]

theorem execTotalBits_of_overflow {s : State} {v : Nat} (hv : 1 ≤ v ∧ v ≤ 40) (hn : s.inLen.toNat ≤ 512)
    (hfit : 2 ^ ccBits v - 1 < s.inLen.toNat) :
    execTotalBits v s = State.succeed { s with res := { s.res with r0 := 0, r1 := 1 } } := by
  simp [execTotalBits, (segmentVersion_iff v).mpr hv, Nat.not_lt.mpr hn, totalBits_eq, hfit]

/-- Settles O21: the count field has 8 bits up to version 9 and 16 after it. -/
theorem segmentQueriesReturnTheirCounts : Obligations.SegmentQueriesReturnTheirCounts := by
  intro s v h1 h40
  have hv : ¬ segmentVersion v = false := by rw [(segmentVersion_iff v).mpr ⟨h1, h40⟩]; decide
  refine ⟨⟨_, ((frame_refl s).setRes _).completes (if_neg hv), ?_⟩, fun hn => ?_⟩
  · rw [ccBits_eq]
    split <;> rfl
  by_cases hfit : s.inLen.toNat ≤ 2 ^ ccBits v - 1
  · refine ⟨_, ((frame_refl s).setRes _).completes (execTotalBits_of_fits ⟨h1, h40⟩ hn hfit), ?_⟩
    rw [ccBits_eq] at hfit ⊢
    by_cases h9 : v ≤ 9
    · rw [if_pos h9] at hfit ⊢
      exact ⟨fun h => by omega, fun _ => ⟨toNat_word (by omega), rfl⟩, fun h => by omega⟩
    · rw [if_neg h9]
      exact ⟨fun h => by omega, fun h => by omega, fun _ => ⟨toNat_word (by omega), rfl⟩⟩
  · have hlt := Nat.not_le.mp hfit
    refine ⟨_, ((frame_refl s).setRes _).completes (execTotalBits_of_overflow ⟨h1, h40⟩ hn hlt), ?_⟩
    rw [ccBits_eq] at hlt
    by_cases h9 : v ≤ 9
    · rw [if_pos h9] at hlt
      exact ⟨fun _ => ⟨rfl, rfl⟩, fun h => by omega, fun h => by omega⟩
    · rw [if_neg h9] at hlt
      exact absurd hlt (by omega)

/-! ## UTF-8 input -/

/-- A byte put together from a marker and the bits below it is their concatenation. -/
theorem byte_or_eq_append {m n : Nat} (h : m + n = 8) (p : BitVec m) (x : BitVec n) :
    (byte (p.toNat <<< n ||| x.toNat)).toNat = (p ++ x).toNat := by
  have hlt : (p ++ x).toNat < 2 ^ 8 := h ▸ (p ++ x).isLt
  rw [BitVec.toNat_append] at hlt ⊢
  exact Nat.mod_eq_of_lt hlt

theorem utf8_two {u : Half} (h : u.toNat < 0x800) :
    byte (0xC0 ||| u.toNat >>> 6) = 0b110#3 ++ u.extractLsb' 6 5 := by
  have hx : u.toNat >>> 6 = (u.extractLsb' 6 5).toNat := by
    rw [BitVec.extractLsb'_toNat, Nat.mod_eq_of_lt]
    omega
  exact BitVec.eq_of_toNat_eq (hx ▸ byte_or_eq_append rfl 0b110#3 (u.extractLsb' 6 5))

theorem utf8_three (u : Half) : byte (0xE0 ||| u.toNat >>> 12) = 0b1110#4 ++ u.extractLsb' 12 4 := by
  have hx : u.toNat >>> 12 = (u.extractLsb' 12 4).toNat := by
    rw [BitVec.extractLsb'_toNat, Nat.mod_eq_of_lt]
    omega
  exact BitVec.eq_of_toNat_eq (hx ▸ byte_or_eq_append rfl 0b1110#4 (u.extractLsb' 12 4))

/-- A continuation byte holds six bits of the unit. -/
theorem utf8_continuation (u : Half) (i : Nat) :
    byte (0x80 ||| u.toNat >>> i &&& 0x3F) = 0b10#2 ++ u.extractLsb' i 6 := by
  have hx : u.toNat >>> i &&& 0x3F = (u.extractLsb' i 6).toNat := by
    rw [BitVec.extractLsb'_toNat]
    exact Nat.and_two_pow_sub_one_eq_mod _ 6
  exact BitVec.eq_of_toNat_eq (hx ▸ byte_or_eq_append rfl 0b10#2 (u.extractLsb' i 6))

/-- The expansion of a code unit, written as concatenated fields (44_segment.md R235). -/
theorem utf8_eq (u : Half) : utf8 u.toNat = if u.toNat < 0x80 then [u.setWidth 8]
      else if u.toNat < 0x800 then [0b110#3 ++ u.extractLsb' 6 5, 0b10#2 ++ u.extractLsb' 0 6]
      else [0b1110#4 ++ u.extractLsb' 12 4, 0b10#2 ++ u.extractLsb' 6 6, 0b10#2 ++ u.extractLsb' 0 6] := by
  have hone : byte u.toNat = u.setWidth 8 := BitVec.eq_of_toNat_eq (BitVec.toNat_setWidth 8 u).symm
  have hlast : byte (0x80 ||| u.toNat &&& 0x3F) = 0b10#2 ++ u.extractLsb' 0 6 := utf8_continuation u 0
  rw [utf8]
  split
  · rw [hone]
  · split
    · rw [utf8_two ‹_›, hlast]
    · rw [utf8_three, utf8_continuation, hlast]

theorem execUtf8Put_of_fits {s : State} {u : Half} (h : s.inLen.toNat + (utf8 u.toNat).length ≤ inCapacity) :
    execUtf8Put u s = State.succeed { s.lmStore (inBase + s.inLen.toNat) (utf8 u.toNat) with
      inLen := BitVec.ofNat 10 (s.inLen.toNat + (utf8 u.toNat).length)
      res := { (s.lmStore (inBase + s.inLen.toNat) (utf8 u.toNat)).res with r0 := word (utf8 u.toNat).length } } :=
  (if_neg (by omega)).trans (if_neg (by omega))

/-- Settles O22: the bytes of the unit are stored after the input. -/
theorem utf8PutAppendsTheExpansion : Obligations.Utf8PutAppendsTheExpansion := by
  intro s u b hb hfit
  obtain rfl : utf8 u.toNat = b := (utf8_eq u).trans hb.symm
  have hin : inBase + 512 ≤ lmEnd := by decide
  obtain ⟨hframe, hbytes⟩ := lmStore_span s (W := [.res0, .inLen]) (a := inBase + s.inLen.toNat) rfl
    (show inBase + s.inLen.toNat + (utf8 u.toNat).length ≤ lmEnd by omega)
  have hx := execUtf8Put_of_fits (s := s) (u := u) hfit
  generalize s.lmStore (inBase + s.inLen.toNat) (utf8 u.toNat) = t at hframe hbytes hx
  have hend := hframe.trans (frame_setInLen t (BitVec.ofNat 10 (s.inLen.toNat + (utf8 u.toNat).length)) (by simp))
  refine ⟨_, (hend.setRes _).completes hx, hbytes, ?_, toNat_word (by omega)⟩
  exact (BitVec.toNat_ofNat _ _).trans (Nat.mod_eq_of_lt (by omega))

end Sys2Proof.Machine
end

section
/-! SUPPORT. Masks, format and version words, the format cells (46_qr_matrix.md sections 3 to 5), and the run cost of a line
(47_qr_penalty.md R350). -/

namespace Sys2Proof.Machine

/-! ## Runs -/

theorem runFrom_cons_cons (a b : Bool) (l : List Bool) (k : Nat) :
    runFrom (a :: b :: l) (k + 2) = runFrom (b :: l) (k + 1) := by
  simp [runFrom]

/-- The first module after a module of another colour starts a run. -/
theorem runFrom_one_of_ne {b c : Bool} (h : c ≠ b) (l : List Bool) :
    runFrom (b :: c :: l) 1 = 1 + (l.takeWhile (· == c)).length := by
  simp [runFrom, h, Nat.add_comm]

theorem runFrom_one_self (b : Bool) (l : List Bool) : runFrom (b :: b :: l) 1 = 0 := by simp [runFrom]

theorem sum_range_succ_map (f : Nat → Nat) (n : Nat) :
    ((List.range (n + 1)).map f).sum = f 0 + ((List.range n).map fun k => f (k + 1)).sum := by
  rw [List.range_succ_eq_map, List.map_cons, List.sum_cons, List.map_map]
  rfl

/-- Scanning on from a run of length `r` costs that run to its end and each run that starts later. -/
theorem runCosts_eq_sum (b : Bool) (r : Nat) (l : List Bool) : runCosts b r l =
    runCost (r + (l.takeWhile (· == b)).length) +
      ((List.range l.length).map fun k => runCost (runFrom (b :: l) (k + 1))).sum := by
  induction l generalizing b r with
  | nil => rfl
  | cons c l ih =>
    rw [List.length_cons, sum_range_succ_map, runCosts]
    simp only [runFrom_cons_cons]
    by_cases h : c = b
    · subst h
      have hzero : runCost 0 = 0 := rfl
      rw [if_pos rfl, ih, runFrom_one_self, hzero, Nat.zero_add, List.takeWhile_cons_of_pos (by simp), List.length_cons,
        Nat.add_right_comm, Nat.add_assoc r]
    · rw [if_neg h, ih, runFrom_one_of_ne h, List.takeWhile_cons_of_neg (by simpa using h)]
      rfl

/-- Settles O34: the first run starts at the first module, and the scan costs the later ones where they start. -/
theorem runCostsSumOverMaximalRuns : Obligations.RunCostsSumOverMaximalRuns := by
  intro line
  change lineRunCost line = ((List.range line.length).map fun k => runCost (runFrom line k)).sum
  cases line with
  | nil => rfl
  | cons b l =>
    have hfirst : runFrom (b :: l) 0 = 1 + (l.takeWhile (· == b)).length := by simp [runFrom, Nat.add_comm]
    rw [lineRunCost, runCosts_eq_sum, List.length_cons, sum_range_succ_map, hfirst]

/-! ## Masks and words -/

theorem word_toNat_bool (b : Bool) : (word b.toNat = 0 ∨ word b.toNat = 1) ∧ (word b.toNat = 1 ↔ b = true) := by
  cases b <;> decide

/-- Every format word is a multiple of the format polynomial (46_qr_matrix.md R319). -/
theorem exists_gf2Mul_fmtRem : ∀ d < 32, fmtRem d < 2 ^ 10 ∧ ∃ q < 64, gf2Mul q 0x537 = 2 ^ 10 * d + fmtRem d := by
  decide +kernel

/-- Every version word is a multiple of the version polynomial (46_qr_matrix.md R326). -/
theorem exists_gf2Mul_verRem : ∀ v < 64, verRem v < 2 ^ 12 ∧ ∃ q < 64, gf2Mul q 0x1F25 = 2 ^ 12 * v + verRem v := by
  decide +kernel

theorem fmtData_eq (e : Ecc) {m : Nat} (hm : m ≤ 7) : fmtData e m = 8 * fmtEcc e + m ∧ fmtData e m < 32 := by
  cases e <;> interval_cases m <;> decide

theorem shiftLeft_or_eq {n r : Nat} (d : Nat) (h : r < 2 ^ n) : d <<< n ||| r = 2 ^ n * d + r := by
  rw [Nat.two_pow_add_eq_or_of_lt h, Nat.shiftLeft_eq, Nat.mul_comm]

theorem fmtWord_eq (e : Ecc) (m : Nat) (h : fmtRem (fmtData e m) < 2 ^ 10) :
    fmtWord e m = (2 ^ 10 * fmtData e m + fmtRem (fmtData e m)) ^^^ 0x5412 := by
  rw [fmtWord, shiftLeft_or_eq _ h]

theorem fmtWord_lt (e : Ecc) {m : Nat} (hm : m ≤ 7) : fmtWord e m < 2 ^ 32 := by
  obtain ⟨-, hlt⟩ := fmtData_eq e hm
  obtain ⟨hrem, -⟩ := exists_gf2Mul_fmtRem _ hlt
  rw [fmtWord_eq e m hrem]
  exact Nat.xor_lt_two_pow (by omega) (by decide)

/-- Settles O33: the mask conditions, and remainders that make the words multiples of their polynomials. -/
theorem maskAndBchCommandsReturnTheirWords : Obligations.MaskAndBchCommandsReturnTheirWords := by
  refine ⟨fun s m x y hm => ?_, fun s e m hm => ?_, fun s v hv => ?_⟩
  · obtain ⟨hbit, hone⟩ := word_toNat_bool (maskFn m x y)
    refine ⟨_, ((frame_refl s).setRes _).completes (if_neg (by omega)), hbit, ?_, ?_⟩
    · rintro rfl rfl
      refine hone.mpr ?_
      interval_cases m <;> rfl
    · refine ⟨?_, ?_, ?_, ?_, ?_, ?_, ?_, ?_⟩ <;> rintro rfl <;> refine hone.trans ?_ <;> simp [maskFn]
  · obtain ⟨hdata, hlt⟩ := fmtData_eq e hm
    obtain ⟨hrem, q, -, hq⟩ := exists_gf2Mul_fmtRem _ hlt
    have hr1 : (word (fmtData e m)).toNat = fmtData e m := toNat_word (by omega)
    have hr2 : (word (fmtRem (fmtData e m))).toNat = fmtRem (fmtData e m) := toNat_word (by omega)
    refine ⟨_, ((frame_refl s).setRes _).completes rfl, hr1.trans hdata, ?_⟩
    simp only [hr1, hr2]
    refine ⟨hrem, ⟨q, hq⟩, ?_⟩
    rw [← fmtWord_eq e m hrem]
    exact toNat_word (fmtWord_lt e hm)
  · obtain ⟨hrem, q, -, hq⟩ := exists_gf2Mul_verRem v hv
    have hinfo : verInfo v = 2 ^ 12 * v + verRem v := shiftLeft_or_eq v hrem
    have hr0 : (word (verInfo v)).toNat = verInfo v := toNat_word (by omega)
    have hr1 : (word (verRem v)).toNat = verRem v := toNat_word (by omega)
    refine ⟨_, ((frame_refl s).setRes _).completes rfl, ?_⟩
    simp only [hr0, hr1]
    exact ⟨hrem, hinfo, q, hq.trans hinfo.symm⟩

/-! ## The format cells -/

/-- The symbol of a state with function patterns has the size of a version (10_state.md R43). -/
theorem exists_version {s : State} (h : Inv s) (hf : s.qrInfo.funcValid = true) :
    ∃ v, 1 ≤ v ∧ v ≤ 10 ∧ s.qrInfo.size.toNat = gridSize v := by
  obtain ⟨-, -, -, ⟨hdrawn, -⟩, -⟩ := h
  exact ⟨_, hdrawn hf⟩

/-- A format cell holds its bit of the written word as a function module (46_qr_matrix.md R324). -/
theorem functionModule_writeFormat (s : State) (w : Nat) {v : Nat} (h1 : 1 ≤ v) (h10 : v ≤ 10) {c : (Nat × Nat) × Nat}
    (hc : c ∈ formatCells (gridSize v)) :
    (s.writeFormat (gridSize v) w).functionModule c.1.1 c.1.2 (w.testBit c.2) := by
  have hbyte : (s.writeFormat (gridSize v) w).lmByte (cellOffset c.1.1 c.1.2) = funcCell (w.testBit c.2) := by
    rw [writeFormat_eq_writeCells]
    refine lmByte_writeCells_of_mem s _ (fun d hd => ?_) ?_ (c.1, funcCell (w.testBit c.2))
      (List.mem_map.mpr ⟨c, hc, rfl⟩)
    · obtain ⟨f, hf, rfl⟩ := List.mem_map.mp hd
      exact lt_of_mem_formatCells (gridSize_le h10) hf
    · rw [List.map_map]
      exact nodup_formatCells h1 h10
  exact ⟨by rw [State.func, hbyte, funcCell_getLsbD_one], dark_writeFormat s w h1 h10 hc⟩

/-- Writing cells stores in those cells alone. -/
theorem frame_writeCells_cells (s : State) (cs : List ((Nat × Nat) × Byte)) {W : List Reg} {P : Nat → Prop}
    (hP : ∀ c ∈ cs, P (cellOffset c.1.1 c.1.2)) : Frame s (s.writeCells cs) W P := by
  have hl : LmKept s (s.writeCells cs) P := fun a ha =>
    lmByte_writeCells_of_not_mem s cs a fun c hc heq => ha (heq ▸ hP c hc)
  obtain ⟨m, h⟩ := writeCells_only s cs
  rw [h] at hl ⊢
  exact frame_of_lm s m hl

/-- The format write stores in the format cells alone. -/
theorem frame_writeFormat_cells (s : State) (n w : Nat) {W : List Reg} : Frame s (s.writeFormat n w) W
    (fun a => ∃ i, i ≤ 14 ∧ (a = cellOffset (fmt1 i).1 (fmt1 i).2 ∨ a = cellOffset (fmt2 i n).1 (fmt2 i n).2)) := by
  rw [writeFormat_eq_writeCells]
  refine frame_writeCells_cells s _ fun c hc => ?_
  obtain ⟨d, hd, rfl⟩ := List.mem_map.mp hc
  obtain ⟨i, hi, heq⟩ := (exists_mem_formatCells_iff_le n d.1).mp ⟨d, hd, rfl⟩
  exact ⟨i, hi, heq.imp (congrArg fun p : Nat × Nat => cellOffset p.1 p.2)
    (congrArg fun p : Nat × Nat => cellOffset p.1 p.2)⟩

theorem exec_qrFormat_of_funcValid {s t : State} {m w : Nat} (hf : s.qrInfo.funcValid = true)
    (hw : fmtWord s.qrInfo.ecc m = w) (ht : s.writeFormat s.qrInfo.size.toNat w = t) :
    exec (.qrFormat m) s = State.succeed { t with res := { t.res with r0 := word w } } := by
  subst hw ht
  have h : ¬ s.qrInfo.funcValid = false := by rw [hf]; decide
  exact if_neg h

/-- Cells are read from LM alone. -/
theorem functionModule_congr {s t : State} {x y : Nat} {d : Bool} (h : s.functionModule x y d) (hl : t.lm = s.lm)
    (he : t.lmEpoch = s.lmEpoch) : t.functionModule x y d := by
  have hb : t.lmByte (cellOffset x y) = s.lmByte (cellOffset x y) := lmByte_congr hl he _
  obtain ⟨hfunc, hdark⟩ := h
  exact ⟨(congrArg (BitVec.getLsbD · 1) hb).trans hfunc, (congrArg (BitVec.getLsbD · 0) hb).trans hdark⟩

/-- Settles O31: the 30 format cells are different cells, so each keeps the bit written to it. -/
theorem qrFormatWritesBothCopies : Obligations.QrFormatWritesBothCopies := by
  rintro s m n hinv hf rfl hm
  obtain ⟨v, h1, h10, hv⟩ := exists_version hinv hf
  have hlt : fmtWord s.qrInfo.ecc m < 2 ^ 32 := fmtWord_lt _ (by omega)
  generalize hw : fmtWord s.qrInfo.ecc m = w at hlt ⊢
  have hframe := frame_writeFormat_cells (W := [.res0]) s s.qrInfo.size.toNat w
  have hcells : ∀ c ∈ formatCells s.qrInfo.size.toNat,
      (s.writeFormat s.qrInfo.size.toNat w).functionModule c.1.1 c.1.2 (w.testBit c.2) := by
    rw [hv]
    exact fun c => functionModule_writeFormat s w h1 h10
  generalize ht : s.writeFormat s.qrInfo.size.toNat w = t at hframe hcells
  refine ⟨_, (hframe.setRes _).completes (exec_qrFormat_of_funcValid hf hw ht), toNat_word hlt, fun i hi => ?_⟩
  obtain ⟨hc1, hc2⟩ := mem_formatCells_of_le s.qrInfo.size.toNat hi
  have hbit1 := hcells _ hc1
  have hbit2 := hcells _ hc2
  exact ⟨functionModule_congr hbit1 rfl rfl, functionModule_congr hbit2 rfl rfl⟩

end Sys2Proof.Machine
end

section
/-! SUPPORT. The colours of the function patterns (46_qr_matrix.md R300 to R309): where each pattern draws, and in which
colour. -/

namespace Sys2Proof.Machine

/-! ## What a drawing holds -/

/-- Drawing steps one after the other add what each of them adds. -/
theorem mem_foldl_drawing {α : Type} {f : Drawing → α → Drawing} {Q : α → (Nat × Nat) × Bool → Prop}
    (hf : ∀ g a c, c ∈ f g a → Q a c ∨ c ∈ g) {l : List α} {g : Drawing} {c : (Nat × Nat) × Bool}
    (h : c ∈ l.foldl f g) : (∃ a ∈ l, Q a c) ∨ c ∈ g := by
  induction l generalizing g with
  | nil => exact .inr h
  | cons a l ih =>
    rw [List.exists_mem_cons_iff]
    obtain hl | hg := ih h
    · exact .inl (.inr hl)
    · exact (hf g a c hg).imp_left .inl

section Layers

variable {g : Drawing} {x y n : Nat} {d : Bool}

theorem mem_drawFinder {cx cy : Nat} (h : ((x, y), d) ∈ drawFinder n cx cy g) :
    ((x, y) ∈ squareAround cx cy 4 n ∧ d = (cheb x y cx cy != 2 && cheb x y cx cy != 4)) ∨ ((x, y), d) ∈ g := by
  refine (mem_foldl_drawing (Q := fun p c => c = (p, cheb p.1 p.2 cx cy != 2 && cheb p.1 p.2 cx cy != 4))
    (fun g p c hc => List.mem_cons.mp hc) h).imp_left ?_
  rintro ⟨p, hp, heq⟩
  obtain ⟨rfl, rfl⟩ := Prod.mk.inj heq
  exact ⟨hp, rfl⟩

/-- The centres of the finders (46_qr_matrix.md R303). -/
def finderCentres (n : Nat) : List (Nat × Nat) := [(3, 3), (n - 4, 3), (3, n - 4)]

theorem mem_drawFinders (h : ((x, y), d) ∈ drawFinders n g) :
    (∃ c ∈ finderCentres n, (x, y) ∈ squareAround c.1 c.2 4 n ∧
      d = (cheb x y c.1 c.2 != 2 && cheb x y c.1 c.2 != 4)) ∨ ((x, y), d) ∈ g := by
  obtain h | h := mem_drawFinder h
  · exact .inl ⟨(3, n - 4), by simp [finderCentres], h⟩
  obtain h | h := mem_drawFinder h
  · exact .inl ⟨(n - 4, 3), by simp [finderCentres], h⟩
  obtain h | h := mem_drawFinder h
  · exact .inl ⟨(3, 3), by simp [finderCentres], h⟩
  · exact .inr h

theorem mem_drawTimingCell {a b i : Nat} (h : ((x, y), d) ∈ drawTimingCell g a b i) :
    (g.func x y = false ∧ x = a ∧ y = b ∧ d = (i % 2 == 0)) ∨ ((x, y), d) ∈ g := by
  rw [drawTimingCell] at h
  split at h
  · exact .inr h
  next hg =>
    refine (List.mem_cons.mp h).imp_left fun heq => ?_
    simp only [Prod.mk.injEq] at heq
    obtain ⟨⟨rfl, rfl⟩, rfl⟩ := heq
    exact ⟨Bool.eq_false_iff.mpr hg, rfl, rfl, rfl⟩

/-- The timing patterns stay out of what is drawn before them (46_qr_matrix.md R304). -/
theorem mem_drawTiming (h : ((x, y), d) ∈ drawTiming n g) :
    (g.func x y = false ∧ ((y = 6 ∧ d = (x % 2 == 0)) ∨ (x = 6 ∧ d = (y % 2 == 0)))) ∨ ((x, y), d) ∈ g := by
  rw [drawTiming] at h
  generalize List.range n = l at h
  induction l generalizing g with
  | nil => exact .inr h
  | cons i l ih =>
    have hmono {a b j : Nat} {g : Drawing} (hf : (drawTimingCell g a b j).func x y = false) : g.func x y = false := by
      rw [← Bool.not_eq_true, func_drawTimingCell] at hf
      exact Bool.eq_false_iff.mpr fun hg => hf (.inr hg)
    obtain ⟨hf, hd⟩ | h := ih h
    · exact .inl ⟨hmono (hmono hf), hd⟩
    obtain ⟨hf, rfl, rfl, hd⟩ | h := mem_drawTimingCell h
    · exact .inl ⟨hmono hf, .inr ⟨rfl, hd⟩⟩
    obtain ⟨hf, rfl, rfl, hd⟩ | h := mem_drawTimingCell h
    · exact .inl ⟨hf, .inl ⟨rfl, hd⟩⟩
    · exact .inr h

theorem mem_drawAlignment {v : Nat} (h : ((x, y), d) ∈ drawAlignment v g) :
    (∃ c ∈ alignmentCentres v, (x, y) ∈ squareAround c.1 c.2 2 (gridSize v) ∧ d = (cheb x y c.1 c.2 != 1)) ∨
      ((x, y), d) ∈ g := by
  refine mem_foldl_drawing (Q := fun c p => p.1 ∈ squareAround c.1 c.2 2 (gridSize v) ∧
    p.2 = (cheb p.1.1 p.1.2 c.1 c.2 != 1)) (fun g c p hp => ?_) h
  refine (mem_foldl_drawing (Q := fun a q => q = (a, cheb a.1 a.2 c.1 c.2 != 1)) (fun g a q hq => List.mem_cons.mp hq)
    hp).imp_left ?_
  rintro ⟨a, ha, rfl⟩
  exact ⟨ha, rfl⟩

theorem mem_drawFormatArea (h : ((x, y), d) ∈ drawFormatArea n g) :
    (x = 8 ∧ y = n - 8 ∧ d = true) ∨ ((∃ c ∈ formatCells n, c.1 = (x, y)) ∧ d = false) ∨ ((x, y), d) ∈ g := by
  refine (List.mem_cons.mp h).imp (fun heq => ?_) fun h => ?_
  · simp only [Prod.mk.injEq] at heq
    exact ⟨heq.1.1, heq.1.2, heq.2⟩
  · refine (mem_foldl_drawing (Q := fun c p => p = (c.1, false)) (fun g c p hp => List.mem_cons.mp hp) h).imp_left ?_
    rintro ⟨c, hc, heq⟩
    obtain ⟨hp, rfl⟩ := Prod.mk.inj heq
    exact ⟨⟨c, hc, hp.symm⟩, rfl⟩

theorem mem_drawVersion {v : Nat} (h : ((x, y), d) ∈ drawVersion v n g) :
    (7 ≤ v ∧ ∃ i < 18, d = (verInfo v).testBit i ∧
      ((x = n - 11 + i % 3 ∧ y = i / 3) ∨ (x = i / 3 ∧ y = n - 11 + i % 3))) ∨ ((x, y), d) ∈ g := by
  rw [drawVersion] at h
  split at h
  next hv =>
    refine (mem_foldl_drawing (Q := fun i p => p.2 = (verInfo v).testBit i ∧
      ((p.1.1 = n - 11 + i % 3 ∧ p.1.2 = i / 3) ∨ (p.1.1 = i / 3 ∧ p.1.2 = n - 11 + i % 3))) (fun g i p hp => ?_)
      h).imp_left ?_
    · obtain rfl | hp := List.mem_cons.mp hp
      · exact .inl ⟨rfl, .inr ⟨rfl, rfl⟩⟩
      obtain rfl | hp := List.mem_cons.mp hp
      · exact .inl ⟨rfl, .inl ⟨rfl, rfl⟩⟩
      · exact .inr hp
    · rintro ⟨i, hi, hd⟩
      exact ⟨hv, i, List.mem_range.mp hi, hd⟩
  · exact .inr h

end Layers

theorem mem_of_lookup {g : Drawing} {p : Nat × Nat} {d : Bool} (h : g.lookup p = some d) : (p, d) ∈ g := by
  obtain ⟨l, r, rfl, -⟩ := List.lookup_eq_some_iff.mp h
  simp

/-! ## Which pattern draws a cell -/

/-- The pattern that draws a cell of a symbol of size `n` in a colour (46_qr_matrix.md R303 to R309). -/
inductive DrawnBy (v n x y : Nat) (d : Bool) : Prop
  | finder (c : Nat × Nat) (hc : c ∈ finderCentres n)
      (hnear : x ≤ c.1 + 4 ∧ c.1 ≤ x + 4 ∧ y ≤ c.2 + 4 ∧ c.2 ≤ y + 4)
      (hd : d = (cheb x y c.1 c.2 != 2 && cheb x y c.1 c.2 != 4))
  | timing (hxy : (y = 6 ∧ 8 ≤ x ∧ x < n - 8 ∧ d = (x % 2 == 0)) ∨ (x = 6 ∧ 8 ≤ y ∧ y < n - 8 ∧ d = (y % 2 == 0)))
  | alignment (c : Nat × Nat) (hc : c ∈ alignmentCentres v)
      (hnear : x ≤ c.1 + 2 ∧ c.1 ≤ x + 2 ∧ y ≤ c.2 + 2 ∧ c.2 ≤ y + 2) (hd : d = (cheb x y c.1 c.2 != 1))
  | format (hxy : (x = 8 ∧ y ≤ 8 ∧ y ≠ 6) ∨ (y = 8 ∧ x ≤ 8 ∧ x ≠ 6) ∨ (y = 8 ∧ n - 8 ≤ x) ∨ (x = 8 ∧ n - 7 ≤ y))
      (hd : d = false)
  | darkModule (hx : x = 8) (hy : y = n - 8) (hd : d = true)
  | version (i : Nat) (hv : 7 ≤ v) (hd : d = (verInfo v).testBit i)
      (hxy : (x = n - 11 + i % 3 ∧ y = i / 3) ∨ (x = i / 3 ∧ y = n - 11 + i % 3)) (hi : i < 18)

theorem finderCentres_cases {n : Nat} {c : Nat × Nat} (h : c ∈ finderCentres n) :
    (c.1 = 3 ∧ c.2 = 3) ∨ (c.1 = n - 4 ∧ c.2 = 3) ∨ (c.1 = 3 ∧ c.2 = n - 4) := by
  simpa [finderCentres, Prod.ext_iff] using h

theorem func_drawFinders (n : Nat) (g : Drawing) (x y : Nat) : (drawFinders n g).func x y = true ↔
    (∃ c ∈ finderCentres n, (x, y) ∈ squareAround c.1 c.2 4 n) ∨ g.func x y = true := by
  simp only [drawFinders, func_drawFinder, finderCentres, List.exists_mem_cons_iff, List.not_mem_nil, false_and,
    exists_false, or_false]
  exact iff_of_eq (by ac_rfl)

section Plane

variable {v x y : Nat} {d : Bool} (h1 : 1 ≤ v) (h10 : v ≤ 10) (hx : x < gridSize v) (hy : y < gridSize v)

include h1 hx hy

/-- A cell of the function plane comes from one of the patterns. -/
theorem drawnBy_of_mem (h : ((x, y), d) ∈ functionPlane v) : DrawnBy v (gridSize v) x y d := by
  have hn := le_gridSize h1
  rw [functionPlane] at h
  obtain ⟨hv, i, hi, hd, hxy⟩ | h := mem_drawVersion h
  · exact .version i hv hd hxy hi
  obtain ⟨hx, hy, hd⟩ | ⟨hc, hd⟩ | h := mem_drawFormatArea h
  · exact .darkModule hx hy hd
  · rw [exists_mem_formatCells, exists_fmt1_eq, exists_fmt2_eq (by omega)] at hc
    exact .format (by omega) hd
  obtain ⟨c, hc, hnear, hd⟩ | h := mem_drawAlignment h
  · rw [mem_squareAround] at hnear
    exact .alignment c hc (by omega) hd
  obtain ⟨hf, hxy⟩ | h := mem_drawTiming h
  · rw [← Bool.not_eq_true, func_drawFinders] at hf
    have hout : ∀ c ∈ finderCentres (gridSize v), (x, y) ∉ squareAround c.1 c.2 4 (gridSize v) :=
      fun c hc hin => hf (.inl ⟨c, hc, hin⟩)
    simp only [finderCentres, List.forall_mem_cons, mem_squareAround] at hout
    exact .timing (hxy.imp (fun h => ⟨h.1, by omega, by omega, h.2⟩) fun h => ⟨h.1, by omega, by omega, h.2⟩)
  obtain ⟨c, hc, hnear, hd⟩ | h := mem_drawFinders h
  · rw [mem_squareAround] at hnear
    exact .finder c hc (by omega) hd
  · cases h

include h10

/-- A function module of the plane whose patterns agree on its colour has that colour in GRID. -/
theorem functionModule_drawFunctions (s : State) (e : Ecc) (hf : (functionPlane v).func x y = true)
    (hall : ∀ d', DrawnBy v (gridSize v) x y d' → d' = d) : (s.drawFunctions v e).functionModule x y d := by
  have h64 := gridSize_le h10
  obtain ⟨d', hd'⟩ := Option.isSome_iff_exists.mp hf
  obtain rfl : d' = d := hall d' (drawnBy_of_mem h1 hx hy (mem_of_lookup hd'))
  have hbyte := lmByte_drawFunctions s v e (hx.trans_le h64) (hy.trans_le h64)
  rw [hd'] at hbyte
  rw [State.functionModule, State.func, State.dark, hbyte]
  exact ⟨funcCell_getLsbD_one d', funcCell_getLsbD_zero d'⟩

end Plane

/-! ## The colour of each pattern -/

/-- Two alignment patterns have no cell in common, and every centre is an even one (46_qr_matrix.md R305). -/
theorem alignmentCentres_apart {v : Nat} (h1 : 1 ≤ v) (h10 : v ≤ 10) :
    (∀ c ∈ alignmentCentres v, c.1 % 2 = 0 ∧ c.2 % 2 = 0) ∧ ∀ c ∈ alignmentCentres v, ∀ d ∈ alignmentCentres v,
      c = d ∨ c.1 + 5 ≤ d.1 ∨ d.1 + 5 ≤ c.1 ∨ c.2 + 5 ≤ d.2 ∨ d.2 + 5 ≤ c.2 := by
  interval_cases v <;> decide

theorem cheb_eq (x y cx cy : Nat) : cheb x y cx cy = max (x - cx + (cx - x)) (y - cy + (cy - y)) := rfl

/-- Chebyshev distance up to `r` is a square. -/
theorem cheb_le_iff {x y cx cy r : Nat} :
    cheb x y cx cy ≤ r ↔ x ≤ cx + r ∧ cx ≤ x + r ∧ y ≤ cy + r ∧ cy ≤ y + r := by
  have hside (a b : Nat) : a - b + (b - a) ≤ r ↔ a ≤ b + r ∧ b ≤ a + r := by omega
  rw [cheb_eq, Nat.max_le, hside, hside, and_assoc]

/-- On the timing row an alignment pattern has the colours of the timing pattern, since its centre is even. -/
theorem alignment_row {x y cx : Nat} (hnear : x ≤ cx + 2 ∧ cx ≤ x + 2) (heven : cx % 2 = 0) :
    (cheb x y cx y != 1) = (x % 2 == 0) := by
  have hdist : cheb x y cx y = x - cx + (cx - x) := by rw [cheb_eq, Nat.sub_self, Nat.add_zero, Nat.max_zero]
  rw [hdist, Bool.eq_iff_iff, bne_iff_ne, beq_iff_eq]
  omega

/-- On the timing column too. -/
theorem alignment_column {x y cy : Nat} (hnear : y ≤ cy + 2 ∧ cy ≤ y + 2) (heven : cy % 2 = 0) :
    (cheb x y x cy != 1) = (y % 2 == 0) := by
  have hswap : cheb x y x cy = cheb y x cy x := Nat.max_comm _ _
  rw [hswap, alignment_row hnear heven]

section Colours

variable {v x y : Nat} {d : Bool} (h1 : 1 ≤ v) (h10 : v ≤ 10)

include h1 h10

theorem eq_of_drawnBy_version {i : Nat} (hv : 7 ≤ v) (hi : i < 18)
    (hxy : (x = gridSize v - 11 + i % 3 ∧ y = i / 3) ∨ (x = i / 3 ∧ y = gridSize v - 11 + i % 3))
    (h : DrawnBy v (gridSize v) x y d) : d = (verInfo v).testBit i := by
  have hn : 45 ≤ gridSize v := by rw [gridSize]; omega
  cases h with
  | version j hv hd hxy' hj =>
    have hij : j = i := by omega
    rw [hd, hij]
  | finder c hc hnear hd =>
    have hcentre := finderCentres_cases hc
    omega
  | timing hxy' => omega
  | alignment c hc hnear hd =>
    have hclear := alignmentClear h1 h10 c hc
    omega
  | format hxy' hd => omega
  | darkModule hx hy hd => omega

theorem eq_of_drawnBy_darkModule (hx : x = 8) (hy : y = gridSize v - 8) (h : DrawnBy v (gridSize v) x y d) :
    d = true := by
  have hn := le_gridSize h1
  cases h with
  | version j hv hd hxy hj => omega
  | finder c hc hnear hd =>
    have hcentre := finderCentres_cases hc
    omega
  | timing hxy => omega
  | alignment c hc hnear hd =>
    have hclear := alignmentClear h1 h10 c hc
    omega
  | format hxy hd => omega
  | darkModule hx hy hd => exact hd

theorem eq_of_drawnBy_format (hxy : (x = 8 ∧ y ≤ 8 ∧ y ≠ 6) ∨ (y = 8 ∧ x ≤ 8 ∧ x ≠ 6) ∨
    (y = 8 ∧ gridSize v - 8 ≤ x) ∨ (x = 8 ∧ gridSize v - 7 ≤ y)) (h : DrawnBy v (gridSize v) x y d) : d = false := by
  have hn := le_gridSize h1
  cases h with
  | version j hv hd hxy hj => omega
  | finder c hc hnear hd =>
    have hcentre := finderCentres_cases hc
    omega
  | timing hxy => omega
  | alignment c hc hnear hd =>
    have hclear := alignmentClear h1 h10 c hc
    omega
  | format hxy hd => exact hd
  | darkModule hx hy hd => omega

theorem eq_of_drawnBy_alignment {c : Nat × Nat} (hc : c ∈ alignmentCentres v)
    (hnear : x ≤ c.1 + 2 ∧ c.1 ≤ x + 2 ∧ y ≤ c.2 + 2 ∧ c.2 ≤ y + 2) (h : DrawnBy v (gridSize v) x y d) :
    d = (cheb x y c.1 c.2 != 1) := by
  have hn := le_gridSize h1
  have hclear := alignmentClear h1 h10 c hc
  obtain ⟨heven, hapart⟩ := alignmentCentres_apart h1 h10
  cases h with
  | version j hv hd hxy hj => omega
  | finder c' hc' hnear' hd =>
    have hcentre := finderCentres_cases hc'
    omega
  | timing hxy =>
    obtain ⟨hcx, hcy⟩ := heven c hc
    rcases hxy with ⟨rfl, -, -, rfl⟩ | ⟨rfl, -, -, rfl⟩
    · have hrow : c.2 = 6 := by omega
      rw [hrow, alignment_row (by omega) hcx]
    · have hcolumn : c.1 = 6 := by omega
      rw [hcolumn, alignment_column (by omega) hcy]
  | alignment c' hc' hnear' hd =>
    obtain rfl | hfar := hapart c hc c' hc'
    · exact hd
    · omega
  | format hxy hd => omega
  | darkModule hx hy hd => omega

theorem eq_of_drawnBy_timing {i : Nat} (hlo : 8 ≤ i) (hhi : i + 8 < gridSize v)
    (hxy : (x = i ∧ y = 6) ∨ (x = 6 ∧ y = i)) (h : DrawnBy v (gridSize v) x y d) : d = (i % 2 == 0) := by
  have hn := le_gridSize h1
  obtain ⟨heven, -⟩ := alignmentCentres_apart h1 h10
  cases h with
  | version j hv hd hxy hj => omega
  | finder c hc hnear hd =>
    have hcentre := finderCentres_cases hc
    omega
  | timing hxy' =>
    rcases hxy with ⟨rfl, rfl⟩ | ⟨rfl, rfl⟩
    · exact (hxy'.resolve_right (by omega)).2.2.2
    · exact (hxy'.resolve_left (by omega)).2.2.2
  | alignment c hc hnear hd =>
    have hclear := alignmentClear h1 h10 c hc
    obtain ⟨hcx, hcy⟩ := heven c hc
    rcases hxy with ⟨rfl, rfl⟩ | ⟨rfl, rfl⟩
    · have hrow : c.2 = 6 := by omega
      rw [hd, hrow, alignment_row (by omega) hcx]
    · have hcolumn : c.1 = 6 := by omega
      rw [hd, hcolumn, alignment_column (by omega) hcy]
  | format hxy hd => omega
  | darkModule hx hy hd => omega

theorem eq_of_drawnBy_finder {c : Nat × Nat} (hc : c ∈ finderCentres (gridSize v)) (hx : x < gridSize v)
    (hy : y < gridSize v) (hnear : x ≤ c.1 + 4 ∧ c.1 ≤ x + 4 ∧ y ≤ c.2 + 4 ∧ c.2 ≤ y + 4)
    (h : DrawnBy v (gridSize v) x y d) : d = (cheb x y c.1 c.2 != 2 && cheb x y c.1 c.2 != 4) := by
  have hn := le_gridSize h1
  have hcentre := finderCentres_cases hc
  cases h with
  | version j hv hd hxy hj => omega
  | finder c' hc' hnear' hd =>
    have hcentre' := finderCentres_cases hc'
    have heq : c' = c := Prod.ext (by omega) (by omega)
    rw [hd, heq]
  | timing hxy => omega
  | alignment c' hc' hnear' hd =>
    have hclear := alignmentClear h1 h10 c' hc'
    omega
  | format hxy hd => omega
  | darkModule hx hy hd => omega

end Colours

/-! ## QR_FUNC -/

/-- The cells of the function plane, pattern by pattern. -/
theorem func_functionPlane {v : Nat} (h1 : 1 ≤ v) (x y : Nat) : (functionPlane v).func x y = true ↔
    (7 ≤ v ∧ (gridSize v - 11 ≤ x ∧ x < gridSize v - 8 ∧ y < 6 ∨
      gridSize v - 11 ≤ y ∧ y < gridSize v - 8 ∧ x < 6)) ∨
    ((8 = x ∧ gridSize v - 8 = y) ∨ ∃ c ∈ formatCells (gridSize v), c.1 = (x, y)) ∨
    (∃ c ∈ alignmentCentres v, (x, y) ∈ squareAround c.1 c.2 2 (gridSize v)) ∨
    (x < gridSize v ∧ 6 = y ∨ y < gridSize v ∧ 6 = x) ∨
    ∃ c ∈ finderCentres (gridSize v), (x, y) ∈ squareAround c.1 c.2 4 (gridSize v) := by
  have hn := le_gridSize h1
  rw [functionPlane, func_drawVersion (by omega), func_drawFormatArea, func_drawAlignment, func_drawTiming,
    func_drawFinders, exists_mem_formatCells, func_nil]
  simp only [Bool.false_eq_true, or_false]

/-- The state that QR_FUNC completes in (46_qr_matrix.md R309). -/
theorem exec_qrFunc {v : Nat} (h1 : 1 ≤ v) (h10 : v ≤ 10) (e : Ecc) {s t : State} (ht : s.drawFunctions v e = t) :
    exec (.qrFunc v e) s =
      State.succeed { t with res := { t.res with r0 := word (t.countDataCells (gridSize v)) } } := by
  subst ht
  exact if_neg (by rw [(tableVersion_iff v).mpr ⟨h1, h10⟩]; decide)

section Patterns

variable {v x y : Nat} (s : State) (e : Ecc) (h1 : 1 ≤ v) (h10 : v ≤ 10)

include h1 h10

theorem functionModule_finder {c : Nat × Nat} (hc : c ∈ finderCentres (gridSize v)) (hx : x < gridSize v)
    (hy : y < gridSize v) (hnear : cheb x y c.1 c.2 ≤ 4) :
    (s.drawFunctions v e).functionModule x y (cheb x y c.1 c.2 != 2 && cheb x y c.1 c.2 != 4) := by
  rw [cheb_le_iff] at hnear
  refine functionModule_drawFunctions h1 h10 hx hy s e ?_ fun d => eq_of_drawnBy_finder h1 h10 hc hx hy hnear
  exact (func_functionPlane h1 x y).mpr (.inr (.inr (.inr (.inr ⟨c, hc, (mem_squareAround ..).mpr ⟨hx, hy, hnear⟩⟩))))

theorem functionModule_timing {i : Nat} (hlo : 8 ≤ i) (hhi : i + 8 < gridSize v)
    (hxy : (x = i ∧ y = 6) ∨ (x = 6 ∧ y = i)) : (s.drawFunctions v e).functionModule x y (i % 2 == 0) := by
  refine functionModule_drawFunctions h1 h10 (by omega) (by omega) s e ?_ fun d =>
    eq_of_drawnBy_timing h1 h10 hlo hhi hxy
  exact (func_functionPlane h1 x y).mpr (.inr (.inr (.inr (.inl (by omega)))))

theorem functionModule_alignment {c : Nat × Nat} (hc : c ∈ alignmentCentres v) (hnear : cheb x y c.1 c.2 ≤ 2) :
    (s.drawFunctions v e).functionModule x y (cheb x y c.1 c.2 != 1) := by
  have hclear := alignmentClear h1 h10 c hc
  rw [cheb_le_iff] at hnear
  have hx : x < gridSize v := by omega
  have hy : y < gridSize v := by omega
  refine functionModule_drawFunctions h1 h10 hx hy s e ?_ fun d => eq_of_drawnBy_alignment h1 h10 hc hnear
  exact (func_functionPlane h1 x y).mpr (.inr (.inr (.inl ⟨c, hc, (mem_squareAround ..).mpr ⟨hx, hy, hnear⟩⟩)))

theorem functionModule_format {p : Nat × Nat} {i : Nat} (hc : (p, i) ∈ formatCells (gridSize v)) :
    (s.drawFunctions v e).functionModule p.1 p.2 false := by
  have hn := le_gridSize h1
  have hxy := (exists_mem_formatCells (gridSize v) (p.1, p.2)).mp ⟨_, hc, rfl⟩
  rw [exists_fmt1_eq, exists_fmt2_eq (by omega)] at hxy
  refine functionModule_drawFunctions h1 h10 (by omega) (by omega) s e ?_ fun d =>
    eq_of_drawnBy_format h1 h10 (by omega)
  exact (func_functionPlane h1 _ _).mpr (.inr (.inl (.inr ⟨_, hc, rfl⟩)))

theorem functionModule_darkModule : (s.drawFunctions v e).functionModule 8 (gridSize v - 8) true := by
  have hn := le_gridSize h1
  refine functionModule_drawFunctions h1 h10 (by omega) (by omega) s e ?_ fun d =>
    eq_of_drawnBy_darkModule h1 h10 rfl rfl
  exact (func_functionPlane h1 _ _).mpr (.inr (.inl (.inl ⟨rfl, rfl⟩)))

theorem functionModule_version {i : Nat} (hv : 7 ≤ v) (hi : i < 18)
    (hxy : (x = gridSize v - 11 + i % 3 ∧ y = i / 3) ∨ (x = i / 3 ∧ y = gridSize v - 11 + i % 3)) :
    (s.drawFunctions v e).functionModule x y ((verInfo v).testBit i) := by
  have hn := le_gridSize h1
  refine functionModule_drawFunctions h1 h10 (by omega) (by omega) s e ?_ fun d =>
    eq_of_drawnBy_version h1 h10 hv hi hxy
  exact (func_functionPlane h1 x y).mpr (.inl ⟨hv, by omega⟩)

end Patterns

/-- QR_FUNC leaves its drawing in GRID. -/
theorem exists_exec_qrFunc (s : State) {v : Nat} (h1 : 1 ≤ v) (h10 : v ≤ 10) (e : Ecc) :
    ∃ t, exec (.qrFunc v e) s = .next t ∧ ∀ {x y d}, (s.drawFunctions v e).functionModule x y d → t.functionModule x y d := by
  generalize ht : s.drawFunctions v e = t
  exact ⟨_, exec_qrFunc h1 h10 e ht, fun h => functionModule_congr h rfl rfl⟩

/-- Settles O29: each pattern's cells are function modules, and no other pattern draws them in another colour. -/
theorem qrFuncDrawsThePatterns : Obligations.QrFuncDrawsThePatterns := by
  rintro v n e s h1 h10 (rfl : n = gridSize v)
  obtain ⟨t, hx, ht⟩ := exists_exec_qrFunc s h1 h10 e
  refine ⟨t, hx, fun cx cy x y hc hx hy => ⟨fun hnear => ?_, fun hnear => ?_⟩, fun i hlo hhi => ⟨?_, ?_⟩,
    fun cx cy x y hc hnear => ?_, fun i hi => ⟨?_, ?_⟩, ?_, fun hv i hi => ⟨?_, ?_⟩⟩
  · have hcell := functionModule_finder s e h1 h10 (c := (cx, cy)) hc hx hy (show cheb x y cx cy ≤ 4 by omega)
    have hne : (cheb x y cx cy != 4) = true := bne_iff_ne.mpr (by omega)
    rw [hne, Bool.and_true] at hcell
    exact ht hcell
  · have hcell := functionModule_finder s e h1 h10 (c := (cx, cy)) hc hx hy hnear.le
    rw [hnear] at hcell
    exact ht hcell
  · exact ht (functionModule_timing s e h1 h10 hlo hhi (.inl ⟨rfl, rfl⟩))
  · exact ht (functionModule_timing s e h1 h10 hlo hhi (.inr ⟨rfl, rfl⟩))
  · exact ht (functionModule_alignment s e h1 h10 (c := (cx, cy)) hc hnear)
  · exact ht (functionModule_format s e h1 h10 (mem_formatCells_of_le _ hi).1)
  · exact ht (functionModule_format s e h1 h10 (mem_formatCells_of_le _ hi).2)
  · exact ht (functionModule_darkModule s e h1 h10)
  · exact ht (functionModule_version s e h1 h10 hv hi (.inl ⟨rfl, rfl⟩))
  · exact ht (functionModule_version s e h1 h10 hv hi (.inr ⟨rfl, rfl⟩))

/-! ## The plane -/

/-- The byte of a version's function plane at an offset of GRID. -/
def planeByte (v a : Nat) : Byte := ((functionPlane v).lookup (a % 64, a / 64)).elim 0 funcCell

theorem planeByte_of_outside {v x y : Nat} (h1 : 1 ≤ v) (h10 : v ≤ 10) (hx : x < 64)
    (h : gridSize v ≤ x ∨ gridSize v ≤ y) : planeByte v (64 * y + x) = 0 := by
  have hmod : (64 * y + x) % 64 = x := by omega
  have hdiv : (64 * y + x) / 64 = y := by omega
  have hnone : (functionPlane v).lookup (x, y) = none := by
    refine Option.not_isSome_iff_eq_none.mp fun hf => ?_
    have hin := functionCells_subset h1 h10 ((mem_functionCells h1 h10 x y).mpr hf)
    rw [Finset.mem_product, Finset.mem_range, Finset.mem_range] at hin
    omega
  rw [planeByte, hmod, hdiv, hnone]
  rfl

theorem lmByte_drawFunctions_eq_planeByte (s : State) (v : Nat) (e : Ecc) {a : Nat} (ha : a < 4096) :
    (s.drawFunctions v e).lmByte (gridBase + a) = planeByte v a := by
  have hcell : cellOffset (a % 64) (a / 64) = gridBase + a := by
    rw [cellOffset]
    omega
  rw [← hcell, lmByte_drawFunctions s v e (Nat.mod_lt _ (by decide)) (by omega), planeByte]

/-- Settles O28: the plane of a version is one drawing, and QR_FUNC stores its bytes. -/
theorem qrFuncDrawsByVersionAlone : Obligations.QrFuncDrawsByVersionAlone := by
  intro v h1 h10
  refine ⟨planeByte v, fun x y hx _ h => planeByte_of_outside h1 h10 hx h, fun s e => ?_⟩
  have hbytes (a : Nat) := lmByte_drawFunctions_eq_planeByte s v e (a := a)
  have hframe : Frame s (s.drawFunctions v e) [.res0, .qrInfo] (span gridBase 4096) :=
    frame_drawFunctions s v e (by simp) fun x hx => (Region.holds_iff _ x).mp hx
  have hq : (s.drawFunctions v e).qrInfo = QrInfo.drawn v (gridSize v) e := rfl
  obtain ⟨hver, hsize⟩ := drawn_fields ((tableVersion_iff v).mpr ⟨h1, h10⟩) e
  have hcount : (s.drawFunctions v e).countDataCells (gridSize v) < 2 ^ 32 := by
    obtain ⟨-, -, -, -, hmodules, -⟩ := capacities_bounds h1 h10 e
    exact ((capacityTablesAgreeWithTheGrid v h1 h10).2 s e).trans_lt hmodules
  generalize ht : s.drawFunctions v e = t at hbytes hframe hq hcount
  refine ⟨_, (hframe.setRes _).completes (exec_qrFunc h1 h10 e ht), hbytes, ?_⟩
  simp only [hq]
  exact ⟨hver, hsize, rfl, rfl, rfl, rfl, toNat_word hcount⟩

end Sys2Proof.Machine
end

section
/-! SUPPORT. Placement (46_qr_matrix.md R310 to R314): the order of the cells and the bit of each data cell. -/

namespace Sys2Proof.Machine

/-! ## The cell order -/

theorem mem_stripCells {n right x y : Nat} :
    (x, y) ∈ stripCells n right ↔ y < n ∧ (x = right ∨ x = right - 1) := by
  simp only [stripCells, List.mem_flatMap, List.mem_range, List.mem_cons, List.not_mem_nil, or_false, Prod.mk.injEq]
  constructor
  · rintro ⟨vert, hv, h⟩
    split at h <;> omega
  · rintro ⟨hy, hx⟩
    split
    · exact ⟨n - 1 - y, by omega⟩
    · exact ⟨y, by omega⟩

theorem nodup_stripCells {n right : Nat} (hr : 1 ≤ right) : (stripCells n right).Nodup := by
  refine List.nodup_flatMap.mpr ⟨fun vert _ => ?_, ?_⟩
  · simp
    omega
  · refine List.nodup_range.imp_of_mem fun {a b} ha hb hne => ?_
    rw [List.mem_range] at ha hb
    rintro ⟨x, y⟩
    simp only [List.mem_cons, List.not_mem_nil, or_false, Prod.mk.injEq]
    split <;> omega

/-- The right columns of the strips: even down to column 6, odd left of it (46_qr_matrix.md R310). -/
abbrev StripStart (right : Nat) : Prop := right = 0 ∨ (right % 2 = 1 ∧ right ≤ 5) ∨ (right % 2 = 0 ∧ 6 ≤ right)

/-- The strips cover every column but column 6. -/
theorem mem_stripsFrom {n right fuel x y : Nat} (hs : StripStart right) (hf : right ≤ 2 * fuel) :
    (x, y) ∈ stripsFrom n right fuel ↔ y < n ∧ x ≤ right ∧ x ≠ 6 ∧ 0 < right := by
  induction fuel generalizing right with
  | zero => simp [stripsFrom]; omega
  | succ fuel ih =>
    rw [stripsFrom]
    split
    · by_cases h6 : right = 6
      · subst h6
        simp only [if_pos, List.mem_append, mem_stripCells]
        rw [ih (by omega) (by omega)]
        omega
      · simp only [if_neg h6, List.mem_append, mem_stripCells]
        rw [ih (by omega) (by omega)]
        omega
    · simp
      omega

theorem nodup_stripsFrom {n right fuel : Nat} (hs : StripStart right) (hf : right ≤ 2 * fuel) :
    (stripsFrom n right fuel).Nodup := by
  have hrest (r fuel x y : Nat) (hr : 1 ≤ r) (hs : StripStart (r - 2)) (hf : r - 2 ≤ 2 * fuel)
      (h : (x, y) ∈ stripCells n r) : (x, y) ∉ stripsFrom n (r - 2) fuel := by
    rw [mem_stripsFrom hs hf]
    rw [mem_stripCells] at h
    omega
  induction fuel generalizing right with
  | zero => exact List.nodup_nil
  | succ fuel ih =>
    rw [stripsFrom]
    split
    next h1 =>
      refine List.Nodup.append (nodup_stripCells (by split <;> omega)) (ih (by split <;> omega) (by split <;> omega)) ?_
      rintro ⟨x, y⟩
      exact hrest _ fuel x y (by split <;> omega) (by split <;> omega) (by split <;> omega)
    next => exact List.nodup_nil

section Order

variable {v : Nat} (h1 : 1 ≤ v)

include h1

theorem stripStart_gridSize : StripStart (gridSize v - 1) := by
  rw [gridSize]
  omega

theorem mem_cellOrder (x y : Nat) : (x, y) ∈ cellOrder (gridSize v) ↔ x < gridSize v ∧ y < gridSize v ∧ x ≠ 6 := by
  have hn := le_gridSize h1
  rw [cellOrder, mem_stripsFrom (stripStart_gridSize h1) (by omega)]
  omega

theorem nodup_cellOrder : (cellOrder (gridSize v)).Nodup := nodup_stripsFrom (stripStart_gridSize h1) (by omega)

theorem mem_dataCells (s : State) (x y : Nat) : (x, y) ∈ s.dataCells (gridSize v) ↔
    x < gridSize v ∧ y < gridSize v ∧ x ≠ 6 ∧ s.func x y = false := by
  rw [State.dataCells, List.mem_filter, mem_cellOrder h1, Bool.not_eq_true', and_assoc, and_assoc]

theorem nodup_dataCells (s : State) : (s.dataCells (gridSize v)).Nodup := (nodup_cellOrder h1).filter _

theorem length_dataCells_le (h10 : v ≤ 10) (s : State) : (s.dataCells (gridSize v)).length ≤ 64 * 64 := by
  have hsub : (s.dataCells (gridSize v)).toFinset ⊆ Finset.range (gridSize v) ×ˢ Finset.range (gridSize v) := by
    rintro ⟨x, y⟩ hp
    obtain ⟨hx, hy, -⟩ := (mem_dataCells h1 s x y).mp (List.mem_toFinset.mp hp)
    exact Finset.mem_product.mpr ⟨Finset.mem_range.mpr hx, Finset.mem_range.mpr hy⟩
  have hcard := Finset.card_le_card hsub
  rw [List.toFinset_card_of_nodup (nodup_dataCells h1 s), Finset.card_product, Finset.card_range] at hcard
  exact hcard.trans (Nat.mul_le_mul (gridSize_le h10) (gridSize_le h10))

end Order

/-! ## The stream -/

theorem length_streamBits (s : State) : s.streamBits.length = 8 * s.cwLen.toNat := by
  rw [State.streamBits, length_flatMap_bitsOf, length_lmBytes]

/-- Stream bit `k` is bit `7 - k % 8` of codeword `k / 8`, and 0 past the stream (46_qr_matrix.md R312). -/
theorem getD_streamBits (s : State) (k : Nat) : s.streamBits.getD k false =
    (decide (k < 8 * s.cwLen.toNat) && (s.lmByte (cwBase + k / 8)).getLsbD (7 - k % 8)) := by
  by_cases hk : k < 8 * s.cwLen.toNat
  · have hlt : k / 8 < s.cwLen.toNat := by omega
    have hmod : k % 8 < 8 := Nat.mod_lt _ (by decide)
    have hget := getElem?_flatMap (f := fun c : Byte => bitsOf 8 c.toNat) (l := s.lmBytes cwBase s.cwLen.toNat)
      (fun _ _ => length_bitsOf 8 _) (k / 8) hmod
    rw [Nat.div_add_mod] at hget
    rw [List.getD_eq_getElem?_getD, State.streamBits, hget, decide_eq_true hk, Bool.true_and]
    simp [State.lmBytes, hlt, getElem?_bitsOf _ hmod, BitVec.getLsbD]
  · rw [List.getD_eq_default _ _ (by rw [length_streamBits]; omega), decide_eq_false hk, Bool.false_and]

/-- The `k`-th data cell shows the `k`-th stream bit, masked. -/
theorem getElem?_maskedCells (m : Nat) (stream : List Bool) (cells : List (Nat × Nat)) (k : Nat) :
    (maskedCells m stream cells)[k]? = cells[k]?.map fun p => (p, stream.getD k false ^^ maskFn m p.1 p.2) := by
  induction cells generalizing stream k with
  | nil => rfl
  | cons c cells ih =>
    cases k with
    | zero => cases stream <;> rfl
    | succ k =>
      rw [maskedCells, List.getElem?_cons_succ, List.getElem?_cons_succ, ih]
      cases stream <;> simp

/-! ## QR_PLACE -/

section Place

variable (s : State) (m : Nat) {n v : Nat} (h1 : 1 ≤ v) (h10 : v ≤ 10)

/-- The placement stores in the data cells alone. -/
theorem frame_place_cells {W : List Reg} :
    Frame s (s.place m n) W (fun a => ∃ p ∈ s.dataCells n, a = gridBase + 64 * p.2 + p.1) := by
  rw [place_eq_writeCells]
  refine frame_writeCells_cells s _ fun c hc => ?_
  obtain ⟨d, hd, rfl⟩ := List.mem_map.mp hc
  refine ⟨d.1, ?_, rfl⟩
  rw [← map_fst_maskedCells m s.streamBits (s.dataCells n)]
  exact List.mem_map_of_mem hd

include h1 h10

/-- The `k`-th data cell after the placement. -/
theorem lmByte_place {k : Nat} {p : Nat × Nat} (hk : (s.dataCells (gridSize v))[k]? = some p) :
    (s.place m (gridSize v)).lmByte (cellOffset p.1 p.2) =
      dataCell (s.streamBits.getD k false ^^ maskFn m p.1 p.2) := by
  have hcell := List.mem_of_getElem? ((getElem?_maskedCells m s.streamBits _ k).trans (congrArg _ hk))
  have hfst : ((maskedCells m s.streamBits (s.dataCells (gridSize v))).map fun c => (c.1, dataCell c.2)).map Prod.fst =
      s.dataCells (gridSize v) := by
    rw [List.map_map]
    exact map_fst_maskedCells m _ _
  rw [place_eq_writeCells]
  refine lmByte_writeCells_of_mem s _ (fun c hc => ?_) (by rw [hfst]; exact nodup_dataCells h1 s) (p, dataCell _)
    (List.mem_map.mpr ⟨_, hcell, rfl⟩)
  have hin : (c.1.1, c.1.2) ∈ s.dataCells (gridSize v) := hfst ▸ List.mem_map_of_mem hc
  have hlt := (mem_dataCells h1 s _ _).mp hin
  have h64 := gridSize_le h10
  omega

end Place

theorem exec_qrPlace_of_funcValid {s t : State} {m n : Nat} (hf : s.qrInfo.funcValid = true)
    (hn : s.qrInfo.size.toNat = n) (ht : s.place m n = t) : exec (.qrPlace m) s = State.succeed { t with
      qrInfo := t.qrInfo.placed m
      res := { t.res with r0 := word (s.placedBits n), r1 := word (s.placeRest n) } } := by
  subst hn ht
  have h : ¬ s.qrInfo.funcValid = false := by rw [hf]; decide
  exact if_neg h

theorem dataCell_eq (b : Bool) : dataCell b = if b = true then 1 else 0 := by cases b <;> rfl

/-- Settles O30: the data cells are different cells, and each keeps the bit written to it. -/
theorem qrPlaceWritesTheMaskedStream : Obligations.QrPlaceWritesTheMaskedStream := by
  rintro s m n hinv hf hn hm
  obtain ⟨v, h1, h10, hv⟩ := exists_version hinv hf
  obtain rfl : n = gridSize v := hn.trans hv
  refine ⟨nodup_dataCells h1 s, mem_dataCells h1 s, ?_⟩
  have hframe := frame_place_cells s m (n := gridSize v) (W := [.res0, .res1, .qrInfo])
  have hbyte {k : Nat} {p : Nat × Nat} := lmByte_place s m h1 h10 (k := k) (p := p)
  have hq := qrInfo_place s m (gridSize v)
  have hcells := length_dataCells_le h1 h10 s
  have hbits := length_streamBits s
  have hrest := placeRest_eq s (gridSize v)
  simp only [State.spareCells, State.unplacedBits, hbits] at hrest
  have hplaced : s.placedBits (gridSize v) = min (s.dataCells (gridSize v)).length (8 * s.cwLen.toNat) := by
    rw [State.placedBits, hbits]
  have hcw := s.cwLen.isLt
  generalize ht : s.place m (gridSize v) = t at hframe hbyte hq
  have hx := exec_qrPlace_of_funcValid hf hv ht
  refine ⟨_, ((hframe.trans (frame_setQrInfo t (t.qrInfo.placed m) (by simp))).setRes _).completes hx, fun k x y hk => ?_,
    ?_, ?_, congrArg (QrInfo.placed · m) hq⟩
  · rw [← getD_streamBits, ← dataCell_eq]
    exact hbyte hk
  · exact (toNat_word (by omega)).trans hplaced
  · exact (toNat_word (by split at hrest <;> omega)).trans hrest

end Sys2Proof.Machine
end

section
/-! SUPPORT. The penalties (47_qr_penalty.md R350 to R356): they fit their registers and read the DARK bits of the symbol
alone. -/

namespace Sys2Proof.Machine

/-! ## Bounds -/

/-- A sum of bounded terms. -/
theorem sum_map_le {α : Type} {f : α → Nat} {l : List α} {c : Nat} (h : ∀ a ∈ l, f a ≤ c) :
    (l.map f).sum ≤ l.length * c := by
  have hsum := List.sum_le_card_nsmul (l.map f) c (List.forall_mem_map.mpr h)
  rwa [List.length_map, smul_eq_mul] at hsum

theorem runCost_le (n : Nat) : runCost n ≤ n := by
  rw [runCost]
  split <;> omega

theorem runCosts_le (b : Bool) (r : Nat) (l : List Bool) : runCosts b r l ≤ r + l.length := by
  induction l generalizing b r with
  | nil => exact runCost_le r
  | cons c l ih =>
    rw [runCosts, List.length_cons]
    split
    · exact (ih b (r + 1)).trans (by omega)
    · exact (Nat.add_le_add (runCost_le r) (ih c 1)).trans (by omega)

theorem lineRunCost_le (l : List Bool) : lineRunCost l ≤ l.length := by
  cases l with
  | nil => exact Nat.le_refl 0
  | cons b l => exact (runCosts_le b 1 l).trans (by rw [List.length_cons]; omega)

theorem lineLookAlikes_le (l : List Bool) : lineLookAlikes l ≤ l.length :=
  List.countP_le_length.trans (by rw [List.length_range]; omega)

section Symbol

variable (s : State) {n : Nat} (hn : n ≤ 64)

theorem length_of_mem_lines {l : List Bool} (h : l ∈ s.lines n) : l.length = n := by
  simp only [State.lines, List.mem_append, List.mem_map] at h
  obtain ⟨y, -, rfl⟩ | ⟨x, -, rfl⟩ := h <;> simp [State.row, State.column]

theorem length_lines : (s.lines n).length = 2 * n := by
  simp [State.lines, Nat.two_mul]

include hn

theorem penaltyN1_le : penaltyN1 (s.lines n) ≤ 128 * 64 :=
  (sum_map_le fun l hl => (lineRunCost_le l).trans ((length_of_mem_lines s hl).trans_le hn)).trans
    (Nat.mul_le_mul_right _ (by rw [length_lines]; omega))

theorem penaltyN3_le : penaltyN3 (s.lines n) ≤ 40 * (128 * 64) :=
  Nat.mul_le_mul_left _ ((sum_map_le fun l hl => (lineLookAlikes_le l).trans ((length_of_mem_lines s hl).trans_le hn)).trans
    (Nat.mul_le_mul_right _ (by rw [length_lines]; omega)))

theorem penaltyN2_le (dark : Nat → Nat → Bool) : penaltyN2 dark n ≤ 3 * (64 * 64) := by
  have hrow : ∀ y ∈ List.range (n - 1), (List.range (n - 1)).countP (fun x => dark x y == dark (x + 1) y &&
      dark x y == dark x (y + 1) && dark x y == dark (x + 1) (y + 1)) ≤ 64 :=
    fun y _ => List.countP_le_length.trans (by rw [List.length_range]; omega)
  exact Nat.mul_le_mul_left _ ((sum_map_le hrow).trans (Nat.mul_le_mul_right _ (by rw [List.length_range]; omega)))

theorem darkCount_le : s.darkCount n ≤ 64 * 64 := by
  have hrow : ∀ y ∈ List.range n, (List.range n).countP (fun x => s.dark x y) ≤ 64 :=
    fun y _ => List.countP_le_length.trans (by rw [List.length_range]; omega)
  exact (sum_map_le hrow).trans (Nat.mul_le_mul_right _ (by rw [List.length_range]; omega))

theorem penaltyN4_le : penaltyN4 (s.darkCount n) (n * n) ≤ 10 * (30 * (64 * 64)) := by
  have hdark := darkCount_le s hn
  have hcells : n * n ≤ 64 * 64 := Nat.mul_le_mul hn hn
  exact Nat.mul_le_mul_left _ ((Nat.div_le_self _ _).trans (by omega))

end Symbol

/-! ## What the penalties read -/

section Dark

variable {s t : State} {n : Nat} (h : ∀ x y, x < n → y < n → s.dark x y = t.dark x y)

include h

theorem row_congr {y : Nat} (hy : y < n) : s.row n y = t.row n y :=
  List.map_congr_left fun x hx => h x y (List.mem_range.mp hx) hy

theorem column_congr {x : Nat} (hx : x < n) : s.column n x = t.column n x :=
  List.map_congr_left fun y hy => h x y hx (List.mem_range.mp hy)

theorem lines_congr : s.lines n = t.lines n :=
  congrArg₂ (· ++ ·) (List.map_congr_left fun _ hy => row_congr h (List.mem_range.mp hy))
    (List.map_congr_left fun _ hx => column_congr h (List.mem_range.mp hx))

theorem darkCount_congr : s.darkCount n = t.darkCount n :=
  congrArg List.sum (List.map_congr_left fun y hy => List.countP_congr fun x hx => by
    rw [h x y (List.mem_range.mp hx) (List.mem_range.mp hy)])

theorem penaltyN2_congr : penaltyN2 s.dark n = penaltyN2 t.dark n := by
  refine congrArg (fun l => 3 * List.sum l) (List.map_congr_left fun y hy => List.countP_congr fun x hx => ?_)
  rw [List.mem_range] at hx hy
  rw [h x y (by omega) (by omega), h (x + 1) y (by omega) (by omega), h x (y + 1) (by omega) (by omega),
    h (x + 1) (y + 1) (by omega) (by omega)]

theorem penalties_congr : s.penalties n = t.penalties n := by
  rw [State.penalties, State.penalties, lines_congr h, darkCount_congr h, penaltyN2_congr h]

end Dark

/-! ## QR_PENALTY -/

theorem exec_qrPenalty_of_funcValid {s : State} {n : Nat} (hf : s.qrInfo.funcValid = true)
    (hn : s.qrInfo.size.toNat = n) {p : Penalties} (hp : s.penalties n = p) : exec .qrPenalty s = State.succeed { s with
      res := { r0 := word p.n1, r1 := word p.n2, r2 := word p.n3, r3 := word p.n4, r4 := word p.total } } := by
  subst hn hp
  have h : ¬ s.qrInfo.funcValid = false := by rw [hf]; decide
  exact if_neg h

/-- Settles O35: the symbol has at most 64 by 64 cells, so the penalties and their sum fit, and each reads DARK bits alone. -/
theorem qrPenaltyScoresTheDarkBits : Obligations.QrPenaltyScoresTheDarkBits := by
  intro s n hinv hf hn
  obtain ⟨v, h1, h10, hv⟩ := exists_version hinv hf
  have h64 : n ≤ 64 := (hn.trans hv).trans_le (gridSize_le h10)
  have hn1 := penaltyN1_le s h64
  have hn2 := penaltyN2_le h64 s.dark
  have hn3 := penaltyN3_le s h64
  have hn4 := penaltyN4_le s h64
  have hw1 := toNat_word (show penaltyN1 (s.lines n) < 2 ^ 32 by omega)
  have hw2 := toNat_word (show penaltyN2 s.dark n < 2 ^ 32 by omega)
  have hw3 := toNat_word (show penaltyN3 (s.lines n) < 2 ^ 32 by omega)
  have hw4 := toNat_word (show penaltyN4 (s.darkCount n) (n * n) < 2 ^ 32 by omega)
  have htotal : (s.penalties n).total = (word (penaltyN1 (s.lines n))).toNat + (word (penaltyN2 s.dark n)).toNat +
      (word (penaltyN3 (s.lines n))).toNat + (word (penaltyN4 (s.darkCount n) (n * n))).toNat := by
    rw [hw1, hw2, hw3, hw4]
    rfl
  have hw5 := toNat_word (show (s.penalties n).total < 2 ^ 32 by omega)
  have hx := exec_qrPenalty_of_funcValid hf hn.symm rfl
  refine ⟨_, ((frame_refl s).setRes _).completes hx, hw1, hw2, hw3, hw4, hw5.trans htotal,
    fun s' t' hq hdark ht' => ?_⟩
  have hx' := exec_qrPenalty_of_funcValid (s := s') (by rw [hq]; exact hf) (by rw [hq]; exact hn.symm)
    (penalties_congr hdark)
  rw [succeed_eq_next.mp (hx'.symm.trans ht')]

end Sys2Proof.Machine
end

section
/-! SUPPORT. QR_ENCODE (47_qr_penalty.md R358): the registers and the bytes it leaves, for the version it selects. -/

namespace Sys2Proof.Machine

/-! ## Lengths -/

theorem lengths_candidate (s : State) (e : Ecc) (n m : Nat) :
    (s.candidate e n m).baLen = s.baLen ∧ (s.candidate e n m).cwLen = s.cwLen := by
  obtain ⟨l, hl⟩ := place_only s m n
  obtain ⟨k, hk⟩ := writeFormat_only (s.place m n) n (fmtWord e m)
  rw [State.candidate, hk, hl]
  exact ⟨rfl, rfl⟩

theorem lengths_tryMasks (s : State) (e : Ecc) (n : Nat) (masks : List Nat) :
    (s.tryMasks e n masks).1.baLen = s.baLen ∧ (s.tryMasks e n masks).1.cwLen = s.cwLen := by
  induction masks generalizing s with
  | nil => exact ⟨rfl, rfl⟩
  | cons m masks ih =>
    obtain ⟨hb, hc⟩ := ih (s.candidate e n m)
    obtain ⟨hb', hc'⟩ := lengths_candidate s e n m
    exact ⟨hb.trans hb', hc.trans hc'⟩

theorem lengths_drawFunctions (s : State) (v : Nat) (e : Ecc) :
    (s.drawFunctions v e).baLen = s.baLen ∧ (s.drawFunctions v e).cwLen = s.cwLen := ⟨rfl, rfl⟩

theorem baLen_interleaveToCw (s : State) (v : Nat) (e : Ecc) : (s.interleaveToCw v e).1.baLen = s.baLen := rfl

/-- A frame that names more offsets. -/
theorem Frame.mono {s t : State} {W : List Reg} {P Q : Nat → Prop} (h : Frame s t W P) (hPQ : ∀ a, P a → Q a) :
    Frame s t W Q :=
  ⟨h.status, h.regs, fun a ha => h.lm a fun hp => ha (hPQ a hp), h.own⟩

/-! ## The symbol -/

section Encode

variable (s : State) {v : Nat} {e : Ecc} (hfit : fits s.inLen.toNat v e = true)

/-- The state whose registers QR_ENCODE sets last: the symbol of the best mask (47_qr_penalty.md R358, step 9). -/
def State.encoded (s : State) (v : Nat) (e : Ecc) (best : Nat) : State :=
  ((((s.assemble v e).1.interleaveToCw v e).1.drawFunctions v e).tryMasks e (gridSize v) (List.range 8)).1.candidate e
    (gridSize v) best

/-- QR_ENCODE's end state is that state with its result registers. -/
theorem exists_encodeVersion_eq (v : Nat) (e : Ecc) : ∃ p : PenRegs, s.encodeVersion v e =
    { s.encoded v e (chooseMask p) with
      pen := p
      qrInfo := (QrInfo.drawn v (gridSize v) e).placed (chooseMask p)
      res := { (s.encoded v e (chooseMask p)).res with
        r0 := word v, r1 := word (chooseMask p), r2 := p.get (chooseMask p), r3 := word (gridSize v) } } := ⟨_, rfl⟩

include hfit

/-- Only BITS, the codewords of CW and GRID are stored to (47_qr_penalty.md R358). -/
theorem frame_encoded (best : Nat) : Frame s (s.encoded v e best) (Instr.regsWritten (.qrEncode e))
    (fun a => span bitsBase 512 a ∨ span cwBase (rawCodewords v) a ∨ span gridBase 4096 a) := by
  obtain ⟨h1, h10⟩ := (tableVersion_iff v).mp (tableVersion_of_fits hfit)
  have hn := gridSize_le h10
  have hgrid : ∀ x, Region.grid.holds x = true →
      span bitsBase 512 x ∨ span cwBase (rawCodewords v) x ∨ span gridBase 4096 x :=
    fun x hx => .inr (.inr ((Region.holds_iff .grid x).mp hx))
  exact (frame_assemble s v e (le_of_fits hfit) (by simp [Instr.regsWritten]) fun x hx => .inl (bits_holds_span x hx)).trans
    (((frame_interleaveToCw_raw _ h1 h10 e (by simp [Instr.regsWritten])).mono fun x hx => .inr (.inl hx)).trans
    ((frame_drawFunctions _ v e (by simp [Instr.regsWritten]) hgrid).trans
    ((frame_tryMasks _ e (List.range 8) hn hgrid).trans (frame_candidate _ e best hn hgrid))))

theorem lengths_encoded (best : Nat) : (s.encoded v e best).baLen.toNat = 8 * dataCodewords v e ∧
    (s.encoded v e best).cwLen.toNat = rawCodewords v := by
  obtain ⟨h1, h10⟩ := (tableVersion_iff v).mp (tableVersion_of_fits hfit)
  rw [State.encoded, (lengths_candidate ..).1, (lengths_candidate ..).2, (lengths_tryMasks ..).1, (lengths_tryMasks ..).2,
    (lengths_drawFunctions ..).1, (lengths_drawFunctions ..).2, baLen_interleaveToCw]
  exact ⟨baLen_assemble s (le_of_fits hfit), cwLen_interleaveToCw _ h1 h10 e⟩

end Encode

theorem exec_qrEncode_of_selectVersion {s : State} {e : Ecc} {v : Nat} (hn : s.inLen.toNat ≤ inCapacity)
    (hsel : selectVersion s.params.maxVersion s.inLen.toNat e = some v) :
    exec (.qrEncode e) s = (s.encodeVersion v e).succeed := by
  change execQrEncode e s = _
  rw [execQrEncode, if_neg (Nat.not_lt.mpr hn), hsel]

/-- Settles O36: the version is the one selected, and the last step sets every register the rule names. -/
theorem qrEncodeCompletesWithItsSymbol : Obligations.QrEncodeCompletesWithItsSymbol := by
  intro s e v hinv hn h1 hmax hfit hleast
  have hsel := selectVersion_eq_some_iff.mpr ⟨hfit, ⟨h1, hmax⟩, hleast⟩
  have hx := exec_qrEncode_of_selectVersion hn hsel
  obtain ⟨hver, hsize⟩ := drawn_fields (tableVersion_of_fits hfit) e
  obtain ⟨p, hp⟩ := exists_encodeVersion_eq s v e
  have hframe := frame_encoded s hfit (chooseMask p)
  obtain ⟨hba, hcw⟩ := lengths_encoded s hfit (chooseMask p)
  have hmask := toNat_placed_mask (QrInfo.drawn v (gridSize v) e) (chooseMask_lt p)
  have hbest : (word (chooseMask p)).toNat = chooseMask p := toNat_word (by have := chooseMask_lt p; omega)
  have hv := (tableVersion_iff v).mp (tableVersion_of_fits hfit)
  generalize s.encoded v e (chooseMask p) = u at hp hframe hba hcw
  rw [hp] at hx
  generalize chooseMask p = best at hx hmask hbest
  have hpen : p.get best = p.get ((QrInfo.drawn v (gridSize v) e).placed best).mask.toNat := by rw [hmask]
  have hend := (hframe.setSymbol p ((QrInfo.drawn v (gridSize v) e).placed best) _ (by simp [Instr.regsWritten])
    (by simp [ResKept, Instr.regsWritten])).completes hx
  exact ⟨_, hend, toNat_word (by omega), hbest.trans hmask.symm, hpen, toNat_word (by rw [gridSize]; omega), hba, hcw, hver,
    hsize, rfl, rfl, rfl⟩

end Sys2Proof.Machine
end
